-- ==== Sys2Proof/Word.lean ====
section
/-! DEFINITION. The two word sizes of `presto-rle-decoder`: a stream byte and a 32-bit pattern
(spec/00_scope.md R8, spec/10_state.md R12). -/

namespace Sys2Proof

/-- A byte of the stream: 8 bits, bit 0 the least significant (R8). -/
abbrev Byte := BitVec 8

/-- A 32-bit pattern: every `int32` and `uint32` of the source (R12). -/
abbrev Word := BitVec 32

end Sys2Proof
end

