-- ==== Sys2Proof/Config.lean ====
section
/-! DEFINITION. The parameters of one block (spec/00_scope.md R6): what the environment fixes and no
command writes. `Sys2Proof.Machine.exec` has no argument for them, so a `Params` record travels in the
state; every statement is therefore made for ALL parameter values. -/

namespace Sys2Proof

/-- The dictionary `DICT`: a partial function from 32-bit codes to domain values, written as its
finitely many (code, value) pairs; the first pair with a code is the one that counts (R6, R37;
notes/assumptions/3.md). -/
abbrev Dict := List (Word × Nat)

/-- The parameters of R6. `IN`, the last row of R6's table, is bound by INIT and stands in the state. -/
structure Params where
  /-- `DOMAIN_WIDTH`: bits of one output word. -/
  domainWidth : Nat
  /-- `DICT`. -/
  dict : Dict
  /-- `DICT_RETAINED`: the dictionary's own retained size, an unsigned 64-bit integer. -/
  dictRetained : BitVec 64
  /-- `INSTANCE_OVERHEAD`: the fixed instance overhead of RETAINED, an unsigned 64-bit integer. -/
  instanceOverhead : BitVec 64
  /-- `BUF_CAP_GROUPS`: the largest `numGroups` a PACKED record may carry. -/
  bufCapGroups : Nat
  /-- `OUT_SIZE`: words of the output space. -/
  outSize : Nat
deriving DecidableEq, Repr

/-- The ranges R6 and R130 state for the parameters: `DOMAIN_WIDTH` positive, `BUF_CAP_GROUPS` in
[1, 2^29 - 1], `OUT_SIZE` in [0, 2^31 - 1], every domain value a `DOMAIN_WIDTH`-bit word, and the sum of
RETAINED fits 64 bits ("the parameters are chosen so the sum fits 64 bits"). -/
abbrev Params.Wf (p : Params) : Prop :=
  0 < p.domainWidth ∧ 1 ≤ p.bufCapGroups ∧ p.bufCapGroups ≤ 2 ^ 29 - 1 ∧ p.outSize ≤ 2 ^ 31 - 1 ∧
    (∀ e ∈ p.dict, e.2 < 2 ^ p.domainWidth) ∧
    p.instanceOverhead.toNat + 4 * (8 * p.bufCapGroups) + p.dictRetained.toNat < 2 ^ 64

/-- The parameter values `State.reset` carries. `DOMAIN_WIDTH` 64 is the timestamp reader's and
`BUF_CAP_GROUPS` has the default R6 gives; the other four are OPEN in the spec (DESIGN CHOICE, unsafe:
notes/assumptions/1.md). That they are within R6's ranges is all a statement uses of them
(ResetSatisfiesTheInvariant, for `State.reset`). -/
def Params.initial : Params where
  domainWidth := 64
  dict := []
  dictRetained := 0
  instanceOverhead := 0
  bufCapGroups := 2 ^ 29 - 1
  outSize := 2 ^ 31 - 1

end Sys2Proof
end

