-- ==== Sys2Proof/Syntax.lean ====
section
/-! DEFINITION. The encoded operations of the block as syntax: one constructor of `Instr` per row of
spec/opcode_table.json (spec/30_encoding.md R64), the raw things an operation is read from (R50), and the
record notation of R62. -/

namespace Sys2Proof

/-- The decoder variant, the control register `kind`: 0 Generic, 1 SingleBit (spec/10_state.md R18). -/
inductive Kind where
  | generic
  | singleBit
deriving DecidableEq, Repr

/-- The twelve encoded operations (R64). The first seven are read from the stream, the last five from
the command port. -/
inductive Instr where
  /-- `VARINT.CONT`, byte `1ppppppp` (R51, R71). -/
  | varintCont (p : BitVec 7)
  /-- `VARINT.LAST`, byte `0ppppppp` (R51, R72). -/
  | varintLast (p : BitVec 7)
  /-- `HDR.RUN`, a Generic header with bit 0 clear; `n` is `H[31:1]`, the run length (R52, R94). -/
  | hdrRun (n : BitVec 31)
  /-- `HDR.PACKED`, a Generic header with bit 0 set; `g` is `H[31:1]`, the number of groups (R52, R95). -/
  | hdrPacked (g : BitVec 31)
  /-- `HDR.BRUN`, any SingleBit header; `b` is `H[0]`, `n` is `H[31:1]` (R52, R98). -/
  | hdrBrun (n : BitVec 31) (b : BitVec 1)
  /-- `RUNVAL`, a RUN payload of `k` bytes whose little-endian value is `value` (R53, R57). -/
  | runval (k : Nat) (value : Word)
  /-- `UNPACK8`, one group: `w` bytes that hold 8 fields of `w` bits (R54, R80). -/
  | unpack8 (w : Nat) (group : List Byte)
  /-- `INIT`, command 0; `stream` is the abstract operand `in` (R58, R111). -/
  | init (kind : Kind) (fixed : Bool) (bw : BitVec 6) (value count : Word) (stream : List Byte)
  /-- `DECODE`, command 1 (R58, R99). -/
  | decode
  /-- `READNEXT`, command 2; both operands are read as two's complement (R58, R112). -/
  | readnext (offset length : Word)
  /-- `SKIP`, command 3; the operand is read as two's complement (R58, R113). -/
  | skip (length : Word)
  /-- `RETAINED`, command 4 (R58, R130). -/
  | retained
deriving DecidableEq, Repr

/-- The signals of the command port while a command is offered (spec/00_scope.md R7), and the bytes the
cursor port is connected to at that moment (spec/20_memory.md R31; notes/assumptions/17.md). -/
structure CmdPort where
  op : BitVec 3
  kind : BitVec 1
  fixed : BitVec 1
  bw : BitVec 6
  value : Word
  count : Word
  offset : Word
  length : Word
  cursor : List Byte
deriving DecidableEq, Repr

/-- What an operation is read from: one of the four stream formats or the command format (R50). A
header comes with the control register `kind`, which no stream bit shows (R52); the length of a RUN value
or of a group is the number of its bytes (R59). -/
inductive Fetched where
  | vbyte (b : Byte)
  | hdr (kind : Kind) (h : Word)
  | runval (bytes : List Byte)
  | pgroup (bytes : List Byte)
  | cmd (c : CmdPort)
deriving DecidableEq, Repr

/-- The two readings of a header byte (R51). -/
inductive VByteForm where
  | cont (p : BitVec 7)
  | last (p : BitVec 7)
deriving DecidableEq, Repr

/-- The three readings of a header value (R52). -/
inductive HeaderForm where
  | run (n : BitVec 31)
  | packed (g : BitVec 31)
  | brun (n : BitVec 31) (b : BitVec 1)
deriving DecidableEq, Repr

/-- The operation a header byte is. -/
def VByteForm.toInstr : VByteForm → Instr
  | .cont p => .varintCont p
  | .last p => .varintLast p

/-- The operation a header value is. -/
def HeaderForm.toInstr : HeaderForm → Instr
  | .run n => .hdrRun n
  | .packed g => .hdrPacked g
  | .brun n b => .hdrBrun n b

/-- Why nothing is read from a `Fetched`. -/
inductive DecodeError where
  /-- Command opcode 5, 6 or 7 (R58, R61): the block answers it with ArgumentError. -/
  | reservedOpcode (op : BitVec 3)
  /-- A RUN value of no byte or of more than four: no `bitWidth` in 1..32 gives it (R53). -/
  | runValueLength (bytes : Nat)
  /-- A group of no byte or of more than 32: no `bitWidth` in 1..32 gives it (R54, R82). -/
  | groupLength (bytes : Nat)
deriving DecidableEq, Repr

/-- The record notation of R62: `RUN n, v`; `PACKED g, [v_0, ...]`; `BRUN n, b`. -/
inductive Record where
  | run (n : BitVec 31) (v : Word)
  | packed (g : BitVec 31) (vs : List Word)
  | brun (n : BitVec 31) (b : BitVec 1)
deriving DecidableEq, Repr

end Sys2Proof
end

