-- ==== Sys2Proof/WellFormed.lean ====
section
/-! DEFINITION. Which terms of the syntax the encodings of spec/30_encoding.md can carry. -/

namespace Sys2Proof

/-- The terms some encoding of R51 to R58 gives. A RUN value has 1 to 4 bytes and no bit above them
(R53); a group has as many bytes as the width of its fields, 1 to 32 (R54, R82). The fields of every other
operation have exactly the bits of its format. -/
def Instr.wellFormed : Instr → Bool
  | .varintCont _ => true
  | .varintLast _ => true
  | .hdrRun _ => true
  | .hdrPacked _ => true
  | .hdrBrun _ _ => true
  | .runval k value => decide ((1 ≤ k ∧ k ≤ 4) ∧ value.toNat < 2 ^ (8 * k))
  | .unpack8 w group => decide ((1 ≤ w ∧ w ≤ 32) ∧ group.length = w)
  | .init _ _ _ _ _ _ => true
  | .decode => true
  | .readnext _ _ => true
  | .skip _ => true
  | .retained => true

/-- The records R62 lets be written for a `kind` and a width `w`: a RUN value fits its `ceil(w/8)` bytes,
a PACKED record has `8 g` values below `2^w`, and each kind has its own records (R55). -/
def Record.wellFormed (kind : Kind) (w : Nat) : Record → Bool
  | .run _ v => decide (kind = .generic ∧ v.toNat < 2 ^ (8 * ((w + 7) / 8)))
  | .packed g vs =>
    decide (kind = .generic ∧ vs.length = 8 * g.toNat) && vs.all fun v => decide (v.toNat < 2 ^ w)
  | .brun _ _ => decide (kind = .singleBit)

end Sys2Proof
end

