-- ==== Sys2Proof/Decode.lean ====
section
/-! DEFINITION. The decoder, total on whatever is fetched and rejecting by name, and after it the encoder
and the assembler of R62, from the same formats of spec/30_encoding.md (R50 to R64). -/

namespace Sys2Proof

/-! ## Byte order and bit fields -/

/-- `LE(b_0, b_1, ...)`: little-endian assembly, the sum of `b_j * 2^(8j)` (spec/00_scope.md R8, R34). -/
def leNat : List Byte → Nat
  | [] => 0
  | b :: bs => b.toNat + 256 * leNat bs

/-- The `k` bytes of a number, least significant first: what `leNat` reads back. -/
def leBytes : Nat → Nat → List Byte
  | 0, _ => []
  | k + 1, n => BitVec.ofNat 8 n :: leBytes k (n / 256)

/-- `ceil(w/8)`: the bytes of one RUN value (R53). -/
def runValueBytes (w : Nat) : Nat := (w + 7) / 8

/-! ## The decoder -/

/-- Format VBYTE: bit 7 is `c`, bits 6:0 are the payload (R51). -/
def decodeVByte (b : Byte) : VByteForm :=
  if b.getLsbD 7 then .cont (b.extractLsb' 0 7) else .last (b.extractLsb' 0 7)

/-- Format HDR: for a Generic instance bit 0 selects RUN or PACKED, for a SingleBit instance it is the
repeated value; bits 31:1 are the count (R52, R57). -/
def decodeHeader (kind : Kind) (h : Word) : HeaderForm :=
  match kind with
  | .singleBit => .brun (h.extractLsb' 1 31) (h.extractLsb' 0 1)
  | .generic => if h.getLsbD 0 then .packed (h.extractLsb' 1 31) else .run (h.extractLsb' 1 31)

/-- Format RUNVAL: `zext_32(LE(payload bytes))`, not masked to `bitWidth` (R53, R57). -/
def decodeRunVal (bytes : List Byte) : Except DecodeError Instr :=
  if 1 ≤ bytes.length ∧ bytes.length ≤ 4 then
    .ok (.runval bytes.length (BitVec.ofNat 32 (leNat bytes)))
  else .error (.runValueLength bytes.length)

/-- Format PGROUP: `bitWidth` bytes, 1 to 32; there are no constraint bits (R54, R81, R82). -/
def decodeGroup (bytes : List Byte) : Except DecodeError Instr :=
  if 1 ≤ bytes.length ∧ bytes.length ≤ 32 then .ok (.unpack8 bytes.length bytes)
  else .error (.groupLength bytes.length)

/-- The control bit `kind`: 0 Generic, 1 SingleBit (R18). -/
def decodeKind (k : BitVec 1) : Kind := if k = 0#1 then .generic else .singleBit

/-- Format CMD: the 3-bit opcode, and of the operand fields those the opcode's row lists; the others are
ignored (R58). Opcodes 5, 6 and 7 are reserved (R61). -/
def decodeCommand (c : CmdPort) : Except DecodeError Instr :=
  match c.op.toNat with
  | 0 => .ok (.init (decodeKind c.kind) (decide (c.fixed = 1#1)) c.bw c.value c.count c.cursor)
  | 1 => .ok .decode
  | 2 => .ok (.readnext c.offset c.length)
  | 3 => .ok (.skip c.length)
  | 4 => .ok .retained
  | _ => .error (.reservedOpcode c.op)

/-- The decoder: total on everything that can be fetched. -/
def decode : Fetched → Except DecodeError Instr
  | .vbyte b => .ok (decodeVByte b).toInstr
  | .hdr kind h => .ok (decodeHeader kind h).toInstr
  | .runval bytes => decodeRunVal bytes
  | .pgroup bytes => decodeGroup bytes
  | .cmd c => decodeCommand c

/-! ## The encoder -/

/-- The command port with an opcode alone: the fields a command does not list are 0 (R62). -/
def CmdPort.bare (op : BitVec 3) : CmdPort where
  op := op
  kind := 0
  fixed := 0
  bw := 0
  value := 0
  count := 0
  offset := 0
  length := 0
  cursor := []

/-- A kind as its control bit (R18). -/
def encodeKind : Kind → BitVec 1
  | .generic => 0#1
  | .singleBit => 1#1

/-- The encoder: the fetched form of a well-formed instruction. A header is encoded for the kind its row
belongs to (R52). -/
def encode : Instr → Fetched
  | .varintCont p => .vbyte (1#1 ++ p)
  | .varintLast p => .vbyte (0#1 ++ p)
  | .hdrRun n => .hdr .generic (n ++ 0#1)
  | .hdrPacked g => .hdr .generic (g ++ 1#1)
  | .hdrBrun n b => .hdr .singleBit (n ++ b)
  | .runval k value => .runval (leBytes k value.toNat)
  | .unpack8 _ group => .pgroup group
  | .init kind fixed bw value count stream =>
    .cmd { CmdPort.bare 0 with
      kind := encodeKind kind, fixed := BitVec.ofBool fixed, bw := bw, value := value, count := count,
      cursor := stream }
  | .decode => .cmd (CmdPort.bare 1)
  | .readnext offset length => .cmd { CmdPort.bare 2 with offset := offset, length := length }
  | .skip length => .cmd { CmdPort.bare 3 with length := length }
  | .retained => .cmd (CmdPort.bare 4)

/-! ## The assembler of R62 -/

/-- `Varint(x)` with at most `fuel + 1` bytes: seven bits a byte, bit 7 set on all but the last. -/
def varintBytesFrom : Nat → Nat → List Byte
  | 0, x => [BitVec.ofNat 8 (x % 128)]
  | fuel + 1, x =>
    if x / 128 = 0 then [BitVec.ofNat 8 (x % 128)]
    else BitVec.ofNat 8 (x % 128 + 128) :: varintBytesFrom fuel (x / 128)

/-- `Varint(x)`: the minimal encoding of a 32-bit value, 1 to 5 bytes (R62, R76 item 3). -/
def varintBytes (x : Word) : List Byte := varintBytesFrom 4 x.toNat

/-- The sum of `vs[k] * 2^(w k)`: the number whose bytes `Pack(w, vs)` is (R62). -/
def packNat (w : Nat) : List Word → Nat
  | [] => 0
  | v :: vs => v.toNat + 2 ^ w * packNat w vs

/-- `Pack(w, vs)`: `w * len(vs) / 8` bytes (R62). -/
def pack (w : Nat) (vs : List Word) : List Byte := leBytes (w * vs.length / 8) (packNat w vs)

/-- The header value of a record (R52, R62). -/
def Record.header : Record → Word
  | .run n _ => n ++ 0#1
  | .packed g _ => g ++ 1#1
  | .brun n b => n ++ b

/-- The payload of a record for `bitWidth = w` (R55). -/
def Record.payload (w : Nat) : Record → List Byte
  | .run _ v => leBytes (runValueBytes w) v.toNat
  | .packed _ vs => pack w vs
  | .brun _ _ => []

/-- The bytes of a record (R55, R62). -/
def Record.assemble (w : Nat) (r : Record) : List Byte := varintBytes r.header ++ r.payload w

/-- The codes a record stands for, in the order they are read (R14). -/
def Record.codes : Record → List Word
  | .run n v => List.replicate n.toNat v
  | .packed _ vs => vs
  | .brun n b => List.replicate n.toNat (b.setWidth 32)

/-- A stream: records back to back with nothing between them and nothing after them (R55). -/
def assembleStream (w : Nat) (rs : List Record) : List Byte := rs.flatMap (Record.assemble w)

/-! ## The opcode table's numbering -/

/-- A command word, its fields laid end to end in the order R7 lists the command port's signals: `op` in
bits 2:0, `kind` 3, `fixed` 4, `bw` 10:5, `value` 42:11, `count` 74:43, `offset` 106:75, `length` 138:107.
Only bits 2:0 are the spec's (DESIGN CHOICE for the rest: notes/assumptions/9.md). -/
def CmdPort.ofTableWord (w : Nat) : CmdPort where
  op := BitVec.ofNat 3 w
  kind := BitVec.ofNat 1 (w >>> 3)
  fixed := BitVec.ofNat 1 (w >>> 4)
  bw := BitVec.ofNat 6 (w >>> 5)
  value := BitVec.ofNat 32 (w >>> 11)
  count := BitVec.ofNat 32 (w >>> 43)
  offset := BitVec.ofNat 32 (w >>> 75)
  length := BitVec.ofNat 32 (w >>> 107)
  cursor := []

/-- What a word of the opcode table is fetched as. The table's rows are of five formats that share their
bit patterns, and a word does not say its format (R52, R59): the number of bits decides, and where two
formats have the same number, one is chosen (DESIGN CHOICE: notes/assumptions/9.md). Fewer than 8 bits, or
8 bits that are 0 to 4, are a command; other 8-bit words are a header byte; 32 bits are a header of a Generic
instance; 16 and 24 bits are a RUN value; any other whole number of bytes up to 32 is a group. -/
def tableFetched (nbits w : Nat) : Option Fetched :=
  if nbits < 8 then some (.cmd (CmdPort.ofTableWord w))
  else if nbits = 8 then
    if w < 5 then some (.cmd (CmdPort.ofTableWord w)) else some (.vbyte (BitVec.ofNat 8 w))
  else if nbits = 32 then some (.hdr .generic (BitVec.ofNat 32 w))
  else if nbits = 16 ∨ nbits = 24 then some (.runval (leBytes (nbits / 8) w))
  else if nbits % 8 = 0 ∧ nbits ≤ 256 then some (.pgroup (leBytes (nbits / 8) w))
  else none

/-- The instruction the decoder reads from a word of the opcode table; none where it reads none. -/
def decodeTableWord (nbits w : Nat) : Option Instr :=
  match tableFetched nbits w with
  | some f => (decode f).toOption
  | none => none

end Sys2Proof
end

