-- ==== Sys2Proof/Machine/State.lean ====
section
/-! DEFINITION. The state of one block as plain data (spec/10_state.md R10 and spec/20_memory.md), what its
ports hold, the ways a step can stop, and the state after reset (R25). -/

namespace Sys2Proof.Machine

/-- `mode`: 0 RUN, 1 PACKED (R14). -/
inductive Mode where
  | run
  | packed
deriving DecidableEq, Repr

/-- The values of the 3-bit register `fault` (R21, spec/60_exceptions.md R140); their codes are
`FaultCode.code`. Code 7 is reserved and never produced. -/
inductive FaultCode where
  | none
  | streamUnderrun
  /-- Defined by the spec and raised by none of its rules (R143). -/
  | decodeMode
  | argument
  | truncatedStream
  | dictionaryMiss
  | capacity
deriving DecidableEq, Repr

/-- The response to a command (R58): `Ok`, `Ok(more, count)` of DECODE, `Ok(bytes)` of RETAINED, or
`Fault(code)`. Its wires are `Response.faultBits` and `Response.data`. -/
inductive Response where
  | ok
  | decoded (more : Bool) (count : Word)
  | bytes (n : BitVec 64)
  | fault (f : FaultCode)
deriving DecidableEq, Repr

/-- What the outside does to the block, one interaction each (spec/70_reset_and_hazards.md R187). -/
inductive HostInput where
  /-- A command offered at the command port. -/
  | command (c : CmdPort)
  /-- `rst` (R170); with a command in flight, that command and how many of its output words had been
  written when reset came. -/
  | reset (inFlight : Option (CmdPort × Nat))
  /-- The host writes a word of its own output space between commands. -/
  | writeOut (index value : Nat)
  /-- The environment supplies the dictionary of the next instance (R6: "supplied per instance"). -/
  | attachDictionary (dict : Dict) (retained : BitVec 64)
deriving DecidableEq, Repr

/-- The output space `OUT`: (word index, domain value) pairs, indices strictly rising; an index that is not
listed has not been written since the machine began and has no value the model knows (R25, R38; U11;
notes/assumptions/2.md and 3.md). -/
abbrev OutMem := List (Nat × Nat)

/-- The state of one block. -/
structure State where
  /-- The parameters of R6 (the model's own field: no command writes it; notes/assumptions/1.md). -/
  params : Params
  /-- `currentValue` (R11). -/
  currentValue : Word
  /-- `currentCount`, the not-yet-consumed values of the current run or group (R13). -/
  currentCount : Word
  /-- `mode` (R14). -/
  mode : Mode
  /-- `pos`, bytes of `IN` already consumed: the program counter's analogue (R16; notes/assumptions/15.md). -/
  pos : Nat
  /-- `kind` (R18). -/
  kind : Kind
  /-- `bitWidth`, an integer in [0, 32] (R19). -/
  bitWidth : Fin 33
  /-- `constOnly` (R20). -/
  constOnly : Bool
  /-- `fault`, sticky (R21). -/
  fault : FaultCode
  /-- `buf`, the packed buffer; `bufLen` is its length (R22). -/
  buf : List Word
  /-- `OUT` (R38). -/
  out : OutMem
  /-- `IN`, the bytes the cursor delivers to this instance (R31). -/
  input : List Byte
  /-- The Varint Reader's accumulator `acc` (R15); idle: 0 (this and the next four: notes/assumptions/4.md). -/
  acc : Word
  /-- The Varint Reader's `shift` (R15); idle: 0. -/
  shift : Nat
  /-- The header value the Varint Reader has emitted and no record decoder has taken (R72, R75). -/
  header : Option Word
  /-- The Bit-Unpacker's wide accumulator, at most 32 bytes (R23); idle: 0. -/
  unpackAcc : BitVec 256
  /-- `newbuf`, the buffer a PACKED record is filling (R91); idle: empty. -/
  fill : List Word
  /-- What the outside will do next, in order (R187; notes/assumptions/5.md). -/
  pending : List HostInput
  /-- The response port: the last command's response; none before the first (R7, R58). -/
  rsp : Option Response
deriving DecidableEq, Repr

/-- Why the machine stops. No command stops it: the faults of R140 are taken, into the register `fault`. -/
inductive Fault where
  /-- The outside writes a word at or beyond `OUT_SIZE`, which does not exist (R38). Raised by
  `hostWriteOut`. Safe: no word is written. -/
  | noSuchOutWord
deriving DecidableEq, Repr

/-- What the model gives no meaning. -/
inductive Refusal where
  /-- An instruction without a meaning yet, by its mnemonic. Raised by `exec`'s arms. Safe. -/
  | notModelled (mnemonic : String)
  /-- `Unpack8` on a width outside [1, 32], or on a group of another number of bytes: "has no meaning in
  this spec; a model gives it none" (R82). Raised by `unpackGroup`. Safe. -/
  | unpackWidth
  /-- A RUN value of no byte, of more than four, or with bits above them: no format (R53). Raised by
  `takeRunValue`. Safe. -/
  | runValueFormat
  /-- Another dictionary supplied inside the life of an instance, or one outside the ranges of R6: outside
  the model (R177; U9, "refuse"). Raised by `hostAttachDictionary`. Safe. -/
  | dictionaryChange
deriving DecidableEq, Repr

/-- The state after reset for given parameters (R25): the empty constant-only instance. `OUT` lists
nothing, no response has been given and the outside has announced nothing. -/
def State.resetWith (p : Params) : State where
  params := p
  currentValue := 0
  currentCount := 0
  mode := .run
  pos := 0
  kind := .generic
  bitWidth := 0
  constOnly := true
  fault := .none
  buf := []
  out := []
  input := []
  acc := 0
  shift := 0
  header := none
  unpackAcc := 0
  fill := []
  pending := []
  rsp := none

/-- The machine right after reset (R25), with the parameters of `Params.initial`. -/
def State.reset : State := State.resetWith Params.initial

end Sys2Proof.Machine
end

