-- ==== Sys2Proof/Machine/Ops.lean ====
section
/-! DEFINITION. The named operations over the state: the primitives of spec/20_memory.md (R32, R33, R37,
R38), the two responses' write, taking a fault (spec/60_exceptions.md R150) and dropping an instance (R111
step 1, R153). -/

namespace Sys2Proof.Machine

/-! ## An operation inside a command -/

/-- How an operation inside a command ends: it goes on with a value, it raises a fault (R150), or it has no
meaning (R82, R53). -/
inductive Res (α : Type) where
  | ok (a : α) (s : State)
  | raised (f : FaultCode) (s : State)
  | refused (r : Refusal)
deriving DecidableEq, Repr

/-- Go on with the value, or end as the operation ended. -/
def Res.bind {α β : Type} (r : Res α) (k : α → State → Res β) : Res β :=
  match r with
  | .ok a s => k a s
  | .raised f s => .raised f s
  | .refused x => .refused x

/-! ## The cursor -/

/-- `CurAvail()`: the bytes of `IN` not yet consumed (R32). -/
def State.avail (s : State) : Nat := s.input.length - s.pos

/-- `MemRead(pos, n)`: the next `n` bytes of `IN` (R33). -/
def State.window (n : Nat) (s : State) : List Byte := (s.input.drop s.pos).take n

/-- `pos <- pos + n`: the bytes are consumed (R33). -/
def State.advance (n : Nat) (s : State) : State := { s with pos := s.pos + n }

/-- `CurRead(n)`, for `n <= CurAvail()`: the bytes, and the state that has consumed them (R33). -/
def State.curRead (n : Nat) (s : State) : List Byte × State := (s.window n, s.advance n)

/-! ## The packed buffer, the dictionary, the output space -/

/-- `bufLen` (R22). -/
def State.bufLen (s : State) : Nat := s.buf.length

/-- `DictResolve(c)`: the dictionary's value for the 32-bit pattern, or a miss (R37). -/
def dictResolve (d : Dict) (c : Word) : Option Nat := d.lookup c

/-- A word of the output space; none where nothing has been written. -/
def OutMem.read (m : OutMem) (i : Nat) : Option Nat := m.lookup i

/-- Writing a word keeps the indices strictly rising. -/
def OutMem.write : OutMem → Nat → Nat → OutMem
  | [], i, v => [(i, v)]
  | (j, u) :: m, i, v =>
    if i < j then (i, v) :: (j, u) :: m
    else if i = j then (i, v) :: m
    else (j, u) :: OutMem.write m i v

/-- The canonical form of the output space: indices strictly rising. -/
def OutMem.wf (m : OutMem) : Bool := decide ((m.map Prod.fst).Pairwise (· < ·))

/-- `OutWrite(i, v)`: `OUT[i] <- v` (R38). -/
def State.outWrite (i v : Nat) (s : State) : State := { s with out := s.out.write i v }

/-! ## Responses, faults, instances -/

/-- Every transient unit idle: the Varint Reader in `V_IDLE`, no header waiting, the unpacker and its
destination empty (R15, R23, R75). -/
def State.clearUnits (s : State) : State :=
  { s with acc := 0, shift := 0, header := none, unpackAcc := 0, fill := [] }

/-- The command answers (R58). -/
def State.respond (r : Response) (s : State) : State := { s with rsp := some r }

/-- TAKING A FAULT, `raise F(info)` (R150): the effects already made stay, the units stop (a partial varint
is discarded, R74), `fault` takes the code and the response is `Fault(code)`. Nothing is saved and control
goes nowhere. A command raises only with `fault = NONE` (R21, R150); `Res.settle` may raise over a stored
code. -/
def State.raiseFault (f : FaultCode) (s : State) : State :=
  { s.clearUnits with fault := f, rsp := some (.fault f) }

/-- THE RETURN FROM A FAULT, the only one there is (R153): the old instance is dropped and every state
element takes its reset value (R25; R111 step 1). `OUT` keeps what it holds. -/
def State.dropInstance (s : State) : State :=
  { s.clearUnits with
    kind := .generic, bitWidth := 0, constOnly := true, mode := .run, currentValue := 0,
    currentCount := 0, buf := [], pos := 0, input := [], fault := .none }

/-- A stream operation run by itself: it goes on, or its fault is taken. DESIGN CHOICE
(notes/assumptions/11.md): it runs in every state and does not ask whether a `Decode()` would come to it, so also
on a constant-only instance (R90) and with a fault stored, runs the block never makes. A fault it raises then
replaces the stored code, where R21 has `raise` write `fault` only when it is NONE. -/
def Res.settle (r : Res Unit) : Host.Outcome State Fault Refusal :=
  match r with
  | .ok _ s => .next s
  | .raised f s => .next (s.raiseFault f)
  | .refused x => .refused x

end Sys2Proof.Machine
end

