-- ==== Sys2Proof/Machine/Flags.lean ====
section
/-! DEFINITION. The block has no condition codes (spec/10_state.md R24). Its status is the register `fault`,
and what a command shows are the response wires (spec/30_encoding.md R58, spec/60_exceptions.md R140). -/

namespace Sys2Proof.Machine

/-- The 3-bit code of a fault (R140). -/
def FaultCode.code : FaultCode → BitVec 3
  | .none => 0
  | .streamUnderrun => 1
  | .decodeMode => 2
  | .argument => 3
  | .truncatedStream => 4
  | .dictionaryMiss => 5
  | .capacity => 6

/-- `rsp_fault[2:0]`: 0 for `Ok`, else the fault's code (R58). -/
def Response.faultBits : Response → BitVec 3
  | .ok => 0
  | .decoded _ _ => 0
  | .bytes _ => 0
  | .fault f => f.code

/-- `rsp_data[63:0]`: the byte count of RETAINED; for DECODE bit 32 is `more` and bits 31:0 are `count`;
otherwise 0, also with a fault (R58, R150 item 3). -/
def Response.data : Response → BitVec 64
  | .ok => 0
  | .decoded more count => (BitVec.ofBool more ++ count).setWidth 64
  | .bytes n => n
  | .fault _ => 0

/-- The sticky fault (R151): with a fault stored the command does nothing and answers the stored code;
without one it runs. -/
def whenNoFault (s : State) (run : State → Host.Outcome State Fault Refusal) :
    Host.Outcome State Fault Refusal :=
  if s.fault = .none then run s else .next (s.respond (.fault s.fault))

end Sys2Proof.Machine
end

