-- ==== Sys2Proof/Machine/Operands.lean ====
section
/-! DEFINITION. How operands are read (spec/30_encoding.md R57, R63): the two's-complement operands of
READNEXT and SKIP, the count operands of headers, and the slots READNEXT reads. -/

namespace Sys2Proof.Machine

/-- `sext_32` of a 32-bit command field (R8, R112, R113). -/
def signedOperand (x : Word) : Int := x.toInt

/-- The eager check of READNEXT's operands: neither is negative and the request stays inside `OUT`; the
sum does not wrap (R112, R63 item 8, R144 items 3 and 4). -/
def readnextArgumentsOk (p : Params) (offset length : Word) : Bool :=
  decide (0 ≤ signedOperand length ∧ 0 ≤ signedOperand offset ∧
    signedOperand offset + signedOperand length ≤ (p.outSize : Int))

/-- The eager check of SKIP's operand (R113, R144 item 2). -/
def skipArgumentOk (length : Word) : Bool := decide (0 ≤ signedOperand length)

/-- A non-negative operand as a count of values or a word index. -/
def countOperand (x : Word) : Nat := (signedOperand x).toNat

/-- `n` or `g`, `H >> 1` zero-extended to the `uint32` `currentCount` (R57, R63 item 2). -/
def runCount (n : BitVec 31) : Word := n.setWidth 32

/-- `numGroups * 8` as a `uint32`; exact for `numGroups <= 2^29 - 1` (R57, R63 item 3). -/
def packedCount (g : BitVec 31) : Word := BitVec.ofNat 32 (8 * g.toNat)

/-- The SingleBit value `H & 1`, zero-extended (R57). -/
def bitValue (b : BitVec 1) : Word := b.setWidth 32

/-- `min(remaining, currentCount)` (R112, R113, R63 item 5). -/
def takeNow (remaining : Nat) (s : State) : Nat := min remaining s.currentCount.toNat

/-- The next `n` unconsumed slots, from `buf[bufLen - currentCount]` on, in ascending order (R17, R117). -/
def State.nextSlots (n : Nat) (s : State) : List Word :=
  (s.buf.drop (s.bufLen - s.currentCount.toNat)).take n

end Sys2Proof.Machine
end

