-- ==== Sys2Proof/Machine/Unpack.lean ====
section
/-! DEFINITION. The Bit-Unpacker (spec/41_unpack.md): `Unpack8`, the meaning of UNPACK8. -/

namespace Sys2Proof.Machine

/-- One lane: `value = acc & ((1 << w) - 1)` goes to the next slot and `acc >>= w` (R80). The mask is taken
on the wide accumulator, so for `w = 32` it is all ones (R63 item 7). DESIGN CHOICE (notes/assumptions/11.md):
R80's `output` and `outputOffset` are the list `fill` and its end, and no bound is checked; in `Decode()` the
offset is `8j` (R86) and the capacity check (R95) has gone before. -/
def unpackLane (w : Nat) (s : State) : State :=
  { s with
    fill := s.fill ++ [(s.unpackAcc &&& (BitVec.ofNat 256 (2 ^ w - 1))).setWidth 32]
    unpackAcc := s.unpackAcc >>> w }

/-- So many lanes in order. -/
def unpackLanes (w : Nat) : Nat → State → State
  | 0, s => s
  | n + 1, s => unpackLanes w n (unpackLane w s)

/-- `Unpack8` (R80): the `w` bytes of a group are assembled little-endian in the wide accumulator and its 8
fields go to the next 8 slots of the buffer being filled. A width outside [1, 32] has no meaning (R82), nor
is a group of another length given one. DESIGN CHOICE (notes/assumptions/11.md): run by itself it does not look
at `bitWidth`, so `w` need not be it; in `Decode()` it always is. -/
def unpackGroup (w : Nat) (group : List Byte) (s : State) : Res Unit :=
  if (1 ≤ w ∧ w ≤ 32) ∧ group.length = w then
    .ok () (unpackLanes w 8 { s with unpackAcc := BitVec.ofNat 256 (leNat group) })
  else .refused .unpackWidth

/-- UNPACK8 (R80). -/
def execUnpack8 (w : Nat) (group : List Byte) (s : State) : Host.Outcome State Fault Refusal :=
  (unpackGroup w group s).settle

/-- `Unpack8` on each `w`-byte stride of a padded payload, so many groups (R86, R91). -/
def unpackGroups (w : Nat) : Nat → List Byte → State → Res Unit
  | 0, _, s => .ok () s
  | n + 1, payload, s =>
    (unpackGroup w (payload.take w) s).bind fun _ s1 => unpackGroups w n (payload.drop w) s1

end Sys2Proof.Machine
end

