-- ==== Sys2Proof/Machine/Varint.lean ====
section
/-! DEFINITION. The Varint Reader (spec/40_varint.md): the meanings of VARINT.CONT and VARINT.LAST, and
`ReadVarint()`, the loop that fetches header bytes and runs them. -/

namespace Sys2Proof.Machine

/-- `acc | (p << shift)`, truncated to 32 bits: bits at position 32 and above are lost (R70, R73; overlong
headers: notes/assumptions/10.md). -/
def accumulated (p : BitVec 7) (s : State) : Word := s.acc ||| (p.setWidth 32 <<< s.shift)

/-- A byte with the continuation bit: accumulate, and stay in the loop (R71). -/
def continueVarint (p : BitVec 7) (s : State) : State :=
  { s with acc := accumulated p s, shift := s.shift + 7 }

/-- The last byte: the value is emitted and the reader is idle again (R72, R75). -/
def emitVarint (p : BitVec 7) (s : State) : State :=
  { s with header := some (accumulated p s), acc := 0, shift := 0 }

/-- VARINT.CONT (R71). -/
def execVarintCont (p : BitVec 7) (s : State) : Host.Outcome State Fault Refusal :=
  .next (continueVarint p s)

/-- VARINT.LAST (R72). -/
def execVarintLast (p : BitVec 7) (s : State) : Host.Outcome State Fault Refusal :=
  .next (emitVarint p s)

/-- `V_IDLE`: nothing accumulated (R75). -/
def State.idleReader (s : State) : State := { s with acc := 0, shift := 0 }

/-- The loop of R70 with as many bytes left as the first argument says: with none left it raises
TruncatedStreamError, discarding what is accumulated (R74), and the reader is idle (R75); else it consumes one
byte, decodes it and runs it. -/
def readVarintFrom : Nat → State → Res Word
  | 0, s => .raised .truncatedStream s.idleReader
  | left + 1, s =>
    match s.input[s.pos]? with
    | none => .raised .truncatedStream s.idleReader
    | some b =>
      match decodeVByte b with
      | .cont p => readVarintFrom left (continueVarint p (s.advance 1))
      | .last p => .ok (accumulated p (s.advance 1)) (emitVarint p (s.advance 1))

/-- `ReadVarint()` (R70): `acc` and `shift` start at 0. -/
def readVarint (s : State) : Res Word := readVarintFrom s.avail s.idleReader

end Sys2Proof.Machine
end

