-- ==== Sys2Proof/Machine/Records.lean ====
section
/-! DEFINITION. The Run State Machine (spec/42_run_state_machine.md): the meanings of HDR.RUN with RUNVAL,
HDR.PACKED and HDR.BRUN, and `Decode()` (R91). DESIGN CHOICE (notes/assumptions/11.md): run by themselves the four
operations look at neither `constOnly` nor `kind` nor `fault`. So on a constant-only instance, where R90 has
`Decode()` read no record, they write the run-state all the same (`runRecord`, `packedRecord`, `brunRecord`,
`takeRunValue`); `decodeRecord` makes the check before it calls them. -/

namespace Sys2Proof.Machine

/-- A header value taken by its record decoder: nothing waits any more. -/
def State.takeHeader (s : State) : State := { s with header := none }

/-- RUNVAL: `currentValue <- zext_32(LE(bytes))`, unmasked (R53, R94). A value no RUN payload has is given no
meaning. DESIGN CHOICE (notes/assumptions/11.md): run by itself it does not look at `bitWidth`, so `k` need not
be `ceil(bitWidth/8)`; in `Decode()` it always is. -/
def takeRunValue (k : Nat) (value : Word) (s : State) : Res Unit :=
  if (1 ≤ k ∧ k ≤ 4) ∧ value.toNat < 2 ^ (8 * k) then .ok () { s with currentValue := value }
  else .refused .runValueFormat

/-- RUNVAL (R94). -/
def execRunval (k : Nat) (value : Word) (s : State) : Host.Outcome State Fault Refusal :=
  (takeRunValue k value s).settle

/-- The registers of a run, written once nothing can fault any more (R94, R98, R102). -/
def State.enterRun (count : Word) (s : State) : State :=
  { s with currentCount := count, mode := .run, buf := [] }

/-- HDR.RUN with its RUNVAL, the `H[0] == 0` branch of R91: fewer than `ceil(bitWidth/8)` bytes left raise
TruncatedStreamError before any is consumed (R94; D11). -/
def runRecord (n : BitVec 31) (s : State) : Res Unit :=
  let k := runValueBytes s.bitWidth.val
  if s.avail < k then .raised .truncatedStream s.takeHeader
  else
    (takeRunValue (s.window k).length (BitVec.ofNat 32 (leNat (s.window k)))
      (s.takeHeader.advance k)).bind fun _ s1 => .ok () (s1.enterRun (runCount n))

/-- HDR.RUN (R94). -/
def execHdrRun (n : BitVec 31) (s : State) : Host.Outcome State Fault Refusal := (runRecord n s).settle

/-- The bytes a PACKED record needs: `bitWidth * numGroups`, exact (R63 item 4). -/
def requiredBytes (g : BitVec 31) (s : State) : Nat := s.bitWidth.val * g.toNat

/-- `P`: the bytes there are, clamped once for the whole payload, and zeros for those that are missing (R91,
R96). -/
def paddedPayload (g : BitVec 31) (s : State) : List Byte :=
  s.window (min (requiredBytes g s) s.avail) ++
    List.replicate (requiredBytes g s - min (requiredBytes g s) s.avail) 0

/-- The filled buffer replaces `buf`, and the registers of a packed record are written (R91, R95). -/
def State.enterPacked (count : Word) (s : State) : State :=
  { s with buf := s.fill, fill := [], currentCount := count, mode := .packed }

/-- HDR.PACKED, the `else` branch of R91: more groups than the buffer holds raise CapacityFault before any
payload byte is read (R95, R146); a short payload is zero-filled and no fault (R96). -/
def packedRecord (g : BitVec 31) (s : State) : Res Unit :=
  if s.params.bufCapGroups < g.toNat then .raised .capacity s.takeHeader
  else
    (unpackGroups s.bitWidth.val g.toNat (paddedPayload g s)
      { s.takeHeader.advance (min (requiredBytes g s) s.avail) with fill := [] }).bind
      fun _ s1 => .ok () (s1.enterPacked (packedCount g))

/-- HDR.PACKED (R95). -/
def execHdrPacked (g : BitVec 31) (s : State) : Host.Outcome State Fault Refusal :=
  (packedRecord g s).settle

/-- HDR.BRUN, the SingleBit branch of R91: a run of the header's low bit, no payload (R98). -/
def brunRecord (n : BitVec 31) (b : BitVec 1) (s : State) : Res Unit :=
  .ok () ({ s.takeHeader with currentValue := bitValue b }.enterRun (runCount n))

/-- HDR.BRUN (R98). -/
def execHdrBrun (n : BitVec 31) (b : BitVec 1) (s : State) : Host.Outcome State Fault Refusal :=
  (brunRecord n b s).settle

/-- Exactly one record decoder takes the header (R93). -/
def headerRecord (h : HeaderForm) (s : State) : Res Unit :=
  match h with
  | .run n => runRecord n s
  | .packed g => packedRecord g s
  | .brun n b => brunRecord n b s

/-- `Decode()` (R91): step 1, constant-only (R90); step 2, clean end of stream (R92); step 3, one header by
the Varint Reader (R93), then its record. The answer is whether a record was decoded. -/
def decodeRecord (s : State) : Res Bool :=
  if s.constOnly then .ok false s
  else if s.avail = 0 then .ok false { s with currentCount := 0 }
  else
    (readVarint s).bind fun h s1 =>
      (headerRecord (decodeHeader s1.kind h) s1).bind fun _ s2 => .ok true s2

end Sys2Proof.Machine
end

