-- ==== Sys2Proof/Machine/Commands.lean ====
section
/-! DEFINITION. The host commands: INIT, READNEXT and SKIP of the Typed Value Reader
(spec/43_typed_reader.md), DECODE (spec/42_run_state_machine.md R99), RETAINED (spec/44_sizing.md R130) and
the reserved opcodes (spec/30_encoding.md R61). -/

namespace Sys2Proof.Machine

/-! ## INIT -/

/-- Step 3 of INIT: the new instance, over a state whose old instance has been dropped (R111). -/
def State.buildInstance (kind : Kind) (fixed : Bool) (bw : BitVec 6) (value count : Word)
    (stream : List Byte) (s : State) : State :=
  let s1 := { s with kind := kind, bitWidth := Fin.ofNat 33 bw.toNat }
  if fixed ∨ bw = 0 then { s1 with constOnly := true, currentValue := value, currentCount := count }
  else { s1 with constOnly := false, input := stream }

/-- INIT (R111): drop the old instance, validate the width, build the new one. -/
def execInit (kind : Kind) (fixed : Bool) (bw : BitVec 6) (value count : Word) (stream : List Byte)
    (s : State) : Host.Outcome State Fault Refusal :=
  if 32 < bw.toNat then .next (s.dropInstance.raiseFault .argument)
  else .next ((s.dropInstance.buildInstance kind fixed bw value count stream).respond .ok)

/-! ## DECODE -/

/-- DECODE (R99). It does not look at `currentCount` first, so pending values are lost (R180). -/
def execDecode (s : State) : Host.Outcome State Fault Refusal :=
  whenNoFault s fun s =>
    match decodeRecord s with
    | .ok more s1 => .next (s1.respond (.decoded more s1.currentCount))
    | .raised f s1 => .next (s1.raiseFault f)
    | .refused x => .refused x

/-! ## READNEXT and SKIP -/

/-- `Resolve(c)`: a miss raises DictionaryMissFault (R115, R145). -/
def resolve (c : Word) (s : State) : Res Nat :=
  match dictResolve s.params.dict c with
  | some v => .ok v s
  | none => .raised .dictionaryMiss s

/-- `n` identical writes in ascending order (R116). -/
def writeRun (v : Nat) : Nat → Nat → State → State
  | 0, _, s => s
  | n + 1, i, s => writeRun v n (i + 1) (s.outWrite i v)

/-- One lookup and one write per slot, in ascending order (R117). -/
def copySlots : List Word → Nat → State → Res Unit
  | [], _, s => .ok () s
  | c :: cs, i, s => (resolve c s).bind fun v s1 => copySlots cs (i + 1) (s1.outWrite i v)

/-- The copy of one iteration of READNEXT: in RUN mode one lookup, made also for `n = 0`, and `n` writes
(R116); in PACKED mode `n` slots (R117). -/
def copyOut (n i : Nat) (s : State) : Res Unit :=
  match s.mode with
  | .run => (resolve s.currentValue s).bind fun v s1 => .ok () (writeRun v n i s1)
  | .packed => copySlots (s.nextSlots n) i s

/-- SKIP's iteration touches neither the dictionary nor the output space (R113). -/
def copyNothing (_n _i : Nat) (s : State) : Res Unit := .ok () s

/-- The first half of an iteration: with no value left, one record is decoded; false ends the loop (R112). -/
def refill (s : State) : Res Bool := if s.currentCount = 0 then decodeRecord s else .ok true s

/-- `currentCount <- currentCount - n` (R112). -/
def State.consume (n : Nat) (s : State) : State :=
  { s with currentCount := s.currentCount - BitVec.ofNat 32 n }

/-- The loop READNEXT and SKIP share (R112, R113), with `copy` what an iteration does with its values; it
answers how many values are still wanted. The first argument bounds the iterations: `loopBound` always
suffices (R114 item 3; Sys2Proof/Laws/Loop.lean). -/
def consumeLoop (copy : Nat → Nat → State → Res Unit) : Nat → Nat → Nat → State → Res Nat
  | 0, remaining, _, s => .ok remaining s
  | bound + 1, remaining, outIdx, s =>
    if remaining = 0 then .ok 0 s
    else
      (refill s).bind fun more s1 =>
        if more then
          (copy (takeNow remaining s1) outIdx s1).bind fun _ s2 =>
            consumeLoop copy bound (remaining - takeNow remaining s1) (outIdx + takeNow remaining s1)
              (s2.consume (takeNow remaining s1))
        else .ok remaining s1

/-- Every iteration but the first decodes a record, which consumes a byte, and the last finds nothing to do
(R114 item 3). -/
def loopBound (s : State) : Nat := s.avail + 2

/-- The end of both commands: values still wanted are StreamUnderrunError (R112, R141). -/
def answerLoop (r : Res Nat) : Host.Outcome State Fault Refusal :=
  match r with
  | .ok remaining s => if remaining = 0 then .next (s.respond .ok) else .next (s.raiseFault .streamUnderrun)
  | .raised f s => .next (s.raiseFault f)
  | .refused x => .refused x

/-- READNEXT (R112). -/
def execReadnext (offset length : Word) (s : State) : Host.Outcome State Fault Refusal :=
  whenNoFault s fun s =>
    if readnextArgumentsOk s.params offset length then
      answerLoop (consumeLoop copyOut (loopBound s) (countOperand length) (countOperand offset) s)
    else .next (s.raiseFault .argument)

/-- SKIP (R113). -/
def execSkip (length : Word) (s : State) : Host.Outcome State Fault Refusal :=
  whenNoFault s fun s =>
    if skipArgumentOk length then
      answerLoop (consumeLoop copyNothing (loopBound s) (countOperand length) 0 s)
    else .next (s.raiseFault .argument)

/-! ## RETAINED and the reserved opcodes -/

/-- `INSTANCE_OVERHEAD + 4 * bufLen + DICT_RETAINED` (R130). -/
def retainedBytes (s : State) : BitVec 64 :=
  s.params.instanceOverhead + BitVec.ofNat 64 (4 * s.bufLen) + s.params.dictRetained

/-- RETAINED (R130): it does not test `fault` and writes no state. -/
def execRetained (s : State) : Host.Outcome State Fault Refusal :=
  .next (s.respond (.bytes (retainedBytes s)))

/-- A reserved opcode, 5, 6 or 7: ArgumentError, unless a fault is stored already (R61, R144 item 5). -/
def execReserved (s : State) : Host.Outcome State Fault Refusal :=
  whenNoFault s fun s => .next (s.raiseFault .argument)

end Sys2Proof.Machine
end

