-- ==== Sys2Proof/Machine/Dispatch.lean ====
section
/-! DEFINITION. One arm per constructor of `Instr`: each calls its meaning. -/

namespace Sys2Proof.Machine

def exec (i : Instr) (s : State) : Host.Outcome State Fault Refusal :=
  match i with
  -- the stream (spec/40_varint.md, spec/42_run_state_machine.md, spec/41_unpack.md)
  | .varintCont p => Sys2Proof.Machine.execVarintCont p s
  | .varintLast p => Sys2Proof.Machine.execVarintLast p s
  | .hdrRun n => Sys2Proof.Machine.execHdrRun n s
  | .hdrPacked g => Sys2Proof.Machine.execHdrPacked g s
  | .hdrBrun n b => Sys2Proof.Machine.execHdrBrun n b s
  | .runval k value => Sys2Proof.Machine.execRunval k value s
  | .unpack8 w group => Sys2Proof.Machine.execUnpack8 w group s
  -- the command port (spec/43_typed_reader.md, spec/44_sizing.md)
  | .init kind fixed bw value count stream => Sys2Proof.Machine.execInit kind fixed bw value count stream s
  | .decode => Sys2Proof.Machine.execDecode s
  | .readnext offset length => Sys2Proof.Machine.execReadnext offset length s
  | .skip length => Sys2Proof.Machine.execSkip length s
  | .retained => Sys2Proof.Machine.execRetained s

end Sys2Proof.Machine
end

