-- ==== Sys2Proof/Machine/HostSide.lean ====
section
/-! DEFINITION. What the outside does to the block besides offering commands: reset
(spec/70_reset_and_hazards.md R170), writing its own output space and supplying a dictionary (R187). -/

namespace Sys2Proof.Machine

/-- The words of `new` below an index and those of `old` from it on. -/
def OutMem.splice (cut : Nat) (new old : OutMem) : OutMem :=
  new.filter (fun e => e.1 < cut) ++ old.filter (fun e => cut ≤ e.1)

/-- The output space when a command is abandoned after so many output writes: words are written in
ascending order from `offset`, each once (R41, D26), so those below `offset + written` are the command's and
the others are as before. Only READNEXT writes any (notes/assumptions/6.md). -/
def abandonedOut (c : CmdPort) (written : Nat) (s : State) : OutMem :=
  match decodeCommand c with
  | .error _ => s.out
  | .ok i =>
    match exec i s with
    | .next s1 => OutMem.splice (countOperand c.offset + written) s1.out s.out
    | .fault _ => s.out
    | .refused _ => s.out

/-- `rst` (R170): every state element takes its reset value, `OUT` keeps what it holds, and a command in
flight is abandoned without a response. -/
def hostReset (inFlight : Option (CmdPort × Nat)) (s : State) : State :=
  match inFlight with
  | none => { s.dropInstance with rsp := none }
  | some (c, written) => { s.dropInstance with rsp := none, out := abandonedOut c written s }

/-- The host writes word `index` of the output space between commands (R187); the word has `DOMAIN_WIDTH`
bits, and there is no word at or beyond `OUT_SIZE` (R38; notes/assumptions/7.md). -/
def hostWriteOut (index value : Nat) (s : State) : Host.Outcome State Fault Refusal :=
  if index < s.params.outSize then .next (s.outWrite index (value % 2 ^ s.params.domainWidth))
  else .fault .noSuchOutWord

/-- The parameters with another dictionary. -/
def Params.withDict (dict : Dict) (retained : BitVec 64) (p : Params) : Params :=
  { p with dict := dict, dictRetained := retained }

/-- Whether no command of the present instance runs any more: the next thing the outside does is a reset with
no command in flight, or a command whose opcode is INIT's. A command that reset interrupts still belongs to the
present instance and looks up in its dictionary (R170, R177). -/
def endsInstance : List HostInput → Bool
  | .reset none :: _ => true
  | .reset (some _) :: _ => false
  | .command c :: _ => decide (c.op = 0)
  | .writeOut _ _ :: _ => false
  | .attachDictionary _ _ :: _ => false
  | [] => false

/-- The environment supplies a dictionary where one instance ends and the next begins (R6); inside the life
of an instance it must not (R177), and a state where it does is outside the model (U9;
notes/assumptions/8.md). -/
def hostAttachDictionary (dict : Dict) (retained : BitVec 64) (s : State) :
    Host.Outcome State Fault Refusal :=
  if endsInstance s.pending ∧ Params.Wf (Params.withDict dict retained s.params) then
    .next { s with params := Params.withDict dict retained s.params }
  else .refused .dictionaryChange

/-- A command offered at the port: what it decodes to is run, and a reserved opcode is answered (R61;
notes/assumptions/12.md). -/
def hostCommand (c : CmdPort) (s : State) : Host.Outcome State Fault Refusal :=
  match decodeCommand c with
  | .ok i => exec i s
  | .error _ => execReserved s

end Sys2Proof.Machine
end

