-- ==== Sys2Proof/Machine/Step.lean ====
section
/-! DEFINITION. One step: the next interaction of the outside with the block (spec/70_reset_and_hazards.md
R187), a command being one indivisible step (spec/20_memory.md R46); and where a word of the opcode table is
placed so that the next step runs it. -/

namespace Sys2Proof.Machine

/-- One step. With nothing offered the block is idle and keeps all its state (R159). -/
def step (s : State) : Host.Outcome State Fault Refusal :=
  match s.pending with
  | [] => .next s
  | .command c :: rest => hostCommand c { s with pending := rest }
  | .reset inFlight :: rest => .next (hostReset inFlight { s with pending := rest })
  | .writeOut index value :: rest => hostWriteOut index value { s with pending := rest }
  | .attachDictionary dict retained :: rest => hostAttachDictionary dict retained { s with pending := rest }

/-- A command first in line at the port. -/
def State.offer (c : CmdPort) (s : State) : State := { s with pending := .command c :: s.pending }

/-- A stream instance at the first byte of a stream, with DECODE offered: the next step decodes the stream's
first record. A stream operation is fetched only there (R41, "nothing is prefetched"). -/
def State.offerStream (kind : Kind) (bitWidth : Fin 33) (stream : List Byte) (s : State) : State :=
  { s with
    kind := kind, bitWidth := bitWidth, constOnly := false, fault := .none, pos := 0, input := stream,
    pending := .command (CmdPort.bare 1) :: s.pending }

/-- The bytes behind a word of the opcode table: up to the longest operation, all 0. -/
def zeroTail : List Byte := List.replicate 32 0

/-- The state whose next step runs what the opcode table's word is fetched as (`tableFetched`). A command
is offered at the port. A header byte, a header, a RUN value or a group is placed where `Decode()` reads it:
first in the stream; as the minimal varint of the header; behind the header of a run of one value; behind the
header of one group, with the width that has its length (notes/assumptions/9.md). -/
def State.withFetchWord (s : State) (nbits w : Nat) : State :=
  match tableFetched nbits w with
  | none => s
  | some (.cmd c) => s.offer c
  | some (.vbyte b) => s.offerStream .generic 8 (b :: zeroTail)
  | some (.hdr kind h) => s.offerStream kind 8 (varintBytes h ++ zeroTail)
  | some (.runval bytes) => s.offerStream .generic (Fin.ofNat 33 (8 * bytes.length)) (2 :: bytes ++ zeroTail)
  | some (.pgroup bytes) => s.offerStream .generic (Fin.ofNat 33 bytes.length) (3 :: bytes ++ zeroTail)

end Sys2Proof.Machine
end

