-- ==== Sys2Proof/Machine/Sequencer.lean ====
section
/-! DEFINITION. The sequential hardware view of `Decode()`: one byte a step, through the states `S_CHECK`,
`S_HDR`, `S_RUNVAL`, `S_PAYLOAD`, `S_DONE` (spec/42_run_state_machine.md R102) with the two-state varint reader
of spec/40_varint.md R75. No command uses it: a command is one indivisible step and calls `decodeRecord`
(spec/20_memory.md R46, R102 "the model implements rule R91 as one function"; notes/assumptions/13.md). -/

namespace Sys2Proof.Machine

/-- The states of the sequencer, with what an implementation holds in them, and the three ways it ends.
`S_DONE` carries what it is about to write. -/
inductive SeqPhase where
  /-- `S_CHECK`: steps 1 and 2 of R91. -/
  | check
  /-- `S_HDR`: the varint reader takes a byte; `V_IDLE` and `V_ACCUM` are `shift = 0` and `shift > 0` (R75). -/
  | hdr
  /-- `S_RUNVAL`: bytes of the RUN value collected so far. -/
  | runval (n : BitVec 31) (got : List Byte)
  /-- `S_PAYLOAD`: groups still to fill, and the bytes of the current one collected so far. -/
  | payload (g : BitVec 31) (left : Nat) (got : List Byte)
  /-- `S_DONE` of a run. -/
  | doneRun (n : BitVec 31) (value : Word)
  /-- `S_DONE` of a packed record. -/
  | donePacked (g : BitVec 31)
  /-- `Decode()` has answered. -/
  | finished (more : Bool)
  /-- `Decode()` has raised a fault. -/
  | faulted (f : FaultCode)
  /-- `Unpack8` with a width it has no meaning for (R82). -/
  | stuck (r : Refusal)
deriving DecidableEq, Repr

/-- The sequencer: its phase and the block's state. -/
structure Seq where
  phase : SeqPhase
  state : State
deriving DecidableEq, Repr

/-- A header value leaves `S_HDR`: the checks that can still fault are made here, before any payload byte
is taken (R94, R95). -/
def seqDispatch (h : HeaderForm) (s : State) : Seq :=
  match h with
  | .run n =>
    if s.avail < runValueBytes s.bitWidth.val then ⟨.faulted .truncatedStream, s.takeHeader⟩
    else ⟨.runval n [], s.takeHeader⟩
  | .packed g =>
    if s.params.bufCapGroups < g.toNat then ⟨.faulted .capacity, s.takeHeader⟩
    else ⟨.payload g g.toNat [], { s.takeHeader with fill := [] }⟩
  | .brun n b => ⟨.doneRun n (bitValue b), s.takeHeader⟩

/-- One step in `S_HDR` (R75): no byte is TruncatedStreamError and the reader goes to `V_IDLE`, a byte with
bit 7 set is accumulated, one without ends the header. -/
def seqHeaderStep (s : State) : Seq :=
  match s.input[s.pos]? with
  | none => ⟨.faulted .truncatedStream, s.idleReader⟩
  | some b =>
    match decodeVByte b with
    | .cont p => ⟨.hdr, continueVarint p (s.advance 1)⟩
    | .last p =>
      seqDispatch (decodeHeader s.kind (accumulated p (s.advance 1))) (emitVarint p (s.advance 1))

/-- One step in `S_PAYLOAD` (R102): with the group complete `Unpack8` fires; else a byte is taken, or zero
once the cursor is empty. -/
def seqPayloadStep (g : BitVec 31) (left : Nat) (got : List Byte) (s : State) : Seq :=
  if got.length = s.bitWidth.val then
    match unpackGroup s.bitWidth.val got s with
    | .ok _ s1 => ⟨.payload g (left - 1) [], s1⟩
    | .raised f s1 => ⟨.faulted f, s1⟩
    | .refused r => ⟨.stuck r, s⟩
  else
    match s.input[s.pos]? with
    | some b => ⟨.payload g left (got ++ [b]), s.advance 1⟩
    | none => ⟨.payload g left (got ++ [0]), s⟩

/-- One step of the sequencer; it rests where it has ended. DESIGN CHOICE (notes/assumptions/13.md): at the clean
end of the stream `currentCount` is cleared in `S_CHECK`, where R102 puts step 2 with that effect (R92), although
R102 also has that register written in `S_DONE` only; steps 1 and 2 never come to `S_DONE`. -/
def seqStep (q : Seq) : Seq :=
  match q.phase with
  | .check =>
    if q.state.constOnly then ⟨.finished false, q.state⟩
    else if q.state.avail = 0 then ⟨.finished false, { q.state with currentCount := 0 }⟩
    else ⟨.hdr, q.state.idleReader⟩
  | .hdr => seqHeaderStep q.state
  | .runval n got =>
    if got.length = runValueBytes q.state.bitWidth.val then
      ⟨.doneRun n (BitVec.ofNat 32 (leNat got)), q.state⟩
    else
      match q.state.input[q.state.pos]? with
      | some b => ⟨.runval n (got ++ [b]), q.state.advance 1⟩
      | none => ⟨.faulted .truncatedStream, q.state⟩
  | .payload g left got =>
    if left = 0 then ⟨.donePacked g, q.state⟩ else seqPayloadStep g left got q.state
  | .doneRun n value =>
    ⟨.finished true, { q.state with currentValue := value }.enterRun (runCount n)⟩
  | .donePacked g => ⟨.finished true, q.state.enterPacked (packedCount g)⟩
  | .finished _ => q
  | .faulted _ => q
  | .stuck _ => q

/-- So many steps of the sequencer. -/
def seqRun : Nat → Seq → Seq
  | 0, q => q
  | n + 1, q => seqRun n (seqStep q)

/-- How the sequencer ends when `Decode()` ends so; the state of a refusal is not compared. -/
def seqEnd (s : State) : Res Bool → Seq
  | .ok more s1 => ⟨.finished more, s1⟩
  | .raised f s1 => ⟨.faulted f, s1⟩
  | .refused r => ⟨.stuck r, s⟩

end Sys2Proof.Machine
end

