-- ==== Sys2Proof/Machine/System.lean ====
section
/-! DEFINITION. Several blocks side by side: the product of independent single-block models
(spec/20_memory.md R44, spec/60_exceptions.md R160, spec/70_reset_and_hazards.md R186;
notes/assumptions/14.md). -/

namespace Sys2Proof.Machine

/-- The states of several blocks; no block sees another's. -/
abbrev System := List State

/-- Block `k` makes one step; where there is no block `k`, nothing happens. -/
def systemStep (k : Nat) (sys : System) : Host.Outcome System Fault Refusal :=
  match sys[k]? with
  | none => .next sys
  | some s =>
    match step s with
    | .next s1 => .next (sys.set k s1)
    | .fault f => .fault f
    | .refused r => .refused r

/-- The blocks step in the order of a schedule, up to the first that stops. -/
def systemRun : List Nat → System → Host.Outcome System Fault Refusal
  | [], sys => .next sys
  | k :: ks, sys =>
    match systemStep k sys with
    | .next sys1 => systemRun ks sys1
    | .fault f => .fault f
    | .refused r => .refused r

end Sys2Proof.Machine
end

