-- ==== Sys2Proof/Safety.lean ====
section
/-! DEFINITION. The terms claims are made in: the invariant of spec/10_state.md R29 with what the model adds
to it, the end of a run (spec/70_reset_and_hazards.md R188), and the values an instance still holds. -/

namespace Sys2Proof.Machine

/-- The transient units are idle: between commands none of them holds anything (R10, R15, R23). -/
structure State.UnitsIdle (s : State) : Prop where
  acc : s.acc = 0
  shift : s.shift = 0
  header : s.header = none
  unpackAcc : s.unpackAcc = 0
  fill : s.fill = []

/-- The invariant. The first six fields are the items of R29 in its order; the last four are the model's:
the parameters keep R6's ranges, a stream instance has a width (R20), the output space is canonical and
inside R38's bounds, and the transient units are idle. -/
structure State.Inv (s : State) : Prop where
  packedBuf : s.mode = .packed →
    s.buf.length % 8 = 0 ∧ s.buf.length ≤ 8 * s.params.bufCapGroups ∧ s.currentCount.toNat ≤ s.buf.length
  runBuf : s.mode = .run → s.buf = []
  pos : s.pos ≤ s.input.length
  constOnly : s.constOnly = true → s.pos = 0 ∧ s.buf = [] ∧ s.mode = .run
  singleBit : s.kind = .singleBit →
    s.mode = .run ∧ s.buf = [] ∧ (s.constOnly = false → s.currentValue = 0 ∨ s.currentValue = 1)
  slots : ∀ v ∈ s.buf, v.toNat < 2 ^ s.bitWidth.val
  params : s.params.Wf
  width : s.constOnly = false → s.bitWidth ≠ 0
  out : s.out.wf = true ∧ ∀ e ∈ s.out, e.1 < s.params.outSize ∧ e.2 < 2 ^ s.params.domainWidth
  units : s.UnitsIdle

/-- Bits `[w(k+1)-1 : wk]` of the number `a`, as a 32-bit slot (R54, R80). -/
def fieldOf (w a k : Nat) : Word := BitVec.ofNat 32 (a / 2 ^ (w * k) % 2 ^ w)

/-- The first `n` fields of `w` bits of a byte string, taken from its little-endian integer (R54, R86). -/
def fieldsOf (w n : Nat) (bytes : List Byte) : List Word := (List.range n).map (fieldOf w (leNat bytes))

/-- The sum of the payloads `p_k * 2^(7k)` of header bytes, before it is truncated to 32 bits (R57). -/
def payloadSum : List Byte → Nat
  | [] => 0
  | b :: bs => b.toNat % 128 + 128 * payloadSum bs

/-- Instructions run one after another, up to the first that stops. -/
def execAll : List Instr → State → Host.Outcome State Fault Refusal
  | [], s => .next s
  | i :: is, s =>
    match exec i s with
    | .next t => execAll is t
    | .fault f => .fault f
    | .refused r => .refused r

/-- A complete varint: zero or more bytes with bit 7 set, then one with bit 7 clear (R70). -/
def IsVarint (bytes : List Byte) : Prop :=
  ∃ cs b, bytes = cs ++ [b] ∧ (∀ c ∈ cs, c.getLsbD 7 = true) ∧ b.getLsbD 7 = false

/-- The value of a complete varint, `(sum of p_k << 7k) mod 2^32` (R57). -/
def varintValue (bytes : List Byte) : Nat := payloadSum bytes % 2 ^ 32

/-- The `length` bytes of a payload, zeros standing for those the stream no longer has (R96). -/
def zeroFilled (length : Nat) (bytes : List Byte) : List Byte :=
  bytes.take length ++ List.replicate (length - bytes.length) 0

/-- The codes READNEXT looks up when it reads a whole record: a run's value once, also for a run of length
0 (R116), and every slot of a packed record (R117). -/
def recordLookups : Record → List Word
  | .run _ v => [v]
  | .packed _ vs => vs
  | .brun _ b => [b.setWidth 32]

/-- The codes of a stream's records in order. -/
def streamCodes (rs : List Record) : List Word := rs.flatMap Record.codes

/-- Nothing more can be decoded: the instance is constant-only or its cursor is empty (R90, R92). -/
def State.exhausted (s : State) : Prop := s.constOnly = true ∨ s.avail = 0

/-- A run has ended successfully: no fault, no value left, and a DECODE would answer `more = 0` (R188). -/
def State.runSucceeded (s : State) : Prop := s.fault = .none ∧ s.currentCount = 0 ∧ s.exhausted

/-- A run has ended in failure (R188). -/
def State.runFailed (s : State) : Prop := s.fault ≠ .none

/-- The codes of the current run or group that have not been consumed, in the order READNEXT takes them
(R13, R17). -/
def State.heldCodes (s : State) : List Word :=
  match s.mode with
  | .run => List.replicate s.currentCount.toNat s.currentValue
  | .packed => s.nextSlots s.currentCount.toNat

/-- The part of the state every command but INIT leaves alone (R28): the control registers, the stream, the
parameters and what the outside will do. -/
structure State.SameInstance (s t : State) : Prop where
  params : t.params = s.params
  kind : t.kind = s.kind
  bitWidth : t.bitWidth = s.bitWidth
  constOnly : t.constOnly = s.constOnly
  input : t.input = s.input
  pending : t.pending = s.pending

/-- The registers a fault inside `Decode()` leaves as they were (R150): the run-state. -/
structure State.SameRunState (s t : State) : Prop where
  currentValue : t.currentValue = s.currentValue
  currentCount : t.currentCount = s.currentCount
  mode : t.mode = s.mode
  buf : t.buf = s.buf

end Sys2Proof.Machine
end

