-- ==== Sys2Proof/Certificates/Slice0/Obligations.lean ====
section
/-! DEFINITION. What is claimed about the machine, in the order of the spec's files. Each docstring names the
rules of spec/ it comes from; "the spec's decision D<n>" is an entry of spec/92_eei_decisions.md that the rule
itself cites, and "log entry <n>" is a row of notes/assumptions/. -/

open Sys2Proof Sys2Proof.Machine

/-! ## Encodings (spec/30_encoding.md) -/

/-- R50 to R58: every well-formed instruction, with every operand, is read back from its encoding. -/
def Obligations.DecodeReadsBackEncode : Prop :=
  ∀ i : Instr, i.wellFormed = true → decode (encode i) = .ok i

/-- R50 to R58: whatever is read is well-formed, reads back, and in the four stream formats no bit of the
word is lost. -/
def Obligations.DecodedWordsReEncode : Prop :=
  ∀ (f : Fetched) (i : Instr), decode f = .ok i →
    i.wellFormed = true ∧ decode (encode i) = .ok i ∧ ((∀ c, f ≠ .cmd c) → encode i = f)

/-- R51, R52, R53, R54, R58: words written out from the formats, and what they stand for. -/
def Obligations.WrittenOutWordsDecode : Prop :=
  decode (.vbyte 0b10101100#8) = .ok (.varintCont 0x2C) ∧
    decode (.vbyte 0b00000010#8) = .ok (.varintLast 2) ∧
    decode (.hdr .generic 0b00000000000000000000000000001010#32) = .ok (.hdrRun 5) ∧
    decode (.hdr .generic 0b00000000000000000000000000000011#32) = .ok (.hdrPacked 1) ∧
    decode (.hdr .singleBit 0b00000000000000000000000000001011#32) = .ok (.hdrBrun 5 1) ∧
    decode (.runval [0xEF, 0xBE, 0xAD, 0xDE]) = .ok (.runval 4 0xDEADBEEF) ∧
    decode (.pgroup [0xB5, 0xCA, 0x07]) = .ok (.unpack8 3 [0xB5, 0xCA, 0x07]) ∧
    decode (.cmd { CmdPort.bare 3 with length := 0xFFFFFFFF }) = .ok (.skip 0xFFFFFFFF)

/-- R58: each command's opcode and the operand fields its row lists, whatever the other fields hold; the
response's two groups of wires, with the fault codes of R140. -/
def Obligations.CommandFormat : Prop :=
  (∀ c : CmdPort, c.op = 0 → c.kind = 0 → decodeCommand c =
      .ok (.init .generic (decide (c.fixed = 1)) c.bw c.value c.count c.cursor)) ∧
    (∀ c : CmdPort, c.op = 0 → c.kind = 1 → decodeCommand c =
      .ok (.init .singleBit (decide (c.fixed = 1)) c.bw c.value c.count c.cursor)) ∧
    (∀ c : CmdPort, c.op = 1 → decodeCommand c = .ok .decode) ∧
    (∀ c : CmdPort, c.op = 2 → decodeCommand c = .ok (.readnext c.offset c.length)) ∧
    (∀ c : CmdPort, c.op = 3 → decodeCommand c = .ok (.skip c.length)) ∧
    (∀ c : CmdPort, c.op = 4 → decodeCommand c = .ok .retained) ∧
    (∀ c : CmdPort, 5 ≤ c.op.toNat → decodeCommand c = .error (.reservedOpcode c.op)) ∧
    (Response.ok.faultBits = 0 ∧ Response.ok.data = 0) ∧
    (∀ n, (Response.bytes n).faultBits = 0 ∧ (Response.bytes n).data = n) ∧
    (∀ more count, (Response.decoded more count).faultBits = 0 ∧
      (Response.decoded more count).data.toNat = (if more then 2 ^ 32 else 0) + count.toNat) ∧
    (∀ f, (Response.fault f).data = 0) ∧
    (Response.fault .streamUnderrun).faultBits = 1 ∧ (Response.fault .decodeMode).faultBits = 2 ∧
    (Response.fault .argument).faultBits = 3 ∧ (Response.fault .truncatedStream).faultBits = 4 ∧
    (Response.fault .dictionaryMiss).faultBits = 5 ∧ (Response.fault .capacity).faultBits = 6

/-- R61, the spec's decision D2: a reserved opcode is answered with ArgumentError, or with the stored fault,
and nothing else changes; INIT with `bw` in 33..63 is answered with ArgumentError. (The queue the command is
taken from is the model's form: log entry 5.) -/
def Obligations.ReservedCommandIsArgumentError : Prop :=
  (∀ (s : State) (c : CmdPort) (rest : List HostInput), s.UnitsIdle → s.pending = .command c :: rest →
    5 ≤ c.op.toNat →
      (s.fault = .none → step s =
        .next { s with pending := rest, fault := .argument, rsp := some (.fault .argument) }) ∧
      (s.fault ≠ .none → step s = .next { s with pending := rest, rsp := some (.fault s.fault) })) ∧
    ∀ (s : State) (kind : Kind) (fixed : Bool) (bw : BitVec 6) (value count : Word) (stream : List Byte),
      32 < bw.toNat → ∃ t, exec (.init kind fixed bw value count stream) s = .next t ∧
        t.fault = .argument ∧ t.rsp = some (.fault .argument)

/-! ## One step -/

/-- R46, R58: a command offered at the port is decoded and run, in one step; nothing else happens around it.
(The queue it is taken from is the model's form: log entry 5.) -/
def Obligations.StepRunsTheDecodedCommand : Prop :=
  ∀ (s : State) (c : CmdPort) (rest : List HostInput) (i : Instr), s.pending = .command c :: rest →
    decodeCommand c = .ok i → step s = exec i { s with pending := rest }

/-- R159, R186: between commands the block has no step of its own: with nothing offered it keeps all its
state. (That the last response then stays in `rsp`, which the spec does not count as state, is the model's choice:
log entry 5.) -/
def Obligations.IdleBlockKeepsItsState : Prop := ∀ s : State, s.pending = [] → step s = .next s

/-- R91, R93: DECODE of a record runs what the stream's bytes decode to: each header byte in turn from a
cleared reader, then the header value they emit, read with the control register `kind`. (That these
operations are instructions that run by themselves, and that what they leave stands in registers of their own,
are the model's choices: log entries 11 and 4.) -/
def Obligations.DecodeRunsTheStreamOperations : Prop :=
  ∀ (s : State) (bytes rest : List Byte), s.fault = .none → s.constOnly = false → IsVarint bytes →
    s.input.drop s.pos = bytes ++ rest →
    ∃ u h i,
      execAll (bytes.map fun b => (decodeVByte b).toInstr)
        { s with acc := 0, shift := 0, pos := s.pos + bytes.length } = .next u ∧
      u.header = some h ∧ decode (.hdr s.kind h) = .ok i ∧
      (∀ t, exec i u = .next t → t.fault = .none →
        exec .decode s = .next (t.respond (.decoded true t.currentCount))) ∧
      (∀ t, exec i u = .next t → t.fault ≠ .none → exec .decode s = .next t) ∧
      ∀ r, exec i u = .refused r → exec .decode s = .refused r

/-- R94, R95: HDR.RUN runs the RUNVAL that its payload bytes decode to, and HDR.PACKED runs one UNPACK8 for
each `bitWidth` bytes of its zero-filled payload. (That each of them runs by itself, whatever `constOnly`, `kind`
and `fault` hold, is the model's choice: log entry 11.) -/
def Obligations.HeadersRunTheirPayloads : Prop :=
  (∀ (n : BitVec 31) (s : State), s.bitWidth ≠ 0 → (s.bitWidth.val + 7) / 8 ≤ s.avail →
    ∃ i u, decode (.runval ((s.input.drop s.pos).take ((s.bitWidth.val + 7) / 8))) = .ok i ∧
      exec i s = .next u ∧
      exec (.hdrRun n) s = .next { u with
        header := none, pos := s.pos + (s.bitWidth.val + 7) / 8, currentCount := n.setWidth 32, mode := .run,
        buf := [] }) ∧
    ∀ (g : BitVec 31) (s : State), s.bitWidth ≠ 0 → g.toNat ≤ s.params.bufCapGroups →
      ∃ u, execAll ((List.range g.toNat).map fun j => .unpack8 s.bitWidth.val
          (((zeroFilled (s.bitWidth.val * g.toNat) (s.input.drop s.pos)).drop (j * s.bitWidth.val)).take
            s.bitWidth.val)) { s with fill := [] } = .next u ∧
        exec (.hdrPacked g) s = .next { u with
          header := none, pos := s.pos + min (s.bitWidth.val * g.toNat) s.avail,
          currentCount := BitVec.ofNat 32 (8 * g.toNat), mode := .packed, buf := u.fill, fill := [] }

/-! ## Varint Reader (spec/40_varint.md) -/

/-- R71: a byte with the continuation bit accumulates its payload and advances `shift`, and the reader stays in
the loop: it goes on with the next byte, and without one it raises TruncatedStreamError, what is accumulated
being discarded (R74, R75). (That it runs by itself in every state, also with a fault stored, and answers
nothing, is the model's choice: log entry 11; that `acc` and `shift` are registers of the state: log entry 4.)
-/
def Obligations.VarintContAccumulates : Prop :=
  (∀ (p : BitVec 7) (s : State), exec (.varintCont p) s =
    .next { s with acc := BitVec.ofNat 32 (s.acc.toNat ||| p.toNat <<< s.shift), shift := s.shift + 7 }) ∧
    ∀ (p : BitVec 7) (s t : State) (left : Nat), s.input[s.pos]? = some (1#1 ++ p) →
      exec (.varintCont p) (s.advance 1) = .next t →
        readVarintFrom (left + 1) s = readVarintFrom left t ∧
        (t.avail = 0 → readVarintFrom left t = .raised .truncatedStream { t with acc := 0, shift := 0 })

/-- R72: a byte without the continuation bit completes the value, which is emitted; `acc` and `shift` are then
cleared (R75). (That it runs by itself in every state, also with a fault stored, and answers nothing, is the
model's choice: log entry 11; that the emitted value is held in a register `header`: log entry 4.) -/
def Obligations.VarintLastEmitsTheValue : Prop :=
  (∀ (p : BitVec 7) (s : State), exec (.varintLast p) s =
    .next { s with
      header := some (BitVec.ofNat 32 (s.acc.toNat ||| p.toNat <<< s.shift)), acc := 0, shift := 0 }) ∧
    (∀ (p : BitVec 7) (s t : State) (left : Nat), s.input[s.pos]? = some (0#1 ++ p) →
      exec (.varintLast p) (s.advance 1) = .next t →
        readVarintFrom (left + 1) s = .ok (BitVec.ofNat 32 (s.acc.toNat ||| p.toNat <<< s.shift)) t) ∧
    ∀ (p : BitVec 7) (s t : State), s.acc = 0 → s.shift = 0 → exec (.varintLast p) s = .next t →
      t.header = some (p.setWidth 32)

/-- R70, R57, R73: a complete varint of any length gives the sum of its payloads, the k-th at bit `7k`,
truncated to 32 bits, and exactly its bytes are consumed. That bytes after the fifth contribute nothing is the
spec's own choice (D10). (That the value is also held in a register `header` is the model's: log entry 4.) -/
def Obligations.VarintReadsThePayloadSum : Prop :=
  ∀ (s : State) (bytes rest : List Byte), IsVarint bytes → s.input.drop s.pos = bytes ++ rest →
    readVarint s = .ok (BitVec.ofNat 32 (varintValue bytes)) { s with
      pos := s.pos + bytes.length, acc := 0, shift := 0,
      header := some (BitVec.ofNat 32 (varintValue bytes)) }

/-- R74: the cursor exhausted inside a header is TruncatedStreamError; the bytes stay consumed, the partial
value is discarded and the run-state is as before; the reader entered with an empty cursor raises the same
fault (the spec's decision D29), with `shift` cleared too (R75). (That these are registers of the state is the
model's form: log entry 4.) -/
def Obligations.HeaderCutShortFaults : Prop :=
  (∀ s : State, s.UnitsIdle → s.fault = .none → s.constOnly = false → s.avail ≠ 0 →
    (∀ c ∈ s.input.drop s.pos, c.getLsbD 7 = true) →
      exec .decode s = .next { s with
        pos := s.input.length, fault := .truncatedStream, rsp := some (.fault .truncatedStream) }) ∧
    ∀ s : State, s.avail = 0 → readVarint s = .raised .truncatedStream { s with acc := 0, shift := 0 }

/-- R76 items 2 and 3, R62: the minimal encoding of any 32-bit value is a complete varint of as many bytes as
the value needs, and it is read back, leaving `pos` just before what follows. -/
def Obligations.MinimalVarintReadsBack : Prop :=
  ∀ x : Word,
    (∀ (s : State) (rest : List Byte), s.input.drop s.pos = varintBytes x ++ rest →
      ∃ t, readVarint s = .ok x t ∧ t.input.drop t.pos = rest ∧
        t.pos = s.pos + (varintBytes x).length) ∧
    ∀ n, 1 ≤ n → n ≤ 5 → ((varintBytes x).length ≤ n ↔ x.toNat < 2 ^ (7 * n))

/-! ## Bit-Unpacker (spec/41_unpack.md) -/

/-- R80: the group's bytes are one little-endian number, and its 8 consecutive `w`-bit fields, least
significant first, go to the next 8 slots of the buffer being filled. (R80 has `w = bitWidth`; that run by itself
it does the same under another `bitWidth`, on a constant-only instance and with a fault stored, is the model's
choice: log entry 11; that its output is the end of the buffer being filled, with no `outputOffset` and no bound: log entry 11 too;
that this buffer and its accumulator are registers of the state: log entry 4.) -/
def Obligations.Unpack8ExtractsEightFields : Prop :=
  ∀ (w : Nat) (group : List Byte) (s : State), 1 ≤ w → w ≤ 32 → group.length = w →
    exec (.unpack8 w group) s = .next { s with
      fill := s.fill ++ (List.range 8).map fun i => BitVec.ofNat 32 (leNat group / 2 ^ (w * i) % 2 ^ w),
      unpackAcc := 0 }

/-- R82: `Unpack8` with a width outside [1, 32] is given no meaning; and an instance of width 0 never comes
there: its DECODE reads no record. (That a group of another number of bytes than the width is refused in the
same way is the model's choice: log entry 11.) -/
def Obligations.Unpack8HasNoOtherWidths : Prop :=
  (∀ (w : Nat) (group : List Byte) (s : State), w = 0 ∨ 32 < w ∨ group.length ≠ w →
    exec (.unpack8 w group) s = .refused .unpackWidth) ∧
    ∀ (s : State) (kind : Kind) (fixed : Bool) (value count : Word) (stream : List Byte),
      ∃ t u, exec (.init kind fixed 0 value count stream) s = .next t ∧ exec .decode t = .next u ∧
        u.rsp = some (.decoded false count) ∧ u.pos = 0

/-- R85: every output value is within [0, 2^bitWidth - 1], where `w` is `bitWidth`. (That run by itself it takes
any other `w` too, and appends its 8 slots whatever the buffer being filled holds, is the model's choice: log
entry 11.) -/
def Obligations.Unpack8ValuesAreInRange : Prop :=
  ∀ (w : Nat) (group : List Byte) (s t : State), exec (.unpack8 w group) s = .next t →
    t.fill.length = s.fill.length + 8 ∧ ∀ v ∈ t.fill.drop s.fill.length, v.toNat ≤ 2 ^ w - 1

/-- R87: for every width in [1, 32] and every number of groups the buffer holds, packing values into the
wire format and decoding reproduces them exactly. -/
def Obligations.PackThenDecodeReproduces : Prop :=
  ∀ (s : State) (g : BitVec 31) (vs : List Word) (rest : List Byte), s.Inv → s.fault = .none →
    s.constOnly = false → s.kind = .generic → g.toNat ≤ s.params.bufCapGroups →
    vs.length = 8 * g.toNat → (∀ v ∈ vs, v.toNat < 2 ^ s.bitWidth.val) →
    s.input.drop s.pos = (Record.packed g vs).assemble s.bitWidth.val ++ rest →
    ∃ t, exec .decode s = .next t ∧ t.fault = .none ∧ t.mode = .packed ∧ t.buf = vs ∧
      t.currentCount.toNat = vs.length ∧ t.input.drop t.pos = rest

/-! ## Run State Machine (spec/42_run_state_machine.md) -/

/-- R94: HDR.RUN, with its payload there and with too few bytes left (the spec's decision D11): the value is
the payload's little-endian integer, not masked to `bitWidth`, and a short payload changes no register but
`fault`. (Run by itself it looks at neither `kind` nor `constOnly`, and its fault replaces a stored one: the
model's choices, log entry 11.) -/
def Obligations.HdrRunReadsOneValue : Prop :=
  ∀ (n : BitVec 31) (s : State), s.bitWidth ≠ 0 →
    ((s.bitWidth.val + 7) / 8 ≤ s.avail → exec (.hdrRun n) s = .next { s with
      header := none, pos := s.pos + (s.bitWidth.val + 7) / 8,
      currentValue := BitVec.ofNat 32 (leNat ((s.input.drop s.pos).take ((s.bitWidth.val + 7) / 8))),
      currentCount := BitVec.ofNat 32 n.toNat, mode := .run, buf := [] }) ∧
    (s.avail < (s.bitWidth.val + 7) / 8 → exec (.hdrRun n) s = .next { s with
      header := none, acc := 0, shift := 0, unpackAcc := 0, fill := [],
      fault := .truncatedStream, rsp := some (.fault .truncatedStream) })

/-- R53, R94: RUNVAL writes the value whole. (R94 lists `pos`, `currentCount`, `mode` and `buf` as written with
the record; that RUNVAL run by itself writes `currentValue` alone is deduced, and that it runs whatever `kind`,
`constOnly`, `fault` and `bitWidth` hold is the model's choice: log entry 11.) -/
def Obligations.RunvalWritesCurrentValue : Prop :=
  ∀ (k : Nat) (value : Word) (s : State), 1 ≤ k → k ≤ 4 → value.toNat < 2 ^ (8 * k) →
    exec (.runval k value) s = .next { s with currentValue := value }

/-- R95, R86, R96: HDR.PACKED fills a fresh buffer with `8 g` fields of the payload taken as one
little-endian number, missing bytes being zeros, and leaves `currentValue` alone; with more groups than the
buffer holds (the spec's decision D12) it takes no payload byte and changes no register but `fault`. (Run
by itself it looks at neither `kind` nor `constOnly`, and its fault replaces a stored one: the model's choices,
log entry 11.) -/
def Obligations.HdrPackedFillsTheBuffer : Prop :=
  ∀ (g : BitVec 31) (s : State), s.bitWidth ≠ 0 → s.unpackAcc = 0 →
    (g.toNat ≤ s.params.bufCapGroups → exec (.hdrPacked g) s = .next { s with
      header := none, fill := [], pos := s.pos + min (s.bitWidth.val * g.toNat) s.avail,
      buf := (List.range (8 * g.toNat)).map fun k => BitVec.ofNat 32
        (leNat ((s.input.drop s.pos).take (s.bitWidth.val * g.toNat)) / 2 ^ (s.bitWidth.val * k) %
          2 ^ s.bitWidth.val),
      currentCount := BitVec.ofNat 32 (8 * g.toNat), mode := .packed }) ∧
    (s.params.bufCapGroups < g.toNat → exec (.hdrPacked g) s = .next { s with
      header := none, acc := 0, shift := 0, fill := [],
      fault := .capacity, rsp := some (.fault .capacity) })

/-- R98: HDR.BRUN is a run of the header's low bit and reads no payload, whatever `bitWidth` holds. (R52 and
R98 give it for `kind = SingleBit`; that by itself it runs whatever `kind`, `constOnly` and `fault` hold is
the model's choice: log entry 11.) -/
def Obligations.HdrBrunIsARunOfTheBit : Prop :=
  ∀ (n : BitVec 31) (b : BitVec 1) (s : State), exec (.hdrBrun n b) s = .next { s with
    header := none, currentValue := BitVec.ofNat 32 b.toNat, currentCount := BitVec.ofNat 32 n.toNat,
    mode := .run, buf := [] }

/-- R90: a constant-only instance answers false at once; `currentCount` is not cleared and the cursor is not
touched. -/
def Obligations.DecodeConstantOnly : Prop :=
  ∀ s : State, s.fault = .none → s.constOnly = true →
    exec .decode s = .next { s with rsp := some (.decoded false s.currentCount) }

/-- R92: at the clean end of the stream `currentCount` becomes 0, also while values are pending, the answer
is false, and every other register, the packed buffer among them, keeps its value (the spec's decision
D28). -/
def Obligations.DecodeCleanEndOfStream : Prop :=
  ∀ s : State, s.fault = .none → s.constOnly = false → s.avail = 0 →
    exec .decode s = .next { s with currentCount := 0, rsp := some (.decoded false 0) }

/-- R94, R99: DECODE of a RUN record with any header bytes, complete or with its payload cut short. -/
def Obligations.DecodeRunRecord : Prop :=
  ∀ (s : State) (bytes rest : List Byte), s.Inv → s.fault = .none → s.constOnly = false →
    s.kind = .generic → IsVarint bytes → s.input.drop s.pos = bytes ++ rest →
    varintValue bytes % 2 = 0 →
    ((s.bitWidth.val + 7) / 8 ≤ rest.length → exec .decode s = .next { s with
      pos := s.pos + bytes.length + (s.bitWidth.val + 7) / 8,
      currentValue := BitVec.ofNat 32 (leNat (rest.take ((s.bitWidth.val + 7) / 8))),
      currentCount := BitVec.ofNat 32 (varintValue bytes / 2), mode := .run, buf := [],
      rsp := some (.decoded true (BitVec.ofNat 32 (varintValue bytes / 2))) }) ∧
    (rest.length < (s.bitWidth.val + 7) / 8 → exec .decode s = .next { s with
      pos := s.pos + bytes.length, fault := .truncatedStream,
      rsp := some (.fault .truncatedStream) })

/-- R95, R96, R99: DECODE of a PACKED record with any header bytes: byte `j` of the payload that the stream no
longer has is zero, `currentCount` is `8 g` all the same and the cursor is then empty; or more groups than the
buffer holds. -/
def Obligations.DecodePackedRecord : Prop :=
  ∀ (s : State) (bytes rest : List Byte), s.Inv → s.fault = .none → s.constOnly = false →
    s.kind = .generic → IsVarint bytes → s.input.drop s.pos = bytes ++ rest →
    varintValue bytes % 2 = 1 →
    (varintValue bytes / 2 ≤ s.params.bufCapGroups → exec .decode s = .next { s with
      pos := s.pos + bytes.length + min (s.bitWidth.val * (varintValue bytes / 2)) rest.length,
      buf := (List.range (8 * (varintValue bytes / 2))).map fun k => BitVec.ofNat 32
        (leNat (zeroFilled (s.bitWidth.val * (varintValue bytes / 2)) rest) / 2 ^ (s.bitWidth.val * k) %
          2 ^ s.bitWidth.val),
      currentCount := BitVec.ofNat 32 (8 * (varintValue bytes / 2)), mode := .packed,
      rsp := some (.decoded true (BitVec.ofNat 32 (8 * (varintValue bytes / 2)))) }) ∧
    (s.params.bufCapGroups < varintValue bytes / 2 → exec .decode s = .next { s with
      pos := s.pos + bytes.length, fault := .capacity, rsp := some (.fault .capacity) })

/-- R98: DECODE of a SingleBit record, any header bytes: a run of the header's low bit, without a payload; its
only fault is a header cut short. -/
def Obligations.DecodeSingleBitRecord : Prop :=
  ∀ (s : State) (bytes rest : List Byte), s.Inv → s.fault = .none → s.constOnly = false →
    s.kind = .singleBit → s.input.drop s.pos = bytes ++ rest →
    (IsVarint bytes → exec .decode s = .next { s with
      pos := s.pos + bytes.length, currentValue := BitVec.ofNat 32 (varintValue bytes % 2),
      currentCount := BitVec.ofNat 32 (varintValue bytes / 2), mode := .run, buf := [],
      rsp := some (.decoded true (BitVec.ofNat 32 (varintValue bytes / 2))) }) ∧
    (bytes ≠ [] → rest = [] → (∀ c ∈ bytes, c.getLsbD 7 = true) → exec .decode s = .next { s with
      pos := s.pos + bytes.length, fault := .truncatedStream, rsp := some (.fault .truncatedStream) })

/-- R101, R150, R99, R114 item 3: DECODE always answers. It answers a record, which has consumed at least one
byte; or that there is none, which happens exactly for a constant-only instance or an empty cursor; or one of
two faults, with the run-state as it was before. In every case it touches nothing else. -/
def Obligations.DecodeAnswersOrLeavesTheRunState : Prop :=
  ∀ s : State, s.Inv → s.fault = .none → ∃ t, exec .decode s = .next t ∧ s.SameInstance t ∧ t.out = s.out ∧
    t.UnitsIdle ∧ s.pos ≤ t.pos ∧
    ((t.fault = .none ∧ ¬ s.exhausted ∧ s.pos < t.pos ∧ t.rsp = some (.decoded true t.currentCount)) ∨
      (t.fault = .none ∧ s.exhausted ∧ t.pos = s.pos ∧ t.rsp = some (.decoded false t.currentCount)) ∨
      ((t.fault = .truncatedStream ∨ t.fault = .capacity) ∧ s.SameRunState t ∧ ¬ s.exhausted ∧
        s.pos < t.pos ∧ t.rsp = some (.fault t.fault)))

/-! ## Typed Value Reader (spec/43_typed_reader.md) -/

/-- R111: INIT drops whatever the block held, validates the width, and builds the instance its operands
describe; the output space, the parameters and what the outside will do are all that stays. -/
def Obligations.InitBuildsTheInstance : Prop :=
  ∀ (s : State) (kind : Kind) (fixed : Bool) (bw : BitVec 6) (value count : Word) (stream : List Byte),
    (∀ h : bw.toNat ≤ 32, fixed = true ∨ bw.toNat = 0 →
      exec (.init kind fixed bw value count stream) s = .next { State.resetWith s.params with
        out := s.out, pending := s.pending, kind := kind, bitWidth := ⟨bw.toNat, Nat.lt_succ_of_le h⟩,
        constOnly := true, currentValue := value, currentCount := count, rsp := some .ok }) ∧
    (∀ h : bw.toNat ≤ 32, fixed = false → bw.toNat ≠ 0 →
      exec (.init kind fixed bw value count stream) s = .next { State.resetWith s.params with
        out := s.out, pending := s.pending, kind := kind, bitWidth := ⟨bw.toNat, Nat.lt_succ_of_le h⟩,
        constOnly := false, input := stream, rsp := some .ok }) ∧
    (32 < bw.toNat → exec (.init kind fixed bw value count stream) s =
      .next { State.resetWith s.params with
        out := s.out, pending := s.pending, fault := .argument, rsp := some (.fault .argument) })

/-- R144: the five causes of ArgumentError; cause 1 leaves the reset state with the fault, the others the
whole state as it was except `fault` (and the response). -/
def Obligations.ArgumentErrorCauses : Prop :=
  ∀ s : State, s.UnitsIdle →
    (∀ kind fixed bw value count stream, 32 < bw.toNat →
      exec (.init kind fixed bw value count stream) s = .next { State.resetWith s.params with
        out := s.out, pending := s.pending, fault := .argument, rsp := some (.fault .argument) }) ∧
    (s.fault = .none →
      (∀ length : Word, length.toInt < 0 → exec (.skip length) s =
        .next { s with fault := .argument, rsp := some (.fault .argument) }) ∧
      (∀ offset length : Word, length.toInt < 0 ∨ offset.toInt < 0 ∨
        (s.params.outSize : Int) < offset.toInt + length.toInt → exec (.readnext offset length) s =
          .next { s with fault := .argument, rsp := some (.fault .argument) }) ∧
      ∀ c : CmdPort, 5 ≤ c.op.toNat → hostCommand c s =
        .next { s with fault := .argument, rsp := some (.fault .argument) })

/-- R112, R116: a request that the current run can serve writes the resolved value to each of its words in
turn and leaves the rest of the run for the next command. -/
def Obligations.ReadnextWithinARun : Prop :=
  ∀ (s : State) (offset length : Word) (v : Nat), s.fault = .none → s.mode = .run → 0 ≤ offset.toInt →
    0 ≤ length.toInt → offset.toInt + length.toInt ≤ s.params.outSize →
    length.toNat ≤ s.currentCount.toNat → dictResolve s.params.dict s.currentValue = some v →
    ∃ out, exec (.readnext offset length) s = .next { s with
        currentCount := s.currentCount - length, out := out, rsp := some .ok } ∧
      ∀ i, out.read i =
        if offset.toNat ≤ i ∧ i < offset.toNat + length.toNat then some v else s.out.read i

/-- R117, R17: a request that the packed buffer can serve resolves the slots from
`buf[bufLen - currentCount]` on, one by one, and writes them in order. -/
def Obligations.ReadnextWithinAPackedRecord : Prop :=
  ∀ (s : State) (offset length : Word) (vs : List Nat), s.Inv → s.fault = .none → s.mode = .packed →
    0 ≤ offset.toInt → 0 ≤ length.toInt → offset.toInt + length.toInt ≤ s.params.outSize →
    length.toNat ≤ s.currentCount.toNat → vs.length = length.toNat →
    (∀ k (h : k < vs.length), ∃ c, s.buf[s.buf.length - s.currentCount.toNat + k]? = some c ∧
      dictResolve s.params.dict c = some vs[k]) →
    ∃ out, exec (.readnext offset length) s = .next { s with
        currentCount := s.currentCount - length, out := out, rsp := some .ok } ∧
      ∀ i, out.read i =
        if offset.toNat ≤ i ∧ i < offset.toNat + length.toNat then vs[i - offset.toNat]? else s.out.read i

/-- R145, R115, R116, R150 (the spec's decisions D13 and D15): a missing code. In RUN mode nothing is written;
in PACKED mode the slots before the first missing one are; in both the values are not consumed (log entry
16). -/
def Obligations.ReadnextMissingCode : Prop :=
  ∀ (s : State) (offset length : Word), s.Inv → s.fault = .none → 0 ≤ offset.toInt → 0 < length.toInt →
    offset.toInt + length.toInt ≤ s.params.outSize → s.currentCount ≠ 0 →
    (s.mode = .run → dictResolve s.params.dict s.currentValue = none →
      exec (.readnext offset length) s =
        .next { s with fault := .dictionaryMiss, rsp := some (.fault .dictionaryMiss) }) ∧
    (s.mode = .packed → ∀ (vs : List Nat) (c : Word), vs.length < length.toNat →
      vs.length < s.currentCount.toNat →
      (∀ k (h : k < vs.length), ∃ c, s.buf[s.buf.length - s.currentCount.toNat + k]? = some c ∧
        dictResolve s.params.dict c = some vs[k]) →
      s.buf[s.buf.length - s.currentCount.toNat + vs.length]? = some c →
      dictResolve s.params.dict c = none →
      ∃ out, exec (.readnext offset length) s = .next { s with
          out := out, fault := .dictionaryMiss, rsp := some (.fault .dictionaryMiss) } ∧
        ∀ i, out.read i =
          if offset.toNat ≤ i ∧ i < offset.toNat + vs.length then vs[i - offset.toNat]? else s.out.read i)

/-- R112, R114, R116: with no value left, a READNEXT that wants some decodes one record and goes on from
there; a fault of that record is its answer, and so is StreamUnderrunError when there is no record; a
zero-length run is looked up all the same (the spec's decision D15). -/
def Obligations.ReadnextDecodesWhenEmpty : Prop :=
  ∀ (s u : State) (offset length : Word), s.Inv → s.fault = .none → 0 ≤ offset.toInt → 0 < length.toInt →
    offset.toInt + length.toInt ≤ s.params.outSize → s.currentCount = 0 → exec .decode s = .next u →
    (u.fault ≠ .none → exec (.readnext offset length) s = .next u) ∧
    (u.rsp = some (.decoded false u.currentCount) → exec (.readnext offset length) s =
      .next { u with fault := .streamUnderrun, rsp := some (.fault .streamUnderrun) }) ∧
    (u.rsp = some (.decoded true u.currentCount) →
      (u.mode = .run → dictResolve u.params.dict u.currentValue = none →
        exec (.readnext offset length) s =
          .next { u with fault := .dictionaryMiss, rsp := some (.fault .dictionaryMiss) }) ∧
      (u.mode = .packed ∨ u.currentCount ≠ 0 ∨ (∃ v, dictResolve u.params.dict u.currentValue = some v) →
        exec (.readnext offset length) s = exec (.readnext offset length) u))

/-- R113: a SKIP that the current run or group can serve only lowers `currentCount`; one that wants more than
is left consumes it and goes on; one that finds no value left decodes a record, whose fault is its answer, or
StreamUnderrunError when there is none. The dictionary and the output space play no part. -/
def Obligations.SkipAdvancesTheCount : Prop :=
  ∀ (s : State) (length : Word), s.Inv → s.fault = .none → 0 ≤ length.toInt →
    (length.toNat ≤ s.currentCount.toNat → exec (.skip length) s =
      .next { s with currentCount := s.currentCount - length, rsp := some .ok }) ∧
    (s.currentCount ≠ 0 → s.currentCount.toNat < length.toNat → exec (.skip length) s =
      exec (.skip (length - s.currentCount)) { s with currentCount := 0 }) ∧
    (s.currentCount = 0 → length ≠ 0 → ∀ u, exec .decode s = .next u →
      (u.fault ≠ .none → exec (.skip length) s = .next u) ∧
      (u.rsp = some (.decoded false u.currentCount) → exec (.skip length) s =
        .next { u with fault := .streamUnderrun, rsp := some (.fault .streamUnderrun) }) ∧
      (u.rsp = some (.decoded true u.currentCount) → exec (.skip length) s = exec (.skip length) u))

/-- R112, R113, R41 (d): a request of length 0 answers `Ok` with no effect: no record is decoded and no word
is written. -/
def Obligations.ZeroLengthRequestsDoNothing : Prop :=
  ∀ s : State, s.fault = .none → exec (.skip 0) s = .next { s with rsp := some .ok } ∧
    ∀ offset : Word, 0 ≤ offset.toInt → offset.toInt ≤ s.params.outSize →
      exec (.readnext offset 0) s = .next { s with rsp := some .ok }

/-- R141: where READNEXT or SKIP raises StreamUnderrunError no value is left and nothing more can be decoded;
and on an exhausted instance SKIP of more values than it holds raises it. -/
def Obligations.UnderrunMeansExhausted : Prop :=
  (∀ (s t : State) (i : Instr), s.fault = .none → ((∃ length, i = .skip length) ∨
    ∃ offset length, i = .readnext offset length) → exec i s = .next t → t.fault = .streamUnderrun →
      t.currentCount = 0 ∧ t.exhausted ∧ t.rsp = some (.fault .streamUnderrun)) ∧
    ∀ (s : State) (length : Word), s.Inv → s.fault = .none → s.exhausted → 0 ≤ length.toInt →
      s.currentCount.toNat < length.toNat → exec (.skip length) s = .next { s with
        currentCount := 0, fault := .streamUnderrun, rsp := some (.fault .streamUnderrun) }

/-- R187, R112: a READNEXT may be split anywhere: when its first part answers `Ok`, the second part continues
where it ended and answers as the whole request answers, from the same state to the same state; only where a
code is missing in the second part the whole request, which takes the values of a record at once, has consumed
none of that record's (log entry 16). -/
def Obligations.ReadnextSplitsAnywhere : Prop :=
  ∀ (s u t : State) (offset m k : Word), s.Inv → s.fault = .none → 0 ≤ offset.toInt → 0 ≤ m.toInt →
    0 ≤ k.toInt → offset.toInt + m.toInt + k.toInt ≤ s.params.outSize →
    exec (.readnext offset m) s = .next u → u.rsp = some .ok →
    exec (.readnext (offset + m) k) u = .next t →
    (t.fault ≠ .dictionaryMiss → exec (.readnext offset (m + k)) s = .next t) ∧
    (t.fault = .dictionaryMiss → ∃ count,
      exec (.readnext offset (m + k)) s = .next { t with currentCount := count })

/-- R118: skipping `m` values and reading `k` gives the same words as reading `m + k` and discarding the
first `m`, with the same answer and the same state after it, when no lookup among the first `m` values
fails. (Where one fails later, both fault with it, but `currentCount` may differ: R112 lowers it after a
record's values are copied, and is followed against the end of R118: log entry 16.) -/
def Obligations.SkipAndReadAreInterchangeable : Prop :=
  ∀ (s a : State) (off off' m k : Word), s.Inv → s.fault = .none → 0 ≤ off.toInt → 0 ≤ off'.toInt →
    0 ≤ m.toInt → 0 ≤ k.toInt → off.toInt + k.toInt ≤ s.params.outSize →
    off'.toInt + m.toInt + k.toInt ≤ s.params.outSize →
    exec (.readnext off' m) s = .next a → a.rsp = some .ok →
    ∃ u t b, exec (.skip m) s = .next u ∧ u.rsp = some .ok ∧ exec (.readnext off k) u = .next t ∧
      exec (.readnext off' (m + k)) s = .next b ∧ t.rsp = b.rsp ∧
      (t.fault ≠ .dictionaryMiss → t = { b with out := t.out }) ∧
      (t.rsp = some .ok → ∀ i, i < k.toNat →
        t.out.read (off.toNat + i) = b.out.read (off'.toNat + m.toNat + i))

/-- R119: a constant-only instance of `count` copies serves any sequence of requests whose lengths add up to
`count`, at any places, each with copies of the resolved value, and the cursor is never touched; one value more
raises StreamUnderrunError and writes nothing. -/
def Obligations.ConstantInstanceServesAnyChunks : Prop :=
  ∀ (chunks : List (Word × Word)) (s : State) (v : Nat), s.Inv → s.fault = .none → s.constOnly = true →
    dictResolve s.params.dict s.currentValue = some v →
    (∀ c ∈ chunks, 0 ≤ c.1.toInt ∧ 0 ≤ c.2.toInt ∧ c.1.toInt + c.2.toInt ≤ s.params.outSize) →
    (chunks.map fun c => c.2.toNat).sum = s.currentCount.toNat →
    ∃ t, execAll (chunks.map fun c => .readnext c.1 c.2) s = .next t ∧ t.fault = .none ∧
      t.currentCount = 0 ∧ t.pos = s.pos ∧ t.input = s.input ∧
      (∀ c ∈ chunks, ∀ i, i < c.2.toNat → t.out.read (c.1.toNat + i) = some v) ∧
      ∀ offset length : Word, 0 < length.toInt →
        exec (.skip length) t =
          .next { t with fault := .streamUnderrun, rsp := some (.fault .streamUnderrun) } ∧
        (0 ≤ offset.toInt → offset.toInt + length.toInt ≤ s.params.outSize →
          exec (.readnext offset length) t =
            .next { t with fault := .streamUnderrun, rsp := some (.fault .streamUnderrun) })

/-- R55, R62, R112, R116, R117 together: a fresh instance over an assembled stream gives, to one READNEXT of
all its values, exactly the dictionary's values of the records' codes in order. -/
def Obligations.StreamReadsBackItsRecords : Prop :=
  ∀ (s : State) (kind : Kind) (bw : BitVec 6) (rs : List Record) (offset length : Word)
    (f : Word → Nat), s.Inv → 1 ≤ bw.toNat → bw.toNat ≤ 32 →
    (∀ r ∈ rs, r.wellFormed kind bw.toNat = true) →
    (∀ g vs, Record.packed g vs ∈ rs → g.toNat ≤ s.params.bufCapGroups) →
    (∀ r ∈ rs, ∀ c ∈ recordLookups r, dictResolve s.params.dict c = some (f c)) →
    0 ≤ offset.toInt → 0 ≤ length.toInt → offset.toInt + length.toInt ≤ s.params.outSize →
    length.toNat = (streamCodes rs).length →
    ∃ u t, exec (.init kind false bw 0 0 (assembleStream bw.toNat rs)) s = .next u ∧
      exec (.readnext offset length) u = .next t ∧ t.rsp = some .ok ∧ t.currentCount = 0 ∧
      ∀ i, t.out.read i =
        if offset.toNat ≤ i ∧ i < offset.toNat + length.toNat
        then ((streamCodes rs).map f)[i - offset.toNat]? else s.out.read i

/-- R120, R113, R55: on a fresh instance over an assembled stream, SKIP of as many values as the records hold,
or of fewer, answers `Ok`; of more, StreamUnderrunError. After exactly as many, DECODE answers false once the
last record holds a value. -/
def Obligations.SkipCountsTheStream : Prop :=
  ∀ (s : State) (kind : Kind) (bw : BitVec 6) (rs : List Record) (length : Word), s.Inv → 1 ≤ bw.toNat →
    bw.toNat ≤ 32 → (∀ r ∈ rs, r.wellFormed kind bw.toNat = true) →
    (∀ g vs, Record.packed g vs ∈ rs → g.toNat ≤ s.params.bufCapGroups) → 0 ≤ length.toInt →
    ∃ u t, exec (.init kind false bw 0 0 (assembleStream bw.toNat rs)) s = .next u ∧
      exec (.skip length) u = .next t ∧
      (length.toNat ≤ (streamCodes rs).length → t.rsp = some .ok) ∧
      ((streamCodes rs).length < length.toNat → t.rsp = some (.fault .streamUnderrun)) ∧
      (length.toNat = (streamCodes rs).length → (∀ r, rs.getLast? = some r → r.codes ≠ []) →
        ∃ v, exec .decode t = .next v ∧ v.rsp = some (.decoded false 0))

/-! ## What the commands leave alone (R28) -/

/-- R28, R38, R41: READNEXT leaves the control registers, the stream and the parameters alone, never moves
`pos` back, and writes no word of the output space outside `offset` to `offset + length - 1`; a word it writes
is a value of the dictionary. -/
def Obligations.ReadnextFrame : Prop :=
  ∀ (s t : State) (offset length : Word), s.Inv → exec (.readnext offset length) s = .next t →
    s.SameInstance t ∧ s.pos ≤ t.pos ∧ t.UnitsIdle ∧
    ∀ i, t.out.read i ≠ s.out.read i → 0 ≤ offset.toInt ∧ 0 ≤ length.toInt ∧ offset.toNat ≤ i ∧
      i < offset.toNat + length.toNat ∧ ∃ c v, dictResolve s.params.dict c = some v ∧
        t.out.read i = some v

/-- R28, R113: SKIP and DECODE leave the control registers, the stream, the parameters and every word of the
output space alone, never move `pos` back, and end with the transient units idle. -/
def Obligations.SkipAndDecodeFrame : Prop :=
  ∀ (s t : State) (i : Instr), s.Inv → (i = .decode ∨ ∃ length, i = .skip length) → exec i s = .next t →
    s.SameInstance t ∧ t.out = s.out ∧ s.pos ≤ t.pos ∧ t.UnitsIdle

/-- R28, R36: the seven stream operations leave the control registers, the stream, the parameters, every word
of the output space and what the outside will do alone; the two header bytes and UNPACK8 leave every register
of the run-state alone too. (What they do run by themselves, also with a fault stored or on a constant-only
instance, is the model's choice: log entry 11.) -/
def Obligations.StreamOperationsFrame : Prop :=
  ∀ (s t : State) (i : Instr), exec i s = .next t →
    (((∃ p, i = .varintCont p) ∨ (∃ p, i = .varintLast p) ∨ ∃ w group, i = .unpack8 w group) →
      s.SameInstance t ∧ s.SameRunState t ∧ t.out = s.out ∧ t.pos = s.pos ∧ t.fault = s.fault) ∧
    (((∃ n, i = .hdrRun n) ∨ (∃ g, i = .hdrPacked g) ∨ (∃ n b, i = .hdrBrun n b) ∨
        ∃ k value, i = .runval k value) →
      s.SameInstance t ∧ t.out = s.out ∧ s.pos ≤ t.pos ∧
      (t.fault = s.fault ∨ (s.SameRunState t ∧ (t.fault = .truncatedStream ∨ t.fault = .capacity))))

/-! ## Memory Sizing Helper (spec/44_sizing.md) -/

/-- R130: RETAINED answers in every state, also with a fault stored, the exact sum of the instance overhead,
4 bytes for each slot of the packed buffer and the dictionary's size, and writes no state. -/
def Obligations.RetainedAnswersTheExactSum : Prop :=
  ∀ s : State, s.Inv → ∃ n : BitVec 64, exec .retained s = .next { s with rsp := some (.bytes n) } ∧
    n.toNat = s.params.instanceOverhead.toNat + 4 * s.buf.length + s.params.dictRetained.toNat ∧
    (s.mode = .run → n.toNat = s.params.instanceOverhead.toNat + s.params.dictRetained.toNat)

/-! ## Faults (spec/60_exceptions.md) -/

/-- R151: while a fault is stored, DECODE, READNEXT, SKIP and the reserved opcodes do nothing and answer the
stored code; RETAINED answers as ever; INIT with a legal width and reset clear it; nothing else changes
it. -/
def Obligations.FaultIsSticky : Prop :=
  ∀ s : State, s.fault ≠ .none →
    (∀ i : Instr, (i = .decode ∨ (∃ length, i = .skip length) ∨
      ∃ offset length, i = .readnext offset length) →
        exec i s = .next { s with rsp := some (.fault s.fault) }) ∧
    (∀ c : CmdPort, 5 ≤ c.op.toNat → hostCommand c s = .next { s with rsp := some (.fault s.fault) }) ∧
    (∃ n, exec .retained s = .next { s with rsp := some (.bytes n) }) ∧
    (∀ kind fixed bw value count stream, bw.toNat ≤ 32 →
      ∃ t, exec (.init kind fixed bw value count stream) s = .next t ∧ t.fault = .none) ∧
    (∀ inFlight rest, s.pending = .reset inFlight :: rest → ∃ t, step s = .next t ∧ t.fault = .none) ∧
    ∀ t, step s = .next t → t.fault ≠ s.fault →
      ∃ rest, (∃ inFlight, s.pending = .reset inFlight :: rest) ∨
        ∃ c, c.op = 0 ∧ s.pending = .command c :: rest

/-- R143: no step raises DecodeModeFault. -/
def Obligations.NoStepRaisesDecodeModeFault : Prop :=
  ∀ s t : State, step s = .next t → t.fault = .decodeMode → s.fault = .decodeMode

/-- R150: what taking a fault does: `fault` and the response take the code, the transient units are idle, and
every register and word written before stays as it is. (A command raises only while `fault` is NONE, R21; that
a stream operation run by itself may raise over a stored code is the model's choice: log entry 11.) -/
def Obligations.RaisingAFaultSavesNothing : Prop :=
  ∀ (f : FaultCode) (s : State), s.raiseFault f = { s with
    acc := 0, shift := 0, header := none, unpackAcc := 0, fill := [], fault := f, rsp := some (.fault f) } ∧
    ((s.raiseFault f).rsp.map Response.data = some 0) ∧
    ((s.raiseFault f).rsp.map Response.faultBits = some (s.raiseFault f).fault.code)

/-! ## Reset, invariant, agents (spec/10_state.md, spec/70_reset_and_hazards.md) -/

/-- R25: the state after reset. -/
def Obligations.ResetValues : Prop :=
  ∀ p : Params, (State.resetWith p).kind = .generic ∧ (State.resetWith p).bitWidth = 0 ∧
    (State.resetWith p).constOnly = true ∧ (State.resetWith p).mode = .run ∧
    (State.resetWith p).currentValue = 0 ∧ (State.resetWith p).currentCount = 0 ∧
    (State.resetWith p).buf = [] ∧ (State.resetWith p).bufLen = 0 ∧ (State.resetWith p).pos = 0 ∧
    (State.resetWith p).fault = .none ∧ (State.resetWith p).input = [] ∧ (State.resetWith p).UnitsIdle ∧
    State.reset = State.resetWith State.reset.params

/-- R170: reset puts every state element at its reset value and keeps the output space. With a READNEXT in
flight that has written so many words, those words are the command's and the others are as before (R41, the
spec's decision D26; that the step names the number of words is the model's choice: log entry 6), and no
response is left (the model's choice: log entry 5). -/
def Obligations.ResetRestoresTheResetState : Prop :=
  ∀ (s : State) (rest : List HostInput),
    (s.pending = .reset none :: rest →
      step s = .next { State.resetWith s.params with out := s.out, pending := rest }) ∧
    ∀ (c : CmdPort) (written : Nat), s.pending = .reset (some (c, written)) :: rest →
      ∃ out, step s = .next { State.resetWith s.params with out := out, pending := rest } ∧
        (c.op ≠ 2 → ∀ i, out.read i = s.out.read i) ∧
        ∀ u, c.op = 2 → exec (.readnext c.offset c.length) { s with pending := rest } = .next u →
          ∀ i, out.read i =
            if i < c.offset.toNat + written then u.out.read i else s.out.read i

/-- R171: INIT of an empty fixed run leaves the state reset leaves, but for the response. -/
def Obligations.ResetEqualsAnEmptyInit : Prop :=
  ∀ (s : State) (stream : List Byte), exec (.init .generic true 0 0 0 stream) s =
    .next { hostReset none s with rsp := some .ok }

/-- R29: the invariant holds after reset, whatever parameters within R6's ranges the block has; that
`State.reset` satisfies it rests on the parameter values the model chose for it, which are within them (log
entry 1). -/
def Obligations.ResetSatisfiesTheInvariant : Prop :=
  (∀ p : Params, p.Wf → (State.resetWith p).Inv) ∧ State.reset.Inv

/-- R29: every step keeps the invariant: the packed buffer's length is a multiple of 8 and bounds
`currentCount`, the buffer is empty in RUN mode, `pos` stays inside the stream, a constant-only instance has
consumed nothing, a SingleBit instance holds a bit, every slot fits `bitWidth` bits; the output space stays
canonical and inside its bounds, and the transient units are idle between steps. (That the parameters, these
units and a canonical form of the output space are in the state at all is the model's choice: log entries 1, 3
and 4.) -/
def Obligations.StepKeepsTheInvariant : Prop :=
  ∀ s t : State, s.Inv → step s = .next t → t.Inv

/-- R58, R185, R46: every command is answered, in one step, in every state of the invariant: nothing is
refused, nothing stops the machine and nothing waits. (The queue and the field `rsp` are the model's form: log
entry 5.) -/
def Obligations.EveryCommandIsAnswered : Prop :=
  ∀ (s : State) (c : CmdPort) (rest : List HostInput), s.Inv → s.pending = .command c :: rest →
    ∃ t r, step s = .next t ∧ t.rsp = some r ∧ t.pending = rest

/-- R114 item 3: the bound on the iterations of the model's loop is never what ends it: any larger bound gives
the same result. -/
def Obligations.LoopBoundAlwaysSuffices : Prop :=
  ∀ (bound remaining idx : Nat) (s : State), s.avail + 2 ≤ bound →
    consumeLoop copyOut bound remaining idx s = consumeLoop copyOut (loopBound s) remaining idx s ∧
    consumeLoop copyNothing bound remaining idx s = consumeLoop copyNothing (loopBound s) remaining idx s

/-- R102, R75: the sequential view, one byte a step, ends as `Decode()` ends, from every state, with the
Varint Reader in `V_IDLE`. (The grain of the steps, and that step 2 writes `currentCount` in `S_CHECK`, are the
model's choices: log entry 13.) -/
def Obligations.SequencerDoesWhatDecodeDoes : Prop :=
  ∀ s : State, s.Inv → ∃ n, seqRun n ⟨.check, s⟩ = seqEnd s (decodeRecord s) ∧
    (seqRun n ⟨.check, s⟩).state.acc = 0 ∧ (seqRun n ⟨.check, s⟩).state.shift = 0

/-- R44, R186: any interleaving of the blocks' commands gives each block the result of running alone.
(The product that steps by a schedule is deduced: log entry 14.) -/
def Obligations.InterleavingIsInvisible : Prop :=
  ∀ (schedule : List Nat) (sys t : System) (k : Nat) (s : State), sys[k]? = some s →
    systemRun schedule sys = .next t →
    ∃ u, t[k]? = some u ∧
      systemRun (List.replicate (schedule.filter (· == k)).length 0) [s] = .next [u]

/-- R188: a run has ended successfully exactly when there is no fault, no value left and a DECODE would answer
that there is no record. -/
def Obligations.RunHasEndedWhenDecodeFindsNothing : Prop :=
  ∀ s : State, s.Inv → (s.runSucceeded ↔ s.fault = .none ∧ s.currentCount = 0 ∧
    ∃ t, exec .decode s = .next t ∧ t.rsp = some (.decoded false 0))

/-- R187, R38, R6, R177: between commands the host may write any word of the output space; there is no word at
or beyond `OUT_SIZE` (that such a write stops the machine is the model's choice: log entry 7). The dictionary is
constant during an instance, as all parameters are: another is supplied only just before INIT, or before a
reset that interrupts no command, and changes nothing else (log entry 8). (That the last response
then stays in `rsp`, and the queue, are the model's choices: log entry 5.) -/
def Obligations.OutsideActsBetweenCommands : Prop :=
  (∀ (s : State) (index value : Nat) (rest : List HostInput),
    s.pending = .writeOut index value :: rest → value < 2 ^ s.params.domainWidth →
    (index < s.params.outSize → ∃ out, step s = .next { s with pending := rest, out := out } ∧
      ∀ i, out.read i = if i = index then some value else s.out.read i) ∧
    (s.params.outSize ≤ index → step s = .fault .noSuchOutWord)) ∧
  (∀ (s : State) (dict : Dict) (retained : BitVec 64) (next : HostInput) (rest : List HostInput),
    s.pending = .attachDictionary dict retained :: next :: rest →
    (next = .reset none ∨ ∃ c, c.op = 0 ∧ next = .command c) →
    Params.Wf { s.params with dict := dict, dictRetained := retained } →
    step s = .next { s with
      pending := next :: rest, params := { s.params with dict := dict, dictRetained := retained } }) ∧
  ∀ s t : State, step s = .next t → t.params ≠ s.params →
    ∃ dict retained next rest, s.pending = .attachDictionary dict retained :: next :: rest ∧
      (next = .reset none ∨ ∃ c, c.op = 0 ∧ next = .command c)
end

