-- ==== Sys2Proof/Laws/State.lean ====
section
/-! SUPPORT. One lemma per field per named update of the state, each true by unfolding, so that no later
proof unfolds a record update. -/

namespace Sys2Proof.Machine

/-! ### `State.advance` -/

@[simp] theorem State.advance_params (n : Nat) (s : State) : (s.advance n).params = s.params := rfl
@[simp] theorem State.advance_currentValue (n : Nat) (s : State) : (s.advance n).currentValue = s.currentValue := rfl
@[simp] theorem State.advance_currentCount (n : Nat) (s : State) : (s.advance n).currentCount = s.currentCount := rfl
@[simp] theorem State.advance_mode (n : Nat) (s : State) : (s.advance n).mode = s.mode := rfl
@[simp] theorem State.advance_pos (n : Nat) (s : State) : (s.advance n).pos = s.pos + n := rfl
@[simp] theorem State.advance_kind (n : Nat) (s : State) : (s.advance n).kind = s.kind := rfl
@[simp] theorem State.advance_bitWidth (n : Nat) (s : State) : (s.advance n).bitWidth = s.bitWidth := rfl
@[simp] theorem State.advance_constOnly (n : Nat) (s : State) : (s.advance n).constOnly = s.constOnly := rfl
@[simp] theorem State.advance_fault (n : Nat) (s : State) : (s.advance n).fault = s.fault := rfl
@[simp] theorem State.advance_buf (n : Nat) (s : State) : (s.advance n).buf = s.buf := rfl
@[simp] theorem State.advance_out (n : Nat) (s : State) : (s.advance n).out = s.out := rfl
@[simp] theorem State.advance_input (n : Nat) (s : State) : (s.advance n).input = s.input := rfl
@[simp] theorem State.advance_acc (n : Nat) (s : State) : (s.advance n).acc = s.acc := rfl
@[simp] theorem State.advance_shift (n : Nat) (s : State) : (s.advance n).shift = s.shift := rfl
@[simp] theorem State.advance_header (n : Nat) (s : State) : (s.advance n).header = s.header := rfl
@[simp] theorem State.advance_unpackAcc (n : Nat) (s : State) : (s.advance n).unpackAcc = s.unpackAcc := rfl
@[simp] theorem State.advance_fill (n : Nat) (s : State) : (s.advance n).fill = s.fill := rfl
@[simp] theorem State.advance_pending (n : Nat) (s : State) : (s.advance n).pending = s.pending := rfl
@[simp] theorem State.advance_rsp (n : Nat) (s : State) : (s.advance n).rsp = s.rsp := rfl

/-! ### `State.outWrite` -/

@[simp] theorem State.outWrite_params (i v : Nat) (s : State) : (s.outWrite i v).params = s.params := rfl
@[simp] theorem State.outWrite_currentValue (i v : Nat) (s : State) : (s.outWrite i v).currentValue = s.currentValue := rfl
@[simp] theorem State.outWrite_currentCount (i v : Nat) (s : State) : (s.outWrite i v).currentCount = s.currentCount := rfl
@[simp] theorem State.outWrite_mode (i v : Nat) (s : State) : (s.outWrite i v).mode = s.mode := rfl
@[simp] theorem State.outWrite_pos (i v : Nat) (s : State) : (s.outWrite i v).pos = s.pos := rfl
@[simp] theorem State.outWrite_kind (i v : Nat) (s : State) : (s.outWrite i v).kind = s.kind := rfl
@[simp] theorem State.outWrite_bitWidth (i v : Nat) (s : State) : (s.outWrite i v).bitWidth = s.bitWidth := rfl
@[simp] theorem State.outWrite_constOnly (i v : Nat) (s : State) : (s.outWrite i v).constOnly = s.constOnly := rfl
@[simp] theorem State.outWrite_fault (i v : Nat) (s : State) : (s.outWrite i v).fault = s.fault := rfl
@[simp] theorem State.outWrite_buf (i v : Nat) (s : State) : (s.outWrite i v).buf = s.buf := rfl
@[simp] theorem State.outWrite_out (i v : Nat) (s : State) : (s.outWrite i v).out = s.out.write i v := rfl
@[simp] theorem State.outWrite_input (i v : Nat) (s : State) : (s.outWrite i v).input = s.input := rfl
@[simp] theorem State.outWrite_acc (i v : Nat) (s : State) : (s.outWrite i v).acc = s.acc := rfl
@[simp] theorem State.outWrite_shift (i v : Nat) (s : State) : (s.outWrite i v).shift = s.shift := rfl
@[simp] theorem State.outWrite_header (i v : Nat) (s : State) : (s.outWrite i v).header = s.header := rfl
@[simp] theorem State.outWrite_unpackAcc (i v : Nat) (s : State) : (s.outWrite i v).unpackAcc = s.unpackAcc := rfl
@[simp] theorem State.outWrite_fill (i v : Nat) (s : State) : (s.outWrite i v).fill = s.fill := rfl
@[simp] theorem State.outWrite_pending (i v : Nat) (s : State) : (s.outWrite i v).pending = s.pending := rfl
@[simp] theorem State.outWrite_rsp (i v : Nat) (s : State) : (s.outWrite i v).rsp = s.rsp := rfl

/-! ### `State.idleReader` -/

@[simp] theorem State.idleReader_params (s : State) : s.idleReader.params = s.params := rfl
@[simp] theorem State.idleReader_currentValue (s : State) : s.idleReader.currentValue = s.currentValue := rfl
@[simp] theorem State.idleReader_currentCount (s : State) : s.idleReader.currentCount = s.currentCount := rfl
@[simp] theorem State.idleReader_mode (s : State) : s.idleReader.mode = s.mode := rfl
@[simp] theorem State.idleReader_pos (s : State) : s.idleReader.pos = s.pos := rfl
@[simp] theorem State.idleReader_kind (s : State) : s.idleReader.kind = s.kind := rfl
@[simp] theorem State.idleReader_bitWidth (s : State) : s.idleReader.bitWidth = s.bitWidth := rfl
@[simp] theorem State.idleReader_constOnly (s : State) : s.idleReader.constOnly = s.constOnly := rfl
@[simp] theorem State.idleReader_fault (s : State) : s.idleReader.fault = s.fault := rfl
@[simp] theorem State.idleReader_buf (s : State) : s.idleReader.buf = s.buf := rfl
@[simp] theorem State.idleReader_out (s : State) : s.idleReader.out = s.out := rfl
@[simp] theorem State.idleReader_input (s : State) : s.idleReader.input = s.input := rfl
@[simp] theorem State.idleReader_acc (s : State) : s.idleReader.acc = 0 := rfl
@[simp] theorem State.idleReader_shift (s : State) : s.idleReader.shift = 0 := rfl
@[simp] theorem State.idleReader_header (s : State) : s.idleReader.header = s.header := rfl
@[simp] theorem State.idleReader_unpackAcc (s : State) : s.idleReader.unpackAcc = s.unpackAcc := rfl
@[simp] theorem State.idleReader_fill (s : State) : s.idleReader.fill = s.fill := rfl
@[simp] theorem State.idleReader_pending (s : State) : s.idleReader.pending = s.pending := rfl
@[simp] theorem State.idleReader_rsp (s : State) : s.idleReader.rsp = s.rsp := rfl

/-! ### `State.clearUnits` -/

@[simp] theorem State.clearUnits_params (s : State) : s.clearUnits.params = s.params := rfl
@[simp] theorem State.clearUnits_currentValue (s : State) : s.clearUnits.currentValue = s.currentValue := rfl
@[simp] theorem State.clearUnits_currentCount (s : State) : s.clearUnits.currentCount = s.currentCount := rfl
@[simp] theorem State.clearUnits_mode (s : State) : s.clearUnits.mode = s.mode := rfl
@[simp] theorem State.clearUnits_pos (s : State) : s.clearUnits.pos = s.pos := rfl
@[simp] theorem State.clearUnits_kind (s : State) : s.clearUnits.kind = s.kind := rfl
@[simp] theorem State.clearUnits_bitWidth (s : State) : s.clearUnits.bitWidth = s.bitWidth := rfl
@[simp] theorem State.clearUnits_constOnly (s : State) : s.clearUnits.constOnly = s.constOnly := rfl
@[simp] theorem State.clearUnits_fault (s : State) : s.clearUnits.fault = s.fault := rfl
@[simp] theorem State.clearUnits_buf (s : State) : s.clearUnits.buf = s.buf := rfl
@[simp] theorem State.clearUnits_out (s : State) : s.clearUnits.out = s.out := rfl
@[simp] theorem State.clearUnits_input (s : State) : s.clearUnits.input = s.input := rfl
@[simp] theorem State.clearUnits_acc (s : State) : s.clearUnits.acc = 0 := rfl
@[simp] theorem State.clearUnits_shift (s : State) : s.clearUnits.shift = 0 := rfl
@[simp] theorem State.clearUnits_header (s : State) : s.clearUnits.header = none := rfl
@[simp] theorem State.clearUnits_unpackAcc (s : State) : s.clearUnits.unpackAcc = 0 := rfl
@[simp] theorem State.clearUnits_fill (s : State) : s.clearUnits.fill = [] := rfl
@[simp] theorem State.clearUnits_pending (s : State) : s.clearUnits.pending = s.pending := rfl
@[simp] theorem State.clearUnits_rsp (s : State) : s.clearUnits.rsp = s.rsp := rfl

/-! ### `State.respond` -/

@[simp] theorem State.respond_params (r : Response) (s : State) : (s.respond r).params = s.params := rfl
@[simp] theorem State.respond_currentValue (r : Response) (s : State) : (s.respond r).currentValue = s.currentValue := rfl
@[simp] theorem State.respond_currentCount (r : Response) (s : State) : (s.respond r).currentCount = s.currentCount := rfl
@[simp] theorem State.respond_mode (r : Response) (s : State) : (s.respond r).mode = s.mode := rfl
@[simp] theorem State.respond_pos (r : Response) (s : State) : (s.respond r).pos = s.pos := rfl
@[simp] theorem State.respond_kind (r : Response) (s : State) : (s.respond r).kind = s.kind := rfl
@[simp] theorem State.respond_bitWidth (r : Response) (s : State) : (s.respond r).bitWidth = s.bitWidth := rfl
@[simp] theorem State.respond_constOnly (r : Response) (s : State) : (s.respond r).constOnly = s.constOnly := rfl
@[simp] theorem State.respond_fault (r : Response) (s : State) : (s.respond r).fault = s.fault := rfl
@[simp] theorem State.respond_buf (r : Response) (s : State) : (s.respond r).buf = s.buf := rfl
@[simp] theorem State.respond_out (r : Response) (s : State) : (s.respond r).out = s.out := rfl
@[simp] theorem State.respond_input (r : Response) (s : State) : (s.respond r).input = s.input := rfl
@[simp] theorem State.respond_acc (r : Response) (s : State) : (s.respond r).acc = s.acc := rfl
@[simp] theorem State.respond_shift (r : Response) (s : State) : (s.respond r).shift = s.shift := rfl
@[simp] theorem State.respond_header (r : Response) (s : State) : (s.respond r).header = s.header := rfl
@[simp] theorem State.respond_unpackAcc (r : Response) (s : State) : (s.respond r).unpackAcc = s.unpackAcc := rfl
@[simp] theorem State.respond_fill (r : Response) (s : State) : (s.respond r).fill = s.fill := rfl
@[simp] theorem State.respond_pending (r : Response) (s : State) : (s.respond r).pending = s.pending := rfl
@[simp] theorem State.respond_rsp (r : Response) (s : State) : (s.respond r).rsp = some r := rfl

/-! ### `State.raiseFault` -/

@[simp] theorem State.raiseFault_params (f : FaultCode) (s : State) : (s.raiseFault f).params = s.params := rfl
@[simp] theorem State.raiseFault_currentValue (f : FaultCode) (s : State) : (s.raiseFault f).currentValue = s.currentValue := rfl
@[simp] theorem State.raiseFault_currentCount (f : FaultCode) (s : State) : (s.raiseFault f).currentCount = s.currentCount := rfl
@[simp] theorem State.raiseFault_mode (f : FaultCode) (s : State) : (s.raiseFault f).mode = s.mode := rfl
@[simp] theorem State.raiseFault_pos (f : FaultCode) (s : State) : (s.raiseFault f).pos = s.pos := rfl
@[simp] theorem State.raiseFault_kind (f : FaultCode) (s : State) : (s.raiseFault f).kind = s.kind := rfl
@[simp] theorem State.raiseFault_bitWidth (f : FaultCode) (s : State) : (s.raiseFault f).bitWidth = s.bitWidth := rfl
@[simp] theorem State.raiseFault_constOnly (f : FaultCode) (s : State) : (s.raiseFault f).constOnly = s.constOnly := rfl
@[simp] theorem State.raiseFault_fault (f : FaultCode) (s : State) : (s.raiseFault f).fault = f := rfl
@[simp] theorem State.raiseFault_buf (f : FaultCode) (s : State) : (s.raiseFault f).buf = s.buf := rfl
@[simp] theorem State.raiseFault_out (f : FaultCode) (s : State) : (s.raiseFault f).out = s.out := rfl
@[simp] theorem State.raiseFault_input (f : FaultCode) (s : State) : (s.raiseFault f).input = s.input := rfl
@[simp] theorem State.raiseFault_acc (f : FaultCode) (s : State) : (s.raiseFault f).acc = 0 := rfl
@[simp] theorem State.raiseFault_shift (f : FaultCode) (s : State) : (s.raiseFault f).shift = 0 := rfl
@[simp] theorem State.raiseFault_header (f : FaultCode) (s : State) : (s.raiseFault f).header = none := rfl
@[simp] theorem State.raiseFault_unpackAcc (f : FaultCode) (s : State) : (s.raiseFault f).unpackAcc = 0 := rfl
@[simp] theorem State.raiseFault_fill (f : FaultCode) (s : State) : (s.raiseFault f).fill = [] := rfl
@[simp] theorem State.raiseFault_pending (f : FaultCode) (s : State) : (s.raiseFault f).pending = s.pending := rfl
@[simp] theorem State.raiseFault_rsp (f : FaultCode) (s : State) : (s.raiseFault f).rsp = some (.fault f) := rfl

/-! ### `State.dropInstance` -/

@[simp] theorem State.dropInstance_params (s : State) : s.dropInstance.params = s.params := rfl
@[simp] theorem State.dropInstance_currentValue (s : State) : s.dropInstance.currentValue = 0 := rfl
@[simp] theorem State.dropInstance_currentCount (s : State) : s.dropInstance.currentCount = 0 := rfl
@[simp] theorem State.dropInstance_mode (s : State) : s.dropInstance.mode = .run := rfl
@[simp] theorem State.dropInstance_pos (s : State) : s.dropInstance.pos = 0 := rfl
@[simp] theorem State.dropInstance_kind (s : State) : s.dropInstance.kind = .generic := rfl
@[simp] theorem State.dropInstance_bitWidth (s : State) : s.dropInstance.bitWidth = 0 := rfl
@[simp] theorem State.dropInstance_constOnly (s : State) : s.dropInstance.constOnly = true := rfl
@[simp] theorem State.dropInstance_fault (s : State) : s.dropInstance.fault = .none := rfl
@[simp] theorem State.dropInstance_buf (s : State) : s.dropInstance.buf = [] := rfl
@[simp] theorem State.dropInstance_out (s : State) : s.dropInstance.out = s.out := rfl
@[simp] theorem State.dropInstance_input (s : State) : s.dropInstance.input = [] := rfl
@[simp] theorem State.dropInstance_acc (s : State) : s.dropInstance.acc = 0 := rfl
@[simp] theorem State.dropInstance_shift (s : State) : s.dropInstance.shift = 0 := rfl
@[simp] theorem State.dropInstance_header (s : State) : s.dropInstance.header = none := rfl
@[simp] theorem State.dropInstance_unpackAcc (s : State) : s.dropInstance.unpackAcc = 0 := rfl
@[simp] theorem State.dropInstance_fill (s : State) : s.dropInstance.fill = [] := rfl
@[simp] theorem State.dropInstance_pending (s : State) : s.dropInstance.pending = s.pending := rfl
@[simp] theorem State.dropInstance_rsp (s : State) : s.dropInstance.rsp = s.rsp := rfl

/-! ### `State.takeHeader` -/

@[simp] theorem State.takeHeader_params (s : State) : s.takeHeader.params = s.params := rfl
@[simp] theorem State.takeHeader_currentValue (s : State) : s.takeHeader.currentValue = s.currentValue := rfl
@[simp] theorem State.takeHeader_currentCount (s : State) : s.takeHeader.currentCount = s.currentCount := rfl
@[simp] theorem State.takeHeader_mode (s : State) : s.takeHeader.mode = s.mode := rfl
@[simp] theorem State.takeHeader_pos (s : State) : s.takeHeader.pos = s.pos := rfl
@[simp] theorem State.takeHeader_kind (s : State) : s.takeHeader.kind = s.kind := rfl
@[simp] theorem State.takeHeader_bitWidth (s : State) : s.takeHeader.bitWidth = s.bitWidth := rfl
@[simp] theorem State.takeHeader_constOnly (s : State) : s.takeHeader.constOnly = s.constOnly := rfl
@[simp] theorem State.takeHeader_fault (s : State) : s.takeHeader.fault = s.fault := rfl
@[simp] theorem State.takeHeader_buf (s : State) : s.takeHeader.buf = s.buf := rfl
@[simp] theorem State.takeHeader_out (s : State) : s.takeHeader.out = s.out := rfl
@[simp] theorem State.takeHeader_input (s : State) : s.takeHeader.input = s.input := rfl
@[simp] theorem State.takeHeader_acc (s : State) : s.takeHeader.acc = s.acc := rfl
@[simp] theorem State.takeHeader_shift (s : State) : s.takeHeader.shift = s.shift := rfl
@[simp] theorem State.takeHeader_header (s : State) : s.takeHeader.header = none := rfl
@[simp] theorem State.takeHeader_unpackAcc (s : State) : s.takeHeader.unpackAcc = s.unpackAcc := rfl
@[simp] theorem State.takeHeader_fill (s : State) : s.takeHeader.fill = s.fill := rfl
@[simp] theorem State.takeHeader_pending (s : State) : s.takeHeader.pending = s.pending := rfl
@[simp] theorem State.takeHeader_rsp (s : State) : s.takeHeader.rsp = s.rsp := rfl

/-! ### `State.enterRun` -/

@[simp] theorem State.enterRun_params (c : Word) (s : State) : (s.enterRun c).params = s.params := rfl
@[simp] theorem State.enterRun_currentValue (c : Word) (s : State) : (s.enterRun c).currentValue = s.currentValue := rfl
@[simp] theorem State.enterRun_currentCount (c : Word) (s : State) : (s.enterRun c).currentCount = c := rfl
@[simp] theorem State.enterRun_mode (c : Word) (s : State) : (s.enterRun c).mode = .run := rfl
@[simp] theorem State.enterRun_pos (c : Word) (s : State) : (s.enterRun c).pos = s.pos := rfl
@[simp] theorem State.enterRun_kind (c : Word) (s : State) : (s.enterRun c).kind = s.kind := rfl
@[simp] theorem State.enterRun_bitWidth (c : Word) (s : State) : (s.enterRun c).bitWidth = s.bitWidth := rfl
@[simp] theorem State.enterRun_constOnly (c : Word) (s : State) : (s.enterRun c).constOnly = s.constOnly := rfl
@[simp] theorem State.enterRun_fault (c : Word) (s : State) : (s.enterRun c).fault = s.fault := rfl
@[simp] theorem State.enterRun_buf (c : Word) (s : State) : (s.enterRun c).buf = [] := rfl
@[simp] theorem State.enterRun_out (c : Word) (s : State) : (s.enterRun c).out = s.out := rfl
@[simp] theorem State.enterRun_input (c : Word) (s : State) : (s.enterRun c).input = s.input := rfl
@[simp] theorem State.enterRun_acc (c : Word) (s : State) : (s.enterRun c).acc = s.acc := rfl
@[simp] theorem State.enterRun_shift (c : Word) (s : State) : (s.enterRun c).shift = s.shift := rfl
@[simp] theorem State.enterRun_header (c : Word) (s : State) : (s.enterRun c).header = s.header := rfl
@[simp] theorem State.enterRun_unpackAcc (c : Word) (s : State) : (s.enterRun c).unpackAcc = s.unpackAcc := rfl
@[simp] theorem State.enterRun_fill (c : Word) (s : State) : (s.enterRun c).fill = s.fill := rfl
@[simp] theorem State.enterRun_pending (c : Word) (s : State) : (s.enterRun c).pending = s.pending := rfl
@[simp] theorem State.enterRun_rsp (c : Word) (s : State) : (s.enterRun c).rsp = s.rsp := rfl

/-! ### `State.enterPacked` -/

@[simp] theorem State.enterPacked_params (c : Word) (s : State) : (s.enterPacked c).params = s.params := rfl
@[simp] theorem State.enterPacked_currentValue (c : Word) (s : State) : (s.enterPacked c).currentValue = s.currentValue := rfl
@[simp] theorem State.enterPacked_currentCount (c : Word) (s : State) : (s.enterPacked c).currentCount = c := rfl
@[simp] theorem State.enterPacked_mode (c : Word) (s : State) : (s.enterPacked c).mode = .packed := rfl
@[simp] theorem State.enterPacked_pos (c : Word) (s : State) : (s.enterPacked c).pos = s.pos := rfl
@[simp] theorem State.enterPacked_kind (c : Word) (s : State) : (s.enterPacked c).kind = s.kind := rfl
@[simp] theorem State.enterPacked_bitWidth (c : Word) (s : State) : (s.enterPacked c).bitWidth = s.bitWidth := rfl
@[simp] theorem State.enterPacked_constOnly (c : Word) (s : State) : (s.enterPacked c).constOnly = s.constOnly := rfl
@[simp] theorem State.enterPacked_fault (c : Word) (s : State) : (s.enterPacked c).fault = s.fault := rfl
@[simp] theorem State.enterPacked_buf (c : Word) (s : State) : (s.enterPacked c).buf = s.fill := rfl
@[simp] theorem State.enterPacked_out (c : Word) (s : State) : (s.enterPacked c).out = s.out := rfl
@[simp] theorem State.enterPacked_input (c : Word) (s : State) : (s.enterPacked c).input = s.input := rfl
@[simp] theorem State.enterPacked_acc (c : Word) (s : State) : (s.enterPacked c).acc = s.acc := rfl
@[simp] theorem State.enterPacked_shift (c : Word) (s : State) : (s.enterPacked c).shift = s.shift := rfl
@[simp] theorem State.enterPacked_header (c : Word) (s : State) : (s.enterPacked c).header = s.header := rfl
@[simp] theorem State.enterPacked_unpackAcc (c : Word) (s : State) : (s.enterPacked c).unpackAcc = s.unpackAcc := rfl
@[simp] theorem State.enterPacked_fill (c : Word) (s : State) : (s.enterPacked c).fill = [] := rfl
@[simp] theorem State.enterPacked_pending (c : Word) (s : State) : (s.enterPacked c).pending = s.pending := rfl
@[simp] theorem State.enterPacked_rsp (c : Word) (s : State) : (s.enterPacked c).rsp = s.rsp := rfl

/-! ### `State.consume` -/

@[simp] theorem State.consume_params (n : Nat) (s : State) : (s.consume n).params = s.params := rfl
@[simp] theorem State.consume_currentValue (n : Nat) (s : State) : (s.consume n).currentValue = s.currentValue := rfl
@[simp] theorem State.consume_currentCount (n : Nat) (s : State) : (s.consume n).currentCount = s.currentCount - BitVec.ofNat 32 n := rfl
@[simp] theorem State.consume_mode (n : Nat) (s : State) : (s.consume n).mode = s.mode := rfl
@[simp] theorem State.consume_pos (n : Nat) (s : State) : (s.consume n).pos = s.pos := rfl
@[simp] theorem State.consume_kind (n : Nat) (s : State) : (s.consume n).kind = s.kind := rfl
@[simp] theorem State.consume_bitWidth (n : Nat) (s : State) : (s.consume n).bitWidth = s.bitWidth := rfl
@[simp] theorem State.consume_constOnly (n : Nat) (s : State) : (s.consume n).constOnly = s.constOnly := rfl
@[simp] theorem State.consume_fault (n : Nat) (s : State) : (s.consume n).fault = s.fault := rfl
@[simp] theorem State.consume_buf (n : Nat) (s : State) : (s.consume n).buf = s.buf := rfl
@[simp] theorem State.consume_out (n : Nat) (s : State) : (s.consume n).out = s.out := rfl
@[simp] theorem State.consume_input (n : Nat) (s : State) : (s.consume n).input = s.input := rfl
@[simp] theorem State.consume_acc (n : Nat) (s : State) : (s.consume n).acc = s.acc := rfl
@[simp] theorem State.consume_shift (n : Nat) (s : State) : (s.consume n).shift = s.shift := rfl
@[simp] theorem State.consume_header (n : Nat) (s : State) : (s.consume n).header = s.header := rfl
@[simp] theorem State.consume_unpackAcc (n : Nat) (s : State) : (s.consume n).unpackAcc = s.unpackAcc := rfl
@[simp] theorem State.consume_fill (n : Nat) (s : State) : (s.consume n).fill = s.fill := rfl
@[simp] theorem State.consume_pending (n : Nat) (s : State) : (s.consume n).pending = s.pending := rfl
@[simp] theorem State.consume_rsp (n : Nat) (s : State) : (s.consume n).rsp = s.rsp := rfl

/-! ### `continueVarint` -/

@[simp] theorem continueVarint_params (p : BitVec 7) (s : State) : (continueVarint p s).params = s.params := rfl
@[simp] theorem continueVarint_currentValue (p : BitVec 7) (s : State) : (continueVarint p s).currentValue = s.currentValue := rfl
@[simp] theorem continueVarint_currentCount (p : BitVec 7) (s : State) : (continueVarint p s).currentCount = s.currentCount := rfl
@[simp] theorem continueVarint_mode (p : BitVec 7) (s : State) : (continueVarint p s).mode = s.mode := rfl
@[simp] theorem continueVarint_pos (p : BitVec 7) (s : State) : (continueVarint p s).pos = s.pos := rfl
@[simp] theorem continueVarint_kind (p : BitVec 7) (s : State) : (continueVarint p s).kind = s.kind := rfl
@[simp] theorem continueVarint_bitWidth (p : BitVec 7) (s : State) : (continueVarint p s).bitWidth = s.bitWidth := rfl
@[simp] theorem continueVarint_constOnly (p : BitVec 7) (s : State) : (continueVarint p s).constOnly = s.constOnly := rfl
@[simp] theorem continueVarint_fault (p : BitVec 7) (s : State) : (continueVarint p s).fault = s.fault := rfl
@[simp] theorem continueVarint_buf (p : BitVec 7) (s : State) : (continueVarint p s).buf = s.buf := rfl
@[simp] theorem continueVarint_out (p : BitVec 7) (s : State) : (continueVarint p s).out = s.out := rfl
@[simp] theorem continueVarint_input (p : BitVec 7) (s : State) : (continueVarint p s).input = s.input := rfl
@[simp] theorem continueVarint_acc (p : BitVec 7) (s : State) : (continueVarint p s).acc = accumulated p s := rfl
@[simp] theorem continueVarint_shift (p : BitVec 7) (s : State) : (continueVarint p s).shift = s.shift + 7 := rfl
@[simp] theorem continueVarint_header (p : BitVec 7) (s : State) : (continueVarint p s).header = s.header := rfl
@[simp] theorem continueVarint_unpackAcc (p : BitVec 7) (s : State) : (continueVarint p s).unpackAcc = s.unpackAcc := rfl
@[simp] theorem continueVarint_fill (p : BitVec 7) (s : State) : (continueVarint p s).fill = s.fill := rfl
@[simp] theorem continueVarint_pending (p : BitVec 7) (s : State) : (continueVarint p s).pending = s.pending := rfl
@[simp] theorem continueVarint_rsp (p : BitVec 7) (s : State) : (continueVarint p s).rsp = s.rsp := rfl

/-! ### `emitVarint` -/

@[simp] theorem emitVarint_params (p : BitVec 7) (s : State) : (emitVarint p s).params = s.params := rfl
@[simp] theorem emitVarint_currentValue (p : BitVec 7) (s : State) : (emitVarint p s).currentValue = s.currentValue := rfl
@[simp] theorem emitVarint_currentCount (p : BitVec 7) (s : State) : (emitVarint p s).currentCount = s.currentCount := rfl
@[simp] theorem emitVarint_mode (p : BitVec 7) (s : State) : (emitVarint p s).mode = s.mode := rfl
@[simp] theorem emitVarint_pos (p : BitVec 7) (s : State) : (emitVarint p s).pos = s.pos := rfl
@[simp] theorem emitVarint_kind (p : BitVec 7) (s : State) : (emitVarint p s).kind = s.kind := rfl
@[simp] theorem emitVarint_bitWidth (p : BitVec 7) (s : State) : (emitVarint p s).bitWidth = s.bitWidth := rfl
@[simp] theorem emitVarint_constOnly (p : BitVec 7) (s : State) : (emitVarint p s).constOnly = s.constOnly := rfl
@[simp] theorem emitVarint_fault (p : BitVec 7) (s : State) : (emitVarint p s).fault = s.fault := rfl
@[simp] theorem emitVarint_buf (p : BitVec 7) (s : State) : (emitVarint p s).buf = s.buf := rfl
@[simp] theorem emitVarint_out (p : BitVec 7) (s : State) : (emitVarint p s).out = s.out := rfl
@[simp] theorem emitVarint_input (p : BitVec 7) (s : State) : (emitVarint p s).input = s.input := rfl
@[simp] theorem emitVarint_acc (p : BitVec 7) (s : State) : (emitVarint p s).acc = 0 := rfl
@[simp] theorem emitVarint_shift (p : BitVec 7) (s : State) : (emitVarint p s).shift = 0 := rfl
@[simp] theorem emitVarint_header (p : BitVec 7) (s : State) : (emitVarint p s).header = some (accumulated p s) := rfl
@[simp] theorem emitVarint_unpackAcc (p : BitVec 7) (s : State) : (emitVarint p s).unpackAcc = s.unpackAcc := rfl
@[simp] theorem emitVarint_fill (p : BitVec 7) (s : State) : (emitVarint p s).fill = s.fill := rfl
@[simp] theorem emitVarint_pending (p : BitVec 7) (s : State) : (emitVarint p s).pending = s.pending := rfl
@[simp] theorem emitVarint_rsp (p : BitVec 7) (s : State) : (emitVarint p s).rsp = s.rsp := rfl

end Sys2Proof.Machine
end

