-- ==== Sys2Proof/Laws/Ops.lean ====
section
/-! SUPPORT. The laws of the shared operations: how a command's operations are put together (`Res.bind`),
the output space, the cursor, the dictionary, the lookup of a code. -/

namespace Sys2Proof.Machine

/-! ### Putting operations together -/

@[simp] theorem Res.bind_ok {α β : Type} (a : α) (s : State) (k : α → State → Res β) :
    (Res.ok a s).bind k = k a s := rfl

@[simp] theorem Res.bind_raised {α β : Type} (f : FaultCode) (s : State) (k : α → State → Res β) :
    (Res.raised f s : Res α).bind k = .raised f s := rfl

@[simp] theorem Res.bind_refused {α β : Type} (r : Refusal) (k : α → State → Res β) :
    (Res.refused r : Res α).bind k = .refused r := rfl

/-- What a composed operation can do when it goes on. -/
theorem Res.bind_eq_ok {α β : Type} {r : Res α} {k : α → State → Res β} {b : β} {t : State} :
    r.bind k = .ok b t ↔ ∃ a s, r = .ok a s ∧ k a s = .ok b t := by
  cases r <;> simp [Res.bind]

/-- What a composed operation can do when it raises a fault. -/
theorem Res.bind_eq_raised {α β : Type} {r : Res α} {k : α → State → Res β} {f : FaultCode} {t : State} :
    r.bind k = .raised f t ↔
      r = .raised f t ∨ ∃ a s, r = .ok a s ∧ k a s = .raised f t := by
  cases r <;> simp [Res.bind]

/-- What a composed operation can do when it has no meaning. -/
theorem Res.bind_eq_refused {α β : Type} {r : Res α} {k : α → State → Res β} {x : Refusal} :
    r.bind k = .refused x ↔ r = .refused x ∨ ∃ a s, r = .ok a s ∧ k a s = .refused x := by
  cases r <;> simp [Res.bind]

theorem Res.bind_assoc {α β γ : Type} (r : Res α) (k : α → State → Res β) (l : β → State → Res γ) :
    (r.bind k).bind l = r.bind fun a s => (k a s).bind l := by
  cases r <;> rfl

@[simp] theorem Res.settle_ok (s : State) : (Res.ok () s).settle = .next s := rfl

@[simp] theorem Res.settle_raised (f : FaultCode) (s : State) :
    (Res.raised f s : Res Unit).settle = .next (s.raiseFault f) := rfl

@[simp] theorem Res.settle_refused (r : Refusal) : (Res.refused r : Res Unit).settle = .refused r := rfl

/-! ### The output space -/

@[simp] theorem OutMem.read_nil (j : Nat) : OutMem.read [] j = none := rfl

@[simp] theorem OutMem.read_cons (e : Nat × Nat) (m : OutMem) (j : Nat) :
    OutMem.read (e :: m) j = if j = e.1 then some e.2 else m.read j := by
  obtain ⟨k, u⟩ := e
  by_cases h : j = k
  · simp [OutMem.read, h]
  · have hk : (j == k) = false := by simpa using h
    simp [OutMem.read, List.lookup, h, hk]

/-- Reading after a write: the word written has the new value, every other word its old one. -/
theorem OutMem.read_write (m : OutMem) (i v j : Nat) :
    (m.write i v).read j = if j = i then some v else m.read j := by
  induction m with
  | nil => simp [OutMem.write]
  | cons e m ih =>
    obtain ⟨k, u⟩ := e
    simp only [OutMem.write]
    split
    · simp
    · split
      · subst_vars
        by_cases h : j = k <;> simp [h]
      · by_cases h : j = k
        · have : k ≠ i := by omega
          simp [h, this]
        · simp [h, ih]

/-- The words of the output space after a write. -/
theorem OutMem.mem_write {m : OutMem} {i v : Nat} {e : Nat × Nat} (h : e ∈ m.write i v) :
    e = (i, v) ∨ e ∈ m := by
  induction m with
  | nil => simpa [OutMem.write] using h
  | cons e' m ih =>
    obtain ⟨k, u⟩ := e'
    simp only [OutMem.write] at h
    split at h
    · simpa using h
    · split at h
      · rcases List.mem_cons.1 h with h | h
        · exact .inl h
        · exact .inr (List.mem_cons_of_mem _ h)
      · rcases List.mem_cons.1 h with h | h
        · exact .inr (by simp [h])
        · rcases ih h with h | h
          · exact .inl h
          · exact .inr (List.mem_cons_of_mem _ h)

theorem OutMem.wf_cons {e : Nat × Nat} {m : OutMem} :
    OutMem.wf (e :: m) = true ↔ (∀ x ∈ m, e.1 < x.1) ∧ OutMem.wf m = true := by
  simp [OutMem.wf, List.pairwise_cons]

/-- A write keeps the canonical form. -/
theorem OutMem.wf_write {m : OutMem} (h : m.wf = true) (i v : Nat) : (m.write i v).wf = true := by
  induction m with
  | nil => simp [OutMem.write, OutMem.wf]
  | cons e m ih =>
    obtain ⟨k, u⟩ := e
    have hm := OutMem.wf_cons.1 h
    simp only [OutMem.write]
    split
    · rename_i hik
      refine OutMem.wf_cons.2 ⟨?_, h⟩
      intro x hx
      rcases List.mem_cons.1 hx with rfl | hx
      · exact hik
      · exact Nat.lt_trans hik (hm.1 x hx)
    · split
      · subst_vars
        exact OutMem.wf_cons.2 hm
      · refine OutMem.wf_cons.2 ⟨?_, ih hm.2⟩
        intro x hx
        rcases OutMem.mem_write hx with rfl | hx
        · simp only
          omega
        · exact hm.1 x hx

theorem OutMem.wf_nil : OutMem.wf [] = true := by decide

theorem OutMem.wf_filter {m : OutMem} (h : m.wf = true) (p : Nat × Nat → Bool) :
    OutMem.wf (m.filter p) = true := by
  induction m with
  | nil => exact h
  | cons e m ih =>
    have hm := OutMem.wf_cons.1 h
    simp only [List.filter]
    split
    · refine OutMem.wf_cons.2 ⟨fun x hx => hm.1 x (List.mem_filter.1 hx).1, ih hm.2⟩
    · exact ih hm.2

theorem OutMem.mem_splice {cut : Nat} {new old : OutMem} {e : Nat × Nat}
    (h : e ∈ OutMem.splice cut new old) : (e ∈ new ∧ e.1 < cut) ∨ (e ∈ old ∧ cut ≤ e.1) := by
  simpa [OutMem.splice, List.mem_append, List.mem_filter] using h

/-- Splicing keeps the canonical form. -/
theorem OutMem.wf_splice {new old : OutMem} (hn : new.wf = true) (ho : old.wf = true) (cut : Nat) :
    (OutMem.splice cut new old).wf = true := by
  have h1 := OutMem.wf_filter hn (fun e => decide (e.1 < cut))
  have h2 := OutMem.wf_filter ho (fun e => decide (cut ≤ e.1))
  simp only [OutMem.wf, OutMem.splice, List.map_append, decide_eq_true_eq] at *
  refine List.pairwise_append.2 ⟨h1, h2, ?_⟩
  intro a ha b hb
  simp only [List.mem_map, List.mem_filter, decide_eq_true_eq] at ha hb
  obtain ⟨x, ⟨-, hx⟩, rfl⟩ := ha
  obtain ⟨y, ⟨-, hy⟩, rfl⟩ := hb
  omega

theorem OutMem.read_filter (m : OutMem) (p : Nat → Bool) (j : Nat) :
    OutMem.read (m.filter fun e => p e.1) j = if p j then m.read j else none := by
  induction m with
  | nil => simp
  | cons e m ih =>
    obtain ⟨k, u⟩ := e
    by_cases hjk : j = k
    · subst hjk
      by_cases hp : p j <;> simp [List.filter, hp, ih]
    · by_cases hp : p k <;> simp [List.filter, hp, hjk, ih]

/-- A spliced output space reads as the new one below the cut and as the old one from it on. -/
theorem OutMem.read_splice (cut : Nat) (new old : OutMem) (j : Nat) :
    (OutMem.splice cut new old).read j = if j < cut then new.read j else old.read j := by
  have h1 := OutMem.read_filter new (fun k => decide (k < cut)) j
  have h2 := OutMem.read_filter old (fun k => decide (cut ≤ k)) j
  have happ : (OutMem.splice cut new old).read j =
      ((OutMem.read (new.filter fun e => decide (e.1 < cut)) j).or
        (OutMem.read (old.filter fun e => decide (cut ≤ e.1)) j)) := by
    simp [OutMem.splice, OutMem.read, List.lookup_append]
  rw [happ, h1, h2]
  by_cases h : j < cut
  · have : ¬ cut ≤ j := by omega
    simp [h, this]
  · have : cut ≤ j := by omega
    simp [h, this]

/-! ### The cursor -/

theorem State.avail_advance (n : Nat) (s : State) : (s.advance n).avail = s.avail - n := by
  simp [State.avail]
  omega

theorem State.window_length (n : Nat) (s : State) : (s.window n).length = min n s.avail := by
  simp [State.window, State.avail]

/-- A byte is there exactly when the cursor is not empty. -/
theorem State.byte_some_iff (s : State) : (∃ b, s.input[s.pos]? = some b) ↔ 0 < s.avail := by
  constructor
  · rintro ⟨b, hb⟩
    have := (List.getElem?_eq_some_iff.1 hb).1
    simp only [State.avail]
    omega
  · intro h
    simp only [State.avail] at h
    exact ⟨_, List.getElem?_eq_getElem (by omega)⟩

/-! ### A code looked up -/

theorem resolve_hit {c : Word} {v : Nat} {s : State} (h : dictResolve s.params.dict c = some v) :
    resolve c s = .ok v s := by
  simp [resolve, h]

theorem resolve_miss {c : Word} {s : State} (h : dictResolve s.params.dict c = none) :
    resolve c s = .raised .dictionaryMiss s := by
  simp [resolve, h]

/-- All a lookup can do. -/
theorem resolve_cases (c : Word) (s : State) :
    (∃ v, dictResolve s.params.dict c = some v ∧ resolve c s = .ok v s) ∨
      (dictResolve s.params.dict c = none ∧ resolve c s = .raised .dictionaryMiss s) := by
  rcases h : dictResolve s.params.dict c with _ | v
  · exact .inr ⟨rfl, resolve_miss h⟩
  · exact .inl ⟨v, rfl, resolve_hit h⟩

/-- A value the dictionary gives stands in it. -/
theorem dictResolve_mem {d : Dict} {c : Word} {v : Nat} (h : dictResolve d c = some v) : (c, v) ∈ d := by
  induction d with
  | nil => simp [dictResolve, List.lookup] at h
  | cons e d ih =>
    obtain ⟨k, u⟩ := e
    simp only [dictResolve, List.lookup] at h ih
    split at h
    · rename_i hk
      simp_all
    · exact List.mem_cons_of_mem _ (ih h)

end Sys2Proof.Machine
end

