-- ==== Sys2Proof/Laws/Copy.lean ====
section
/-! SUPPORT. Everything the copy of one iteration of READNEXT can do (spec/43_typed_reader.md R115 to R117): the
words it writes when every code is in the dictionary, and what it leaves alone in any case. -/

namespace Sys2Proof.Machine

/-! ### Words written in ascending order -/

/-- Consecutive words written from an index on. -/
def OutMem.writeWords : List Nat → Nat → OutMem → OutMem
  | [], _, m => m
  | v :: vs, i, m => OutMem.writeWords vs (i + 1) (m.write i v)

theorem OutMem.writeWords_append (vs us : List Nat) (i : Nat) (m : OutMem) :
    OutMem.writeWords (vs ++ us) i m =
      OutMem.writeWords us (i + vs.length) (OutMem.writeWords vs i m) := by
  induction vs generalizing i m with
  | nil => rfl
  | cons v vs ih =>
    rw [List.cons_append, OutMem.writeWords, ih, OutMem.writeWords, List.length_cons]
    congr 1
    omega

/-- What consecutive writes leave: the words written, and every other word as before. -/
theorem OutMem.read_writeWords (vs : List Nat) (i : Nat) (m : OutMem) (j : Nat) :
    (OutMem.writeWords vs i m).read j = if i ≤ j ∧ j < i + vs.length then vs[j - i]? else m.read j := by
  induction vs generalizing i m with
  | nil =>
    rw [if_neg (by simp)]
    rfl
  | cons v vs ih =>
    rw [OutMem.writeWords, ih, OutMem.read_write, List.length_cons]
    by_cases h1 : j = i
    · subst h1
      rw [if_neg (by omega), if_pos rfl, if_pos (by omega), Nat.sub_self]
      rfl
    · by_cases h2 : i + 1 ≤ j ∧ j < i + 1 + vs.length
      · have : j - i = (j - (i + 1)) + 1 := by omega
        rw [if_pos h2, if_pos (by omega), this, List.getElem?_cons_succ]
      · rw [if_neg h2, if_neg h1, if_neg (by omega)]

theorem OutMem.wf_writeWords {m : OutMem} (h : m.wf = true) (vs : List Nat) (i : Nat) :
    (OutMem.writeWords vs i m).wf = true := by
  induction vs generalizing i m with
  | nil => exact h
  | cons v vs ih => exact ih (OutMem.wf_write h i v) (i + 1)

theorem OutMem.mem_writeWords {vs : List Nat} {i : Nat} {m : OutMem} {e : Nat × Nat}
    (h : e ∈ OutMem.writeWords vs i m) : e ∈ m ∨ (i ≤ e.1 ∧ e.1 < i + vs.length ∧ e.2 ∈ vs) := by
  induction vs generalizing i m with
  | nil => exact .inl h
  | cons v vs ih =>
    rcases ih h with h | ⟨h1, h2, h3⟩
    · rcases OutMem.mem_write h with rfl | h
      · exact .inr (by simp)
      · exact .inl h
    · refine .inr ⟨by omega, ?_, List.mem_cons_of_mem _ h3⟩
      rw [List.length_cons]
      omega

/-! ### The copy when every code is in the dictionary -/

theorem writeRun_eq (v n i : Nat) (s : State) :
    writeRun v n i s = { s with out := OutMem.writeWords (List.replicate n v) i s.out } := by
  induction n generalizing i s with
  | zero => rfl
  | succ n ih =>
    rw [writeRun, ih]
    rfl

theorem copySlots_hits {f : Word → Nat} (cs : List Word) (i : Nat) (s : State)
    (h : ∀ c ∈ cs, dictResolve s.params.dict c = some (f c)) :
    copySlots cs i s = .ok () { s with out := OutMem.writeWords (cs.map f) i s.out } := by
  induction cs generalizing i s with
  | nil => rfl
  | cons c cs ih =>
    rw [copySlots, resolve_hit (h c (by simp)), Res.bind_ok, ih (i + 1) (s.outWrite i (f c))
      (fun c' hc' => h c' (by simp [hc']))]
    rfl

theorem copyOut_of_run {s : State} (hm : s.mode = .run) (n i : Nat) :
    copyOut n i s = (resolve s.currentValue s).bind fun v s1 => .ok () (writeRun v n i s1) := by
  simp only [copyOut, hm]

theorem copyOut_of_packed {s : State} (hm : s.mode = .packed) (n i : Nat) :
    copyOut n i s = copySlots (s.nextSlots n) i s := by
  simp only [copyOut, hm]

/-- A copy in RUN mode: one lookup, `n` writes (R116). -/
theorem copyOut_run {n i v : Nat} {s : State} (hm : s.mode = .run)
    (h : dictResolve s.params.dict s.currentValue = some v) :
    copyOut n i s = .ok () { s with out := OutMem.writeWords (List.replicate n v) i s.out } := by
  rw [copyOut_of_run hm, resolve_hit h, Res.bind_ok, writeRun_eq]

/-- A copy in RUN mode of a value that is not in the dictionary, also of no word (R116; D15). -/
theorem copyOut_run_miss {n i : Nat} {s : State} (hm : s.mode = .run)
    (h : dictResolve s.params.dict s.currentValue = none) :
    copyOut n i s = .raised .dictionaryMiss s := by
  rw [copyOut_of_run hm, resolve_miss h, Res.bind_raised]

/-- A copy in PACKED mode (R117). -/
theorem copyOut_packed {f : Word → Nat} {n i : Nat} {s : State} (hm : s.mode = .packed)
    (h : ∀ c ∈ s.nextSlots n, dictResolve s.params.dict c = some (f c)) :
    copyOut n i s = .ok () { s with out := OutMem.writeWords ((s.nextSlots n).map f) i s.out } := by
  rw [copyOut_of_packed hm, copySlots_hits _ _ _ h]

/-- A copy in PACKED mode up to the first missing code: the words before it are written (R145, R150). -/
theorem copySlots_miss {f : Word → Nat} {c : Word} (cs rest : List Word) (i : Nat) (s : State)
    (h : ∀ c ∈ cs, dictResolve s.params.dict c = some (f c)) (hc : dictResolve s.params.dict c = none) :
    copySlots (cs ++ c :: rest) i s =
      .raised .dictionaryMiss { s with out := OutMem.writeWords (cs.map f) i s.out } := by
  induction cs generalizing i s with
  | nil =>
    rw [List.nil_append, copySlots, resolve_miss hc]
    rfl
  | cons a cs ih =>
    rw [List.cons_append, copySlots, resolve_hit (h a (by simp)), Res.bind_ok,
      ih (i + 1) (s.outWrite i (f a)) (fun c' hc' => h c' (by simp [hc'])) hc]
    rfl

/-! ### What a copy leaves alone -/

/-- A state after output writes at indices `i` to `i + n - 1`, each of a domain value of the dictionary:
nothing but the output space has changed, and it only there. -/
structure CopyFrame (i n : Nat) (s t : State) : Prop where
  rest : t = { s with out := t.out }
  outside : ∀ j, j < i ∨ i + n ≤ j → t.out.read j = s.out.read j
  wf : s.out.wf = true → t.out.wf = true
  words : ∀ e ∈ t.out, e ∈ s.out ∨
    (i ≤ e.1 ∧ e.1 < i + n ∧ ∃ c, dictResolve s.params.dict c = some e.2)

theorem CopyFrame.refl (i n : Nat) (s : State) : CopyFrame i n s s :=
  ⟨rfl, fun _ _ => rfl, id, fun _ h => .inl h⟩

theorem CopyFrame.of_writeWords {i n : Nat} {s : State} {vs : List Nat} (hl : vs.length ≤ n)
    (hv : ∀ v ∈ vs, ∃ c, dictResolve s.params.dict c = some v) :
    CopyFrame i n s { s with out := OutMem.writeWords vs i s.out } := by
  refine ⟨rfl, fun j hj => ?_, fun h => OutMem.wf_writeWords h vs i, fun e he => ?_⟩
  · simp only [OutMem.read_writeWords]
    rw [if_neg (by omega)]
  · rcases OutMem.mem_writeWords he with h | ⟨h1, h2, h3⟩
    · exact .inl h
    · exact .inr ⟨h1, by omega, hv _ h3⟩

/-- The codes of a list up to the first that is not in the dictionary. -/
theorem copySlots_cases (cs : List Word) (i : Nat) (s : State) :
    (∃ t, copySlots cs i s = .ok () t ∧ CopyFrame i cs.length s t) ∨
      ∃ t, copySlots cs i s = .raised .dictionaryMiss t ∧ CopyFrame i cs.length s t := by
  have key : (∃ f : Word → Nat, ∀ c ∈ cs, dictResolve s.params.dict c = some (f c)) ∨
      ∃ f : Word → Nat, ∃ hits c rest, cs = hits ++ c :: rest ∧
        (∀ c ∈ hits, dictResolve s.params.dict c = some (f c)) ∧ dictResolve s.params.dict c = none := by
    have hf : ∀ c v, dictResolve s.params.dict c = some v →
        dictResolve s.params.dict c = some ((dictResolve s.params.dict c).getD 0) := by
      intro c v h
      rw [h]
      rfl
    induction cs with
    | nil => exact .inl ⟨fun _ => 0, by simp⟩
    | cons a cs ih =>
      rcases ha : dictResolve s.params.dict a with _ | v
      · exact .inr ⟨fun _ => 0, [], a, cs, rfl, by simp, ha⟩
      · rcases ih with ⟨f, h⟩ | ⟨f, hits, c, rest, rfl, h, hc⟩
        · refine .inl ⟨fun c => (dictResolve s.params.dict c).getD 0, fun c hc => ?_⟩
          rcases List.mem_cons.1 hc with rfl | hc
          · exact hf _ _ ha
          · exact hf _ _ (h c hc)
        · refine .inr ⟨fun c => (dictResolve s.params.dict c).getD 0, a :: hits, c, rest, rfl, ?_, hc⟩
          intro c hc
          rcases List.mem_cons.1 hc with rfl | hc
          · exact hf _ _ ha
          · exact hf _ _ (h c hc)
  rcases key with ⟨f, h⟩ | ⟨f, hits, c, rest, rfl, h, hc⟩
  · refine .inl ⟨_, copySlots_hits cs i s h, CopyFrame.of_writeWords (by simp) fun v hv => ?_⟩
    obtain ⟨c, hc, rfl⟩ := List.mem_map.1 hv
    exact ⟨c, h c hc⟩
  · refine .inr ⟨_, copySlots_miss hits rest i s h hc, CopyFrame.of_writeWords (by simp) fun v hv => ?_⟩
    obtain ⟨c, hc, rfl⟩ := List.mem_map.1 hv
    exact ⟨c, h c hc⟩

theorem CopyFrame.mono {i n m : Nat} {s t : State} (h : CopyFrame i n s t) (hn : n ≤ m) :
    CopyFrame i m s t :=
  ⟨h.rest, fun j hj => h.outside j (by omega), h.wf, fun e he => (h.words e he).imp id fun ⟨h1, h2, h3⟩ =>
    ⟨h1, by omega, h3⟩⟩

/-- All a copy can do. -/
theorem copyOut_cases (n i : Nat) (s : State) :
    (∃ t, copyOut n i s = .ok () t ∧ CopyFrame i n s t) ∨
      ∃ t, copyOut n i s = .raised .dictionaryMiss t ∧ CopyFrame i n s t := by
  cases hm : s.mode with
  | run =>
    rcases hd : dictResolve s.params.dict s.currentValue with _ | v
    · exact .inr ⟨s, copyOut_run_miss hm hd, CopyFrame.refl i n s⟩
    · refine .inl ⟨_, copyOut_run hm hd, CopyFrame.of_writeWords (by simp) fun u hu => ?_⟩
      rw [(List.mem_replicate.1 hu).2]
      exact ⟨_, hd⟩
  | packed =>
    have hl : (s.nextSlots n).length ≤ n := by
      rw [State.nextSlots, List.length_take]
      omega
    have he := copyOut_of_packed hm n i
    rcases copySlots_cases (s.nextSlots n) i s with ⟨t, h1, h2⟩ | ⟨t, h1, h2⟩
    · exact .inl ⟨t, he.trans h1, h2.mono hl⟩
    · exact .inr ⟨t, he.trans h1, h2.mono hl⟩

end Sys2Proof.Machine
end

