-- ==== Sys2Proof/Laws/Encoding.lean ====
section
/-! SUPPORT. The laws of byte order and bit fields: little-endian assembly and its inverse, the fields of a
number, the bits of a header byte and of a header value. -/

namespace Sys2Proof

/-! ### Little-endian assembly -/

@[simp] theorem leNat_nil : leNat [] = 0 := rfl

@[simp] theorem leNat_cons (b : Byte) (bs : List Byte) : leNat (b :: bs) = b.toNat + 256 * leNat bs := rfl

theorem leNat_append (xs ys : List Byte) :
    leNat (xs ++ ys) = leNat xs + 2 ^ (8 * xs.length) * leNat ys := by
  induction xs with
  | nil => simp
  | cons b bs ih =>
    have h : 2 ^ (8 * (b :: bs).length) = 256 * 2 ^ (8 * bs.length) := by
      rw [List.length_cons, Nat.mul_add, Nat.pow_add]
      ring
    rw [List.cons_append, leNat_cons, leNat_cons, ih, h]
    ring

/-- A byte string of `n` bytes is a number of `8 n` bits. -/
theorem leNat_lt (bs : List Byte) : leNat bs < 2 ^ (8 * bs.length) := by
  induction bs with
  | nil => simp
  | cons b bs ih =>
    have hb := b.isLt
    have h : 2 ^ (8 * (b :: bs).length) = 256 * 2 ^ (8 * bs.length) := by
      rw [List.length_cons, Nat.mul_add, Nat.pow_add]
      ring
    rw [leNat_cons, h]
    omega

@[simp] theorem leBytes_length (k n : Nat) : (leBytes k n).length = k := by
  induction k generalizing n with
  | zero => rfl
  | succ k ih => simp [leBytes, ih]

/-- The bytes of a number assemble to its low `8 k` bits. -/
theorem leNat_leBytes (k n : Nat) : leNat (leBytes k n) = n % 2 ^ (8 * k) := by
  induction k generalizing n with
  | zero => simp [leBytes, Nat.mod_one]
  | succ k ih =>
    have h : 2 ^ (8 * (k + 1)) = 256 * 2 ^ (8 * k) := by
      rw [Nat.mul_add, Nat.pow_add]
      ring
    rw [leBytes, leNat_cons, ih, h, Nat.mod_mul]
    simp

/-- A byte string is the bytes of the number it assembles to. -/
theorem leBytes_leNat (bs : List Byte) : leBytes bs.length (leNat bs) = bs := by
  induction bs with
  | nil => rfl
  | cons b bs ih =>
    have hb := b.isLt
    have h1 : (b.toNat + 256 * leNat bs) / 256 = leNat bs := by omega
    have h2 : BitVec.ofNat 8 (b.toNat + 256 * leNat bs) = b := by
      apply BitVec.eq_of_toNat_eq
      rw [BitVec.toNat_ofNat]
      omega
    rw [leNat_cons, List.length_cons, leBytes, h1, h2, ih]

/-- Zero bytes above a byte string add nothing. -/
theorem leNat_append_zeros (bs : List Byte) (n : Nat) : leNat (bs ++ List.replicate n 0) = leNat bs := by
  have h : leNat (List.replicate n (0 : Byte)) = 0 := by
    induction n with
    | zero => rfl
    | succ n ih => rw [List.replicate_succ, leNat_cons, ih]; rfl
  rw [leNat_append, h]
  simp

/-! ### Header bytes and header values -/

theorem decodeVByte_cont {b : Byte} (h : b.getLsbD 7 = true) :
    decodeVByte b = .cont (b.extractLsb' 0 7) := by
  simp only [decodeVByte, h, if_true]

theorem decodeVByte_last {b : Byte} (h : b.getLsbD 7 = false) :
    decodeVByte b = .last (b.extractLsb' 0 7) := by
  simp only [decodeVByte, h]
  rfl

/-- The payload of a header byte: its low seven bits. -/
theorem payload_toNat (b : Byte) : (b.extractLsb' 0 7).toNat = b.toNat % 128 := by
  simp

/-- Bit 7 of a byte, as a comparison. -/
theorem getLsbD_seven (b : Byte) : b.getLsbD 7 = decide (128 ≤ b.toNat) := by
  have h := b.isLt
  rw [BitVec.getLsbD, Nat.testBit_eq_decide_div_mod_eq]
  congr 1
  apply propext
  omega

/-- A header value as a number: the count above bit 0. -/
theorem headerWord_toNat (n : BitVec 31) (b : BitVec 1) :
    BitVec.toNat (n ++ b) = 2 * n.toNat + b.toNat := by
  have hb := b.isLt
  rw [BitVec.toNat_append, ← Nat.shiftLeft_add_eq_or_of_lt (by omega), Nat.shiftLeft_eq]
  omega

theorem header_getLsbD (h : Word) : h.getLsbD 0 = decide (h.toNat % 2 = 1) := by
  rw [BitVec.getLsbD, Nat.testBit_eq_decide_div_mod_eq]
  simp

theorem header_count (h : Word) : (h.extractLsb' 1 31).toNat = h.toNat / 2 := by
  have hh := h.isLt
  simp only [BitVec.extractLsb'_toNat, Nat.shiftRight_eq_div_pow]
  omega

theorem header_bit (h : Word) : (h.extractLsb' 0 1).toNat = h.toNat % 2 := by
  simp

/-- The header of a run is read as that run. -/
theorem header_run (n : BitVec 31) : decodeHeader .generic (n ++ 0#1) = .run n := by
  have hn := headerWord_toNat n 0#1
  have h0 : BitVec.getLsbD (w := 32) (n ++ 0#1) 0 = false := by
    rw [header_getLsbD, hn]
    simp
  have h1 : BitVec.extractLsb' (n := 32) 1 31 (n ++ 0#1) = n := by
    apply BitVec.eq_of_toNat_eq
    rw [header_count, hn]
    simp
  simp only [decodeHeader, h0, h1]
  rfl

/-- The header of a packed record is read as that record. -/
theorem header_packed (g : BitVec 31) : decodeHeader .generic (g ++ 1#1) = .packed g := by
  have hn := headerWord_toNat g 1#1
  have h0 : BitVec.getLsbD (w := 32) (g ++ 1#1) 0 = true := by
    rw [header_getLsbD, hn]
    simp
  have h1 : BitVec.extractLsb' (n := 32) 1 31 (g ++ 1#1) = g := by
    apply BitVec.eq_of_toNat_eq
    rw [header_count, hn]
    simp
    omega
  simp only [decodeHeader, h0, h1]
  rfl

/-- The header of a SingleBit run is read as that run. -/
theorem header_brun (n : BitVec 31) (b : BitVec 1) :
    decodeHeader .singleBit (n ++ b) = .brun n b := by
  have hb := b.isLt
  have hn := headerWord_toNat n b
  have h0 : BitVec.extractLsb' (n := 32) 0 1 (n ++ b) = b := by
    apply BitVec.eq_of_toNat_eq
    rw [header_bit, hn]
    omega
  have h1 : BitVec.extractLsb' (n := 32) 1 31 (n ++ b) = n := by
    apply BitVec.eq_of_toNat_eq
    rw [header_count, hn]
    omega
  simp only [decodeHeader, h0, h1]

/-! ### The fields of a number -/

namespace Machine

/-- A field fits its width. -/
theorem fieldOf_lt (w a k : Nat) (h : w ≤ 32) : (fieldOf w a k).toNat < 2 ^ w := by
  have h1 : a / 2 ^ (w * k) % 2 ^ w < 2 ^ w := Nat.mod_lt _ (Nat.two_pow_pos w)
  have h2 : 2 ^ w ≤ 2 ^ 32 := Nat.pow_le_pow_right (by decide) h
  rw [fieldOf, BitVec.toNat_ofNat, Nat.mod_eq_of_lt (Nat.lt_of_lt_of_le h1 h2)]
  exact h1

@[simp] theorem fieldsOf_length (w n : Nat) (bytes : List Byte) : (fieldsOf w n bytes).length = n := by
  simp [fieldsOf]

/-- Every field of a byte string fits its width. -/
theorem fieldsOf_lt {w n : Nat} {bytes : List Byte} (h : w ≤ 32) :
    ∀ v ∈ fieldsOf w n bytes, v.toNat < 2 ^ w := by
  intro v hv
  simp only [fieldsOf, List.mem_map] at hv
  obtain ⟨k, -, rfl⟩ := hv
  exact fieldOf_lt w _ k h

/-- The fields from `m` on are those of the number without its first `m` fields. -/
theorem fieldOf_shift (w a m k : Nat) : fieldOf w (a / 2 ^ (w * m)) k = fieldOf w a (m + k) := by
  simp only [fieldOf]
  rw [Nat.div_div_eq_div_mul, ← Nat.pow_add, Nat.mul_add]

/-- A field below the `m`-th does not see what stands from the `m`-th on. -/
theorem fieldOf_low (w a m k : Nat) (h : k < m) : fieldOf w (a % 2 ^ (w * m)) k = fieldOf w a k := by
  simp only [fieldOf]
  congr 1
  have h1 : w * m = w * k + w * (m - k) := by
    rw [← Nat.mul_add]
    congr 1
    omega
  have h2 : w * (m - k) = w + w * (m - k - 1) := by
    have : m - k = 1 + (m - k - 1) := by omega
    conv_lhs => rw [this, Nat.mul_add, Nat.mul_one]
  rw [h1, Nat.pow_add, Nat.mod_mul_right_div_self, h2, Nat.pow_add, Nat.mod_mul_right_mod]

end Machine

end Sys2Proof
end

