-- ==== Sys2Proof/Laws/Unpack.lean ====
section
/-! SUPPORT. Everything the Bit-Unpacker can do: the eight fields of a group, the fields of a payload, and the
inverse of packing (spec/41_unpack.md R80 to R87). -/

namespace Sys2Proof.Machine

/-! ### One group -/

theorem unpackLanes_eq (w n : Nat) (s : State) :
    unpackLanes w n s =
      { s with
        fill := s.fill ++ (List.range n).map fun i =>
          (s.unpackAcc >>> (w * i) &&& BitVec.ofNat 256 (2 ^ w - 1)).setWidth 32
        unpackAcc := s.unpackAcc >>> (w * n) } := by
  induction n generalizing s with
  | zero => simp [unpackLanes]
  | succ n ih =>
    rw [unpackLanes, ih]
    have h1 : (s.unpackAcc >>> w) >>> (w * n) = s.unpackAcc >>> (w * (n + 1)) := by
      rw [← BitVec.shiftRight_add]
      congr 1
      ring
    have h2 : (List.range (n + 1)).map (fun i =>
          (s.unpackAcc >>> (w * i) &&& BitVec.ofNat 256 (2 ^ w - 1)).setWidth 32) =
        (s.unpackAcc &&& BitVec.ofNat 256 (2 ^ w - 1)).setWidth 32 ::
          (List.range n).map fun i =>
            ((s.unpackAcc >>> w) >>> (w * i) &&& BitVec.ofNat 256 (2 ^ w - 1)).setWidth 32 := by
      rw [List.range_succ_eq_map, List.map_cons, List.map_map]
      refine List.cons_eq_cons.2 ⟨by rw [Nat.mul_zero, BitVec.ushiftRight_zero], ?_⟩
      apply List.map_congr_left
      intro i _
      simp only [Function.comp]
      rw [← BitVec.shiftRight_add, Nat.succ_eq_add_one, Nat.mul_add, Nat.mul_one, Nat.add_comm]
    rw [h2]
    simp only [unpackLane, h1, List.append_assoc, List.singleton_append]

/-- A lane of the wide accumulator is a field of the number it holds. -/
theorem lane_eq_fieldOf {w a : Nat} (i : Nat) (hw : w ≤ 32) (ha : a < 2 ^ 256) :
    (BitVec.ofNat 256 a >>> (w * i) &&& BitVec.ofNat 256 (2 ^ w - 1)).setWidth 32 = fieldOf w a i := by
  have h2 : 2 ^ w ≤ 2 ^ 32 := Nat.pow_le_pow_right (by decide) hw
  apply BitVec.eq_of_toNat_eq
  rw [BitVec.toNat_setWidth, BitVec.toNat_and, BitVec.toNat_ushiftRight, BitVec.toNat_ofNat,
    BitVec.toNat_ofNat, fieldOf, BitVec.toNat_ofNat, Nat.mod_eq_of_lt ha,
    Nat.mod_eq_of_lt (a := 2 ^ w - 1) (by omega), Nat.and_two_pow_sub_one_eq_mod,
    Nat.shiftRight_eq_div_pow]

/-- `Unpack8` (R80): a group of 1 to 32 bytes gives its eight fields, and the accumulator is drained. -/
theorem unpackGroup_eq {w : Nat} {group : List Byte} (s : State) (hw : 1 ≤ w ∧ w ≤ 32)
    (hl : group.length = w) :
    unpackGroup w group s = .ok () { s with fill := s.fill ++ fieldsOf w 8 group, unpackAcc := 0 } := by
  have hlt := leNat_lt group
  have h256 : leNat group < 2 ^ 256 :=
    Nat.lt_of_lt_of_le hlt (Nat.pow_le_pow_right (by decide) (by omega))
  have hz : BitVec.ofNat 256 (leNat group) >>> (w * 8) = 0 := by
    apply BitVec.eq_of_toNat_eq
    rw [BitVec.toNat_ushiftRight, BitVec.toNat_ofNat, Nat.mod_eq_of_lt h256, Nat.shiftRight_eq_div_pow]
    rw [hl, Nat.mul_comm] at hlt
    exact Nat.div_eq_of_lt hlt
  have hf : (List.range 8).map (fun i =>
      (BitVec.ofNat 256 (leNat group) >>> (w * i) &&& BitVec.ofNat 256 (2 ^ w - 1)).setWidth 32) =
      fieldsOf w 8 group := by
    apply List.map_congr_left
    intro i _
    exact lane_eq_fieldOf i hw.2 h256
  rw [unpackGroup, if_pos ⟨hw, hl⟩, unpackLanes_eq]
  simp only [hz, hf]

/-- Outside its widths `Unpack8` has no meaning (R82). -/
theorem unpackGroup_refused {w : Nat} {group : List Byte} (s : State)
    (h : ¬((1 ≤ w ∧ w ≤ 32) ∧ group.length = w)) : unpackGroup w group s = .refused .unpackWidth := by
  rw [unpackGroup, if_neg h]

/-! ### Groups in sequence -/

/-- The fields of a payload: those of its first group, then those of the rest (R86). -/
theorem fieldsOf_succ {w n : Nat} {payload : List Byte} (hl : payload.length = w * (n + 1)) :
    fieldsOf w 8 (payload.take w) ++ fieldsOf w (8 * n) (payload.drop w) = fieldsOf w (8 * (n + 1)) payload := by
  have hwle : w ≤ payload.length := by
    rw [hl]
    exact Nat.le_mul_of_pos_right w (by omega)
  have htake : (payload.take w).length = w := by rw [List.length_take]; omega
  have hsplit : leNat payload = leNat (payload.take w) + 2 ^ (8 * w) * leNat (payload.drop w) := by
    conv_lhs => rw [← List.take_append_drop w payload, leNat_append, htake]
  have hlt : leNat (payload.take w) < 2 ^ (8 * w) := by
    have := leNat_lt (payload.take w)
    rwa [htake] at this
  have hlow : leNat payload % 2 ^ (w * 8) = leNat (payload.take w) := by
    rw [hsplit, Nat.mul_comm w 8, Nat.add_mul_mod_self_left, Nat.mod_eq_of_lt hlt]
  have hhigh : leNat payload / 2 ^ (w * 8) = leNat (payload.drop w) := by
    rw [hsplit, Nat.mul_comm w 8, Nat.add_mul_div_left _ _ (Nat.two_pow_pos _), Nat.div_eq_of_lt hlt,
      Nat.zero_add]
  have hr : List.range (8 * (n + 1)) = List.range 8 ++ (List.range (8 * n)).map (8 + ·) := by
    rw [← List.range_add]
    congr 1
    ring
  rw [fieldsOf, fieldsOf, fieldsOf, hr, List.map_append, List.map_map]
  congr 1
  · apply List.map_congr_left
    intro i hi
    rw [← hlow]
    exact fieldOf_low w _ 8 i (List.mem_range.1 hi)
  · apply List.map_congr_left
    intro i _
    rw [← hhigh]
    exact fieldOf_shift w _ 8 i

/-- The groups of a payload, unpacked in sequence, give the fields of the whole payload (R86). -/
theorem unpackGroups_eq {w : Nat} (hw : 1 ≤ w ∧ w ≤ 32) (n : Nat) (payload : List Byte)
    (hl : payload.length = w * n) (s : State) :
    unpackGroups w n payload s =
      .ok () { s with
        fill := s.fill ++ fieldsOf w (8 * n) payload
        unpackAcc := if n = 0 then s.unpackAcc else 0 } := by
  induction n generalizing payload s with
  | zero => simp [unpackGroups, fieldsOf]
  | succ n ih =>
    have hwle : w ≤ payload.length := by
      rw [hl]
      exact Nat.le_mul_of_pos_right w (by omega)
    have htake : (payload.take w).length = w := by rw [List.length_take]; omega
    have hdrop : (payload.drop w).length = w * n := by
      rw [List.length_drop, hl, Nat.mul_add, Nat.mul_one, Nat.add_sub_cancel]
    rw [unpackGroups, unpackGroup_eq s hw htake, Res.bind_ok, ih _ hdrop]
    simp only [List.append_assoc, fieldsOf_succ hl]
    congr 2
    simp

/-! ### Packing -/

theorem packNat_lt {w : Nat} {vs : List Word} (h : ∀ v ∈ vs, v.toNat < 2 ^ w) :
    packNat w vs < 2 ^ (w * vs.length) := by
  induction vs with
  | nil => simp [packNat]
  | cons v vs ih =>
    have h1 := h v (by simp)
    have h2 := ih fun u hu => h u (by simp [hu])
    have h3 : 2 ^ (w * (v :: vs).length) = 2 ^ w * 2 ^ (w * vs.length) := by
      rw [List.length_cons, Nat.mul_add, Nat.pow_add, Nat.mul_one, Nat.mul_comm]
    have h4 : 2 ^ w * (packNat w vs + 1) ≤ 2 ^ w * 2 ^ (w * vs.length) := Nat.mul_le_mul_left _ h2
    rw [packNat, h3]
    rw [Nat.mul_add, Nat.mul_one] at h4
    omega

/-- The fields of a packed number are the values packed (R87). -/
theorem fieldOf_packNat {w : Nat} (hw : w ≤ 32) {vs : List Word} (h : ∀ v ∈ vs, v.toNat < 2 ^ w) :
    (List.range vs.length).map (fieldOf w (packNat w vs)) = vs := by
  induction vs with
  | nil => rfl
  | cons v vs ih =>
    have h1 := h v (by simp)
    have h2 := ih fun u hu => h u (by simp [hu])
    rw [List.length_cons, List.range_succ_eq_map, List.map_cons, List.map_map]
    congr 1
    · apply BitVec.eq_of_toNat_eq
      have h3 : 2 ^ w ≤ 2 ^ 32 := Nat.pow_le_pow_right (by decide) hw
      rw [fieldOf, BitVec.toNat_ofNat, packNat, Nat.mul_zero, Nat.pow_zero, Nat.div_one,
        Nat.add_mul_mod_self_left, Nat.mod_eq_of_lt h1, Nat.mod_eq_of_lt v.isLt]
    · conv_rhs => rw [← h2]
      apply List.map_congr_left
      intro i _
      have h3 : packNat w vs = packNat w (v :: vs) / 2 ^ (w * 1) := by
        rw [packNat, Nat.mul_one, Nat.add_mul_div_left _ _ (Nat.two_pow_pos w), Nat.div_eq_of_lt h1,
          Nat.zero_add]
      rw [h3, fieldOf_shift, Function.comp, Nat.add_comm]

/-- The bytes of `8 g` packed values are `w g`, and their fields are the values (R62, R87). -/
theorem fieldsOf_pack {w g : Nat} (hw : w ≤ 32) {vs : List Word} (hl : vs.length = 8 * g)
    (h : ∀ v ∈ vs, v.toNat < 2 ^ w) :
    (pack w vs).length = w * g ∧ fieldsOf w (8 * g) (pack w vs) = vs := by
  have hb : w * vs.length / 8 = w * g := by
    rw [hl, ← Nat.mul_assoc, Nat.mul_comm w 8, Nat.mul_assoc, Nat.mul_div_cancel_left _ (by decide)]
  have hlt := packNat_lt h
  refine ⟨by rw [pack, leBytes_length, hb], ?_⟩
  have hn : leNat (pack w vs) = packNat w vs := by
    have : 8 * (w * g) = w * vs.length := by rw [hl]; ring
    rw [pack, leNat_leBytes, hb, this, Nat.mod_eq_of_lt hlt]
  rw [fieldsOf, hn, ← hl]
  exact fieldOf_packNat hw h

end Sys2Proof.Machine
end

