-- ==== Sys2Proof/Laws/Varint.lean ====
section
/-! SUPPORT. Everything the Varint Reader can do: the value it reads, the bytes it consumes, and where it
faults (spec/40_varint.md R70 to R74). -/

namespace Sys2Proof.Machine

/-- The rest of the stream begins with a byte: that byte is next, and reading it leaves the rest. -/
theorem State.next_byte {s : State} {b : Byte} {rest : List Byte} (h : s.input.drop s.pos = b :: rest) :
    s.input[s.pos]? = some b ∧ (s.advance 1).input.drop (s.advance 1).pos = rest := by
  have hl : s.pos < s.input.length := by
    by_contra hc
    rw [List.drop_eq_nil_of_le (by omega)] at h
    cases h
  rw [List.drop_eq_getElem_cons hl] at h
  obtain ⟨h1, h2⟩ := List.cons.inj h
  exact ⟨by rw [List.getElem?_eq_getElem hl, h1], by simpa using h2⟩

/-- The rest of the stream, counted. -/
theorem State.avail_of_drop {s : State} {bytes : List Byte} (h : s.input.drop s.pos = bytes) :
    s.avail = bytes.length := by
  rw [← h, State.avail, List.length_drop]

/-- The accumulator holds a number below `2^shift`: the next payload is added above it (R70). -/
theorem accumulated_eq {s : State} {x : Nat} (p : BitVec 7) (hacc : s.acc = BitVec.ofNat 32 x)
    (hx : x < 2 ^ s.shift) : accumulated p s = BitVec.ofNat 32 (x + 2 ^ s.shift * p.toNat) := by
  have h : x + 2 ^ s.shift * p.toNat = x ||| p.toNat <<< s.shift := by
    rw [Nat.or_comm, ← Nat.shiftLeft_add_eq_or_of_lt hx, Nat.shiftLeft_eq]
    ring
  apply BitVec.eq_of_toNat_eq
  rw [h, accumulated, hacc, BitVec.toNat_or, BitVec.toNat_shiftLeft, BitVec.toNat_setWidth,
    BitVec.toNat_ofNat, BitVec.toNat_ofNat, Nat.or_mod_two_pow]
  congr 2
  have hp := p.isLt
  rw [Nat.mod_eq_of_lt (by omega)]

theorem accumulated_lt {x shift : Nat} (p : BitVec 7) (hx : x < 2 ^ shift) :
    x + 2 ^ shift * p.toNat < 2 ^ (shift + 7) := by
  have hp : p.toNat + 1 ≤ 2 ^ 7 := p.isLt
  have := Nat.mul_le_mul_left (2 ^ shift) hp
  rw [Nat.mul_add, Nat.mul_one, ← Nat.pow_add] at this
  omega

/-- What the sum of payloads becomes when the reader takes a byte. -/
theorem payloadSum_step (x shift : Nat) (b : Byte) (bs : List Byte) :
    x + 2 ^ shift * payloadSum (b :: bs) =
      (x + 2 ^ shift * (b.extractLsb' 0 7).toNat) + 2 ^ (shift + 7) * payloadSum bs := by
  rw [payload_toNat, payloadSum, Nat.pow_add]
  ring

/-- One turn of the loop on a byte with the continuation bit. -/
theorem readVarintFrom_cont {left : Nat} {s : State} {b : Byte} (hb : s.input[s.pos]? = some b)
    (h7 : b.getLsbD 7 = true) :
    readVarintFrom (left + 1) s =
      readVarintFrom left (continueVarint (b.extractLsb' 0 7) (s.advance 1)) := by
  simp only [readVarintFrom, hb, decodeVByte_cont h7]

/-- The last turn of the loop. -/
theorem readVarintFrom_last {left : Nat} {s : State} {b : Byte} (hb : s.input[s.pos]? = some b)
    (h7 : b.getLsbD 7 = false) :
    readVarintFrom (left + 1) s =
      .ok (accumulated (b.extractLsb' 0 7) (s.advance 1))
        (emitVarint (b.extractLsb' 0 7) (s.advance 1)) := by
  simp only [readVarintFrom, hb, decodeVByte_last h7]

/-- The reader on a complete varint, from the middle of one. -/
theorem readVarintFrom_complete (cs : List Byte) (b : Byte) (rest : List Byte)
    (hcs : ∀ c ∈ cs, c.getLsbD 7 = true) (hb : b.getLsbD 7 = false) :
    ∀ (left : Nat) (s : State) (x : Nat), s.input.drop s.pos = cs ++ b :: rest → s.acc = BitVec.ofNat 32 x →
      x < 2 ^ s.shift → cs.length < left →
      readVarintFrom left s =
        .ok (BitVec.ofNat 32 (x + 2 ^ s.shift * payloadSum (cs ++ [b])))
          { s with
            pos := s.pos + (cs.length + 1), acc := 0, shift := 0,
            header := some (BitVec.ofNat 32 (x + 2 ^ s.shift * payloadSum (cs ++ [b]))) } := by
  induction cs with
  | nil =>
    intro left s x hd hacc hx hleft
    obtain ⟨left, rfl⟩ : ∃ l, left = l + 1 := ⟨left - 1, by omega⟩
    obtain ⟨hn, -⟩ := State.next_byte (rest := rest) hd
    have hv := accumulated_eq (s := s.advance 1) (b.extractLsb' 0 7) hacc hx
    have hs := payloadSum_step x s.shift b []
    simp only [payloadSum, Nat.mul_zero, Nat.add_zero] at hs
    rw [readVarintFrom_last hn hb]
    simp only [emitVarint, hv, List.nil_append, payloadSum, Nat.mul_zero, Nat.add_zero, hs,
      State.advance_shift]
    rfl
  | cons c cs ih =>
    intro left s x hd hacc hx hleft
    obtain ⟨left, rfl⟩ : ∃ l, left = l + 1 := ⟨left - 1, by omega⟩
    obtain ⟨hn, hrest⟩ := State.next_byte hd
    have hv := accumulated_eq (s := s.advance 1) (c.extractLsb' 0 7) hacc hx
    have hlt := accumulated_lt (shift := s.shift) (c.extractLsb' 0 7) hx
    rw [readVarintFrom_cont hn (hcs c (by simp)),
      ih (fun c' h => hcs c' (by simp [h])) _
        (continueVarint (c.extractLsb' 0 7) (s.advance 1)) _ hrest hv hlt
        (by simpa using hleft)]
    have hs := payloadSum_step x s.shift c (cs ++ [b])
    rw [List.cons_append, hs]
    have hp : s.pos + ((c :: cs).length + 1) = s.pos + 1 + (cs.length + 1) := by
      simp only [List.length_cons]
      omega
    rw [hp]
    rfl

/-- The reader when every byte left has the continuation bit: all are consumed, it faults and is idle (R74,
R75). -/
theorem readVarintFrom_cut (cs : List Byte) (hcs : ∀ c ∈ cs, c.getLsbD 7 = true) :
    ∀ (left : Nat) (s : State), s.input.drop s.pos = cs → cs.length ≤ left →
      readVarintFrom left s =
        .raised .truncatedStream { s with pos := s.pos + cs.length, acc := 0, shift := 0 } := by
  induction cs with
  | nil =>
    intro left s hd hleft
    have hn : s.input[s.pos]? = none := by
      rw [List.getElem?_eq_none_iff]
      exact List.drop_eq_nil_iff.1 hd
    cases left with
    | zero => rfl
    | succ left => simp only [readVarintFrom, hn]; rfl
  | cons c cs ih =>
    intro left s hd hleft
    obtain ⟨hn, hrest⟩ := State.next_byte hd
    cases left with
    | zero => simp at hleft
    | succ left =>
      have h := ih (fun c' h => hcs c' (by simp [h])) left
        (continueVarint (c.extractLsb' 0 7) (s.advance 1)) hrest (by simpa using hleft)
      rw [readVarintFrom_cont hn (hcs c (by simp)), h]
      have hp : s.pos + (c :: cs).length = s.pos + 1 + cs.length := by
        simp only [List.length_cons]
        omega
      rw [hp]
      rfl

/-- Every byte string is continuation bytes up to its end, or continuation bytes and then a last byte. -/
theorem varint_split (bytes : List Byte) :
    (∀ c ∈ bytes, c.getLsbD 7 = true) ∨
      ∃ cs b rest, bytes = cs ++ b :: rest ∧ (∀ c ∈ cs, c.getLsbD 7 = true) ∧ b.getLsbD 7 = false := by
  induction bytes with
  | nil => exact .inl (by simp)
  | cons a bytes ih =>
    cases ha : a.getLsbD 7 with
    | false => exact .inr ⟨[], a, bytes, rfl, by simp, ha⟩
    | true =>
      rcases ih with h | ⟨cs, b, rest, rfl, hcs, hb⟩
      · refine .inl fun c hc => ?_
        rcases List.mem_cons.1 hc with rfl | hc
        · exact ha
        · exact h c hc
      · refine .inr ⟨a :: cs, b, rest, rfl, fun c hc => ?_, hb⟩
        rcases List.mem_cons.1 hc with rfl | hc
        · exact ha
        · exact hcs c hc

/-- `ReadVarint()` on a complete varint (R70, R73): the payloads' sum truncated to 32 bits, and no more bytes
consumed than the varint has. -/
theorem readVarint_complete {s : State} {cs : List Byte} {b : Byte} {rest : List Byte}
    (hd : s.input.drop s.pos = cs ++ b :: rest) (hcs : ∀ c ∈ cs, c.getLsbD 7 = true)
    (hb : b.getLsbD 7 = false) :
    readVarint s =
      .ok (BitVec.ofNat 32 (payloadSum (cs ++ [b])))
        { s with
          pos := s.pos + (cs.length + 1), acc := 0, shift := 0,
          header := some (BitVec.ofNat 32 (payloadSum (cs ++ [b]))) } := by
  have hl : cs.length < s.avail := by
    rw [State.avail_of_drop hd]
    simp
  have h := readVarintFrom_complete cs b rest hcs hb s.avail s.idleReader 0 hd rfl
    (by simp) hl
  simpa [readVarint] using h

/-- `ReadVarint()` on a stream that ends inside the varint (R74). -/
theorem readVarint_cut {s : State} (hcs : ∀ c ∈ s.input.drop s.pos, c.getLsbD 7 = true) :
    readVarint s =
      .raised .truncatedStream { s with pos := s.pos + s.avail, acc := 0, shift := 0 } := by
  have h := readVarintFrom_cut _ hcs s.avail s.idleReader rfl (by simp [State.avail])
  rw [readVarint, h]
  simp [State.avail, State.idleReader]

/-- All `ReadVarint()` can do. -/
theorem readVarint_cases (s : State) :
    (∃ cs b rest, s.input.drop s.pos = cs ++ b :: rest ∧
      readVarint s =
        .ok (BitVec.ofNat 32 (payloadSum (cs ++ [b])))
          { s with
            pos := s.pos + (cs.length + 1), acc := 0, shift := 0,
            header := some (BitVec.ofNat 32 (payloadSum (cs ++ [b]))) }) ∨
      readVarint s =
        .raised .truncatedStream { s with pos := s.pos + s.avail, acc := 0, shift := 0 } := by
  rcases varint_split (s.input.drop s.pos) with h | ⟨cs, b, rest, hd, hcs, hb⟩
  · exact .inr (readVarint_cut h)
  · exact .inl ⟨cs, b, rest, hd, readVarint_complete hd hcs hb⟩

end Sys2Proof.Machine
end

