-- ==== Sys2Proof/Laws/Records.lean ====
section
/-! SUPPORT. Everything a record decoder and `Decode()` can do (spec/42_run_state_machine.md R90 to R98), once,
for the proofs to cite. -/

namespace Sys2Proof.Machine

/-! ### The record decoders -/

theorem runValueBytes_range {w : Nat} (h1 : w ≠ 0) (h2 : w ≤ 32) :
    1 ≤ runValueBytes w ∧ runValueBytes w ≤ 4 := by
  simp only [runValueBytes]
  omega

/-- HDR.RUN with its payload there (R94). -/
theorem runRecord_eq {n : BitVec 31} {s : State} (hw : s.bitWidth ≠ 0)
    (hk : runValueBytes s.bitWidth.val ≤ s.avail) :
    runRecord n s = .ok () { s with
      header := none, pos := s.pos + runValueBytes s.bitWidth.val, currentCount := runCount n,
      currentValue := BitVec.ofNat 32 (leNat (s.window (runValueBytes s.bitWidth.val))),
      mode := .run, buf := [] } := by
  have hr := runValueBytes_range (Fin.val_ne_iff.2 hw) (Nat.le_of_lt_succ s.bitWidth.isLt)
  have hl : (s.window (runValueBytes s.bitWidth.val)).length = runValueBytes s.bitWidth.val := by
    rw [State.window_length]
    omega
  have hlt := leNat_lt (s.window (runValueBytes s.bitWidth.val))
  rw [hl] at hlt
  have h32 : 2 ^ (8 * runValueBytes s.bitWidth.val) ≤ 2 ^ 32 :=
    Nat.pow_le_pow_right (by decide) (by omega)
  have hv : (BitVec.ofNat 32 (leNat (s.window (runValueBytes s.bitWidth.val)))).toNat <
      2 ^ (8 * runValueBytes s.bitWidth.val) := by
    rw [BitVec.toNat_ofNat, Nat.mod_eq_of_lt (by omega)]
    exact hlt
  rw [runRecord, if_neg (by omega), hl, takeRunValue, if_pos ⟨hr, hv⟩]
  rfl

/-- HDR.RUN with too few bytes left (R94; D11). -/
theorem runRecord_cut {n : BitVec 31} {s : State} (hk : s.avail < runValueBytes s.bitWidth.val) :
    runRecord n s = .raised .truncatedStream s.takeHeader := by
  rw [runRecord, if_pos hk]

theorem paddedPayload_length (g : BitVec 31) (s : State) :
    (paddedPayload g s).length = s.bitWidth.val * g.toNat := by
  simp only [paddedPayload, List.length_append, List.length_replicate, State.window_length, requiredBytes]
  omega

/-- HDR.PACKED with room in the buffer (R95, R86, R96). -/
theorem packedRecord_eq {g : BitVec 31} {s : State} (hw : s.bitWidth ≠ 0)
    (hg : g.toNat ≤ s.params.bufCapGroups) :
    packedRecord g s = .ok () { s with
      header := none, pos := s.pos + min (requiredBytes g s) s.avail, fill := [],
      unpackAcc := if g.toNat = 0 then s.unpackAcc else 0, currentCount := packedCount g, mode := .packed,
      buf := fieldsOf s.bitWidth.val (8 * g.toNat) (paddedPayload g s) } := by
  have hlt := s.bitWidth.isLt
  have hne := Fin.val_ne_iff.2 hw
  have hr : 1 ≤ s.bitWidth.val ∧ s.bitWidth.val ≤ 32 := by
    constructor
    · have : s.bitWidth.val ≠ 0 := hne
      omega
    · omega
  rw [packedRecord, if_neg (by omega), unpackGroups_eq hr _ _ (paddedPayload_length g s)]
  rfl

/-- HDR.PACKED with more groups than the buffer holds (R95, R146). -/
theorem packedRecord_capacity {g : BitVec 31} {s : State} (hg : s.params.bufCapGroups < g.toNat) :
    packedRecord g s = .raised .capacity s.takeHeader := by
  rw [packedRecord, if_pos hg]

/-- HDR.BRUN (R98). -/
theorem brunRecord_eq (n : BitVec 31) (b : BitVec 1) (s : State) :
    brunRecord n b s = .ok () { s with
      header := none, currentValue := bitValue b, currentCount := runCount n, mode := .run, buf := [] } := rfl

/-! ### What a record decoder leaves alone -/

/-- What no operation inside a command but the copy to `OUT` writes: the instance's control state, the output
space, the fault register and the response (R28). -/
structure InnerFrame (s t : State) : Prop where
  params : t.params = s.params
  kind : t.kind = s.kind
  bitWidth : t.bitWidth = s.bitWidth
  constOnly : t.constOnly = s.constOnly
  fault : t.fault = s.fault
  out : t.out = s.out
  input : t.input = s.input
  pending : t.pending = s.pending
  rsp : t.rsp = s.rsp

theorem InnerFrame.refl (s : State) : InnerFrame s s := ⟨rfl, rfl, rfl, rfl, rfl, rfl, rfl, rfl, rfl⟩

theorem InnerFrame.trans {s t u : State} (h1 : InnerFrame s t) (h2 : InnerFrame t u) : InnerFrame s u :=
  ⟨h2.params.trans h1.params, h2.kind.trans h1.kind, h2.bitWidth.trans h1.bitWidth,
    h2.constOnly.trans h1.constOnly, h2.fault.trans h1.fault, h2.out.trans h1.out,
    h2.input.trans h1.input, h2.pending.trans h1.pending, h2.rsp.trans h1.rsp⟩

/-- How a record decoder ends: it goes on with the whole record consumed, or it raises before it has written
any register, or the width has no format. -/
theorem headerRecord_cases (h : HeaderForm) (s : State) :
    (∃ t, headerRecord h s = .ok () t ∧ InnerFrame s t ∧ s.pos ≤ t.pos ∧ t.pos ≤ s.pos + s.avail ∧
        t.acc = s.acc ∧ t.shift = s.shift ∧ t.header = none ∧
        (s.unpackAcc = 0 → t.unpackAcc = 0) ∧ (s.fill = [] → t.fill = [])) ∨
      (∃ f, headerRecord h s = .raised f s.takeHeader ∧ (f = .truncatedStream ∨ f = .capacity)) ∨
      ((∃ r, headerRecord h s = .refused r) ∧ s.bitWidth = 0 ∧ ∀ n b, h ≠ .brun n b) := by
  by_cases hw : s.bitWidth = 0
  · cases h with
    | brun n b => exact .inl ⟨_, brunRecord_eq n b s, by constructor <;> rfl, by simp⟩
    | run n =>
      refine .inr (.inr ⟨⟨.runValueFormat, ?_⟩, hw, by simp⟩)
      simp [headerRecord, runRecord, hw, runValueBytes, State.window, takeRunValue]
    | packed g =>
      by_cases hg : s.params.bufCapGroups < g.toNat
      · exact .inr (.inl ⟨_, packedRecord_capacity hg, .inr rfl⟩)
      · by_cases h0 : g.toNat = 0
        · refine .inl ⟨{ s with
            header := none, fill := [], currentCount := packedCount g, mode := .packed, buf := [] },
            ?_, by constructor <;> rfl, by simp⟩
          simp [headerRecord, packedRecord, h0, unpackGroups, requiredBytes, State.enterPacked,
            State.takeHeader, State.advance]
        · refine .inr (.inr ⟨⟨.unpackWidth, ?_⟩, hw, by simp⟩)
          obtain ⟨m, hm⟩ : ∃ m, g.toNat = m + 1 := ⟨g.toNat - 1, by omega⟩
          simp [headerRecord, packedRecord, hm, unpackGroups, unpackGroup, hw]
          omega
  · cases h with
    | brun n b => exact .inl ⟨_, brunRecord_eq n b s, by constructor <;> rfl, by simp⟩
    | run n =>
      by_cases hk : s.avail < runValueBytes s.bitWidth.val
      · exact .inr (.inl ⟨_, runRecord_cut hk, .inl rfl⟩)
      · refine .inl ⟨_, runRecord_eq hw (by omega), by constructor <;> rfl, by simp, ?_, by simp⟩
        simp only
        omega
    | packed g =>
      by_cases hg : s.params.bufCapGroups < g.toNat
      · exact .inr (.inl ⟨_, packedRecord_capacity hg, .inr rfl⟩)
      · refine .inl ⟨_, packedRecord_eq hw (by omega), by constructor <;> rfl, by simp, ?_, rfl, rfl,
          rfl, fun hu => by simp [hu], fun _ => rfl⟩
        simp only
        omega

/-! ### `Decode()` -/

/-- The state in which a header's record decoder runs: the header's bytes consumed, the reader idle. -/
def State.withHeader (m : Nat) (h : Word) (s : State) : State :=
  { s with pos := s.pos + m, acc := 0, shift := 0, header := some h }

theorem decodeRecord_const {s : State} (h : s.constOnly = true) : decodeRecord s = .ok false s := by
  simp [decodeRecord, h]

theorem decodeRecord_end {s : State} (h : s.constOnly = false) (ha : s.avail = 0) :
    decodeRecord s = .ok false { s with currentCount := 0 } := by
  simp [decodeRecord, h, ha]

/-- `Decode()` on a stream that begins with a complete varint. -/
theorem decodeRecord_header {s : State} {cs : List Byte} {b : Byte} {rest : List Byte}
    (hc : s.constOnly = false) (hd : s.input.drop s.pos = cs ++ b :: rest)
    (hcs : ∀ c ∈ cs, c.getLsbD 7 = true) (hb : b.getLsbD 7 = false) :
    decodeRecord s =
      (headerRecord (decodeHeader s.kind (BitVec.ofNat 32 (payloadSum (cs ++ [b]))))
        (s.withHeader (cs.length + 1) (BitVec.ofNat 32 (payloadSum (cs ++ [b]))))).bind
        fun _ s2 => .ok true s2 := by
  have ha : s.avail ≠ 0 := by
    rw [State.avail_of_drop hd]
    simp
  rw [decodeRecord, hc, readVarint_complete hd hcs hb]
  simp only [if_neg ha, Res.bind_ok]
  rfl

/-- `Decode()` on a stream that ends inside a header. -/
theorem decodeRecord_cut {s : State} (hc : s.constOnly = false) (ha : s.avail ≠ 0)
    (hcs : ∀ c ∈ s.input.drop s.pos, c.getLsbD 7 = true) :
    decodeRecord s =
      .raised .truncatedStream { s with pos := s.pos + s.avail, acc := 0, shift := 0 } := by
  rw [decodeRecord, readVarint_cut hcs]
  simp [hc, ha]

/-- All `Decode()` can do. -/
theorem decodeRecord_cases (s : State) :
    (s.constOnly = true ∧ decodeRecord s = .ok false s) ∨
      (s.constOnly = false ∧ s.avail = 0 ∧ decodeRecord s = .ok false { s with currentCount := 0 }) ∨
      (s.constOnly = false ∧ decodeRecord s =
        .raised .truncatedStream { s with pos := s.pos + s.avail, acc := 0, shift := 0 }) ∨
      (s.constOnly = false ∧ ∃ m h, 0 < m ∧ m ≤ s.avail ∧ decodeRecord s =
        (headerRecord (decodeHeader s.kind h) (s.withHeader m h)).bind fun _ s2 => .ok true s2) := by
  rcases Bool.eq_false_or_eq_true s.constOnly with hc | hc
  · exact .inl ⟨hc, decodeRecord_const hc⟩
  · by_cases ha : s.avail = 0
    · exact .inr (.inl ⟨hc, ha, decodeRecord_end hc ha⟩)
    · rcases varint_split (s.input.drop s.pos) with h | ⟨cs, b, rest, hd, hcs, hb⟩
      · exact .inr (.inr (.inl ⟨hc, decodeRecord_cut hc ha h⟩))
      · refine .inr (.inr (.inr ⟨hc, cs.length + 1, _, by omega, ?_, decodeRecord_header hc hd hcs hb⟩))
        rw [State.avail_of_drop hd]
        simp

/-- What `Decode()` leaves alone when it answers, and that an answer of true has consumed a byte. -/
theorem decodeRecord_ok {s t : State} {more : Bool} (h : decodeRecord s = .ok more t) :
    InnerFrame s t ∧ s.pos ≤ t.pos ∧ t.pos ≤ s.pos + s.avail ∧
      (more = true → s.constOnly = false ∧ s.pos < t.pos) ∧
      (more = false → t.pos = s.pos ∧ t.exhausted ∧ t.mode = s.mode ∧ t.buf = s.buf ∧
        t.currentValue = s.currentValue ∧
        (t.currentCount = s.currentCount ∨ t.currentCount = 0)) ∧
      (s.UnitsIdle → t.UnitsIdle) := by
  rcases decodeRecord_cases s with ⟨hc, e⟩ | ⟨hc, ha, e⟩ | ⟨-, e⟩ | ⟨hc, m, hd, hm, hma, e⟩
  · rw [e] at h
    obtain ⟨rfl, rfl⟩ := Res.ok.inj h
    exact ⟨InnerFrame.refl s, Nat.le_refl _, by omega, by simp, fun _ => ⟨rfl, .inl hc, rfl, rfl, rfl, .inl rfl⟩,
      id⟩
  · rw [e] at h
    obtain ⟨rfl, rfl⟩ := Res.ok.inj h
    refine ⟨by constructor <;> rfl, Nat.le_refl _, by simp, by simp,
      fun _ => ⟨rfl, .inr ha, rfl, rfl, rfl, .inr rfl⟩, fun u => ⟨u.acc, u.shift, u.header, u.unpackAcc, u.fill⟩⟩
  · rw [e] at h
    cases h
  · rw [e] at h
    obtain ⟨_, s2, h2, h3⟩ := Res.bind_eq_ok.1 h
    obtain ⟨rfl, rfl⟩ := Res.ok.inj h3
    rcases headerRecord_cases (decodeHeader s.kind hd) (s.withHeader m hd) with
      ⟨u, hu, hf, h4, h5, h6, h7, h8, h9, h10⟩ | ⟨f, hf, -⟩ | ⟨⟨r, hr⟩, -⟩
    · rw [hu] at h2
      obtain ⟨_, rfl⟩ := Res.ok.inj h2
      have hav : (s.withHeader m hd).avail = s.avail - m := State.avail_advance m s
      rw [hav] at h5
      simp only [State.withHeader] at h4 h5
      refine ⟨⟨hf.params, hf.kind, hf.bitWidth, hf.constOnly, hf.fault, hf.out, hf.input, hf.pending,
        hf.rsp⟩, by omega, by omega, fun _ => ⟨hc, by omega⟩, by simp,
        fun i => ⟨h6, h7, h8, h9 i.unpackAcc, h10 i.fill⟩⟩
    · rw [hf] at h2
      cases h2
    · rw [hr] at h2
      cases h2

/-- Where `Decode()` raises: the two faults of R101, the run-state as it was, `pos` after the last byte
consumed (R150). -/
theorem decodeRecord_raised {s t : State} {f : FaultCode} (h : decodeRecord s = .raised f t) :
    (f = .truncatedStream ∨ f = .capacity) ∧ InnerFrame s t ∧ s.SameRunState t ∧ s.pos ≤ t.pos ∧
      t.pos ≤ s.pos + s.avail ∧ s.constOnly = false := by
  rcases decodeRecord_cases s with ⟨hc, e⟩ | ⟨hc, ha, e⟩ | ⟨hc, e⟩ | ⟨hc, m, hd, hm, hma, e⟩
  · rw [e] at h
    cases h
  · rw [e] at h
    cases h
  · rw [e] at h
    obtain ⟨rfl, rfl⟩ := Res.raised.inj h
    exact ⟨.inl rfl, by constructor <;> rfl, ⟨rfl, rfl, rfl, rfl⟩, by simp, Nat.le_refl _, hc⟩
  · rw [e] at h
    rcases Res.bind_eq_raised.1 h with h2 | ⟨_, s2, -, h3⟩
    · rcases headerRecord_cases (decodeHeader s.kind hd) (s.withHeader m hd) with
        ⟨u, hu, -⟩ | ⟨f', hf, hff⟩ | ⟨⟨r, hr⟩, -⟩
      · rw [hu] at h2
        cases h2
      · rw [hf] at h2
        obtain ⟨rfl, rfl⟩ := Res.raised.inj h2
        refine ⟨hff, by constructor <;> rfl, ⟨rfl, rfl, rfl, rfl⟩, ?_, ?_, hc⟩
        · simp [State.withHeader]
        · simp [State.withHeader]
          omega
      · rw [hr] at h2
        cases h2
    · cases h3

/-- `Decode()` has a meaning in every state whose stream instance has a width. -/
theorem decodeRecord_not_refused {s : State} (hw : s.constOnly = false → s.bitWidth ≠ 0) (r : Refusal) :
    decodeRecord s ≠ .refused r := by
  intro h
  rcases decodeRecord_cases s with ⟨hc, e⟩ | ⟨hc, ha, e⟩ | ⟨hc, e⟩ | ⟨hc, m, hd, hm, hma, e⟩
  · rw [e] at h
    cases h
  · rw [e] at h
    cases h
  · rw [e] at h
    cases h
  · rw [e] at h
    rcases Res.bind_eq_refused.1 h with h2 | ⟨_, s2, -, h3⟩
    · rcases headerRecord_cases (decodeHeader s.kind hd) (s.withHeader m hd) with
        ⟨u, hu, -⟩ | ⟨f', hf, hff⟩ | ⟨-, hz, -⟩
      · rw [hu] at h2
        cases h2
      · rw [hf] at h2
        cases h2
      · exact hw hc hz
    · cases h3

end Sys2Proof.Machine
end

