-- ==== Sys2Proof/Laws/Loop.lean ====
section
/-! SUPPORT. The loop READNEXT and SKIP share (spec/43_typed_reader.md R112 to R114): it unfolds like the loop of the
pseudocode, and everything it can do. -/

namespace Sys2Proof.Machine

/-- What both copies have in common: they write at most the words of the iteration, and a miss is the only
fault. -/
def LawfulCopy (copy : Nat → Nat → State → Res Unit) : Prop :=
  ∀ n i s, (∃ t, copy n i s = .ok () t ∧ CopyFrame i n s t) ∨
    ∃ t, copy n i s = .raised .dictionaryMiss t ∧ CopyFrame i n s t

theorem lawful_copyOut : LawfulCopy copyOut := copyOut_cases

theorem lawful_copyNothing : LawfulCopy copyNothing := fun n i s =>
  .inl ⟨s, rfl, CopyFrame.refl i n s⟩

/-! ### One iteration -/

theorem refill_pending {s : State} (h : s.currentCount ≠ 0) : refill s = .ok true s := by
  rw [refill, if_neg h]

theorem refill_empty {s : State} (h : s.currentCount = 0) : refill s = decodeRecord s := by
  rw [refill, if_pos h]

theorem takeNow_le_remaining (remaining : Nat) (s : State) : takeNow remaining s ≤ remaining :=
  Nat.min_le_left _ _

theorem takeNow_le_count (remaining : Nat) (s : State) : takeNow remaining s ≤ s.currentCount.toNat :=
  Nat.min_le_right _ _

/-- Consuming no more than there is. -/
theorem consume_count {n : Nat} {s : State} (h : n ≤ s.currentCount.toNat) :
    (s.consume n).currentCount.toNat = s.currentCount.toNat - n := by
  have hlt := s.currentCount.isLt
  rw [State.consume_currentCount, BitVec.toNat_sub, BitVec.toNat_ofNat]
  omega

/-- How many iterations are always enough. -/
def loopNeed (s : State) : Nat := if s.currentCount = 0 then s.avail + 1 else s.avail + 2

theorem loopNeed_le (s : State) : loopNeed s ≤ loopBound s := by
  simp only [loopNeed, loopBound]
  split <;> omega

/-- After an iteration nothing is wanted any more, or nothing is left and a byte or the old run is gone. -/
theorem iteration_progress {copy : Nat → Nat → State → Res Unit} (hcopy : LawfulCopy copy)
    {remaining idx : Nat} {s t u : State} (h1 : refill s = .ok true t)
    (h2 : copy (takeNow remaining t) idx t = .ok () u) :
    remaining - takeNow remaining t = 0 ∨
      loopNeed (u.consume (takeNow remaining t)) < loopNeed s := by
  have hu : CopyFrame idx (takeNow remaining t) t u := by
    rcases hcopy (takeNow remaining t) idx t with ⟨u', h, hf⟩ | ⟨u', h, -⟩
    · rw [h2] at h
      obtain ⟨_, rfl⟩ := Res.ok.inj h
      exact hf
    · rw [h2] at h
      cases h
  have hcount : u.currentCount = t.currentCount := by rw [hu.rest]
  have havail : (u.consume (takeNow remaining t)).avail = t.avail := by
    rw [hu.rest]
    rfl
  by_cases hr : remaining ≤ t.currentCount.toNat
  · exact .inl (by simp only [takeNow]; omega)
  · have hz : (u.consume (takeNow remaining t)).currentCount = 0 := by
      apply BitVec.eq_of_toNat_eq
      rw [consume_count (by rw [hcount]; exact takeNow_le_count _ _), hcount]
      simp only [takeNow]
      change _ = 0
      omega
    refine .inr ?_
    rw [loopNeed, if_pos hz, havail, loopNeed]
    by_cases h0 : s.currentCount = 0
    · rw [refill_empty h0] at h1
      obtain ⟨hf, -, h4, h5, -⟩ := decodeRecord_ok h1
      have h6 := (h5 rfl).2
      have : t.avail < s.avail := by
        simp only [State.avail, hf.input] at *
        omega
      rw [if_pos h0]
      omega
    · rw [refill_pending h0] at h1
      obtain ⟨_, rfl⟩ := Res.ok.inj h1
      rw [if_neg h0]
      omega

theorem consumeLoop_zero (copy : Nat → Nat → State → Res Unit) (bound idx : Nat) (s : State) :
    consumeLoop copy bound 0 idx s = .ok 0 s := by
  cases bound <;> simp [consumeLoop]

/-- One more iteration allowed changes nothing once there are enough. -/
theorem consumeLoop_stable {copy : Nat → Nat → State → Res Unit} (hcopy : LawfulCopy copy)
    (bound remaining idx : Nat) (s : State) (h : loopNeed s ≤ bound) :
    consumeLoop copy (bound + 1) remaining idx s = consumeLoop copy bound remaining idx s := by
  induction bound generalizing remaining idx s with
  | zero =>
    simp only [loopNeed] at h
    split at h <;> omega
  | succ bound ih =>
    rw [consumeLoop, consumeLoop]
    split
    · rfl
    · rcases hr : refill s with ⟨more, t⟩ | ⟨f, t⟩ | r
      · cases more with
        | false => rfl
        | true =>
          simp only [Res.bind_ok, if_true]
          rcases hc : copy (takeNow remaining t) idx t with ⟨_, u⟩ | ⟨f, u⟩ | r
          · simp only [Res.bind_ok]
            rcases iteration_progress hcopy hr hc with h0 | h0
            · rw [h0, consumeLoop_zero, consumeLoop_zero]
            · exact ih _ _ _ (by omega)
          · rfl
          · rfl
      · rfl
      · rfl

/-- The loop as the commands call it. -/
def drain (copy : Nat → Nat → State → Res Unit) (remaining idx : Nat) (s : State) : Res Nat :=
  consumeLoop copy (loopBound s) remaining idx s

theorem consumeLoop_eq_drain {copy : Nat → Nat → State → Res Unit} (hcopy : LawfulCopy copy)
    {bound : Nat} (remaining idx : Nat) {s : State} (h : loopNeed s ≤ bound) :
    consumeLoop copy bound remaining idx s = drain copy remaining idx s := by
  have key : ∀ k b, loopNeed s ≤ b →
      consumeLoop copy (b + k) remaining idx s = consumeLoop copy b remaining idx s := by
    intro k
    induction k with
    | zero => intro b _; rfl
    | succ k ih =>
      intro b hb
      rw [← Nat.add_assoc, consumeLoop_stable hcopy _ _ _ _ (by omega), ih b hb]
  have h2 := loopNeed_le s
  rcases Nat.le_total bound (loopBound s) with hle | hle
  · rw [drain, ← Nat.add_sub_of_le hle, key _ _ h]
  · rw [drain, ← key (bound - loopBound s) _ h2, Nat.add_sub_of_le hle]

@[simp] theorem drain_zero (copy : Nat → Nat → State → Res Unit) (idx : Nat) (s : State) :
    drain copy 0 idx s = .ok 0 s := consumeLoop_zero copy _ idx s

/-- The loop unfolds like the pseudocode's (R112, R113). -/
theorem drain_eq {copy : Nat → Nat → State → Res Unit} (hcopy : LawfulCopy copy) {remaining : Nat}
    (idx : Nat) (s : State) (h : remaining ≠ 0) :
    drain copy remaining idx s =
      (refill s).bind fun more s1 =>
        if more then
          (copy (takeNow remaining s1) idx s1).bind fun _ s2 =>
            drain copy (remaining - takeNow remaining s1) (idx + takeNow remaining s1)
              (s2.consume (takeNow remaining s1))
        else .ok remaining s1 := by
  have hb : loopBound s = s.avail + 1 + 1 := rfl
  rw [drain, hb, consumeLoop, if_neg h]
  rcases hr : refill s with ⟨more, t⟩ | ⟨f, t⟩ | r
  · cases more with
    | false => rfl
    | true =>
      simp only [Res.bind_ok, if_true]
      rcases hc : copy (takeNow remaining t) idx t with ⟨_, u⟩ | ⟨f, u⟩ | r
      · simp only [Res.bind_ok]
        rcases iteration_progress hcopy hr hc with h0 | h0
        · rw [h0, consumeLoop_zero, drain_zero]
        · refine consumeLoop_eq_drain hcopy _ _ ?_
          have := loopNeed_le s
          simp only [loopBound] at this
          omega
      · rfl
      · rfl
  · rfl
  · rfl

/-- One iteration of the loop: it ends the loop, or the loop goes on from a state that is nearer the end. -/
theorem drain_step {copy : Nat → Nat → State → Res Unit} (hcopy : LawfulCopy copy) {remaining : Nat}
    (idx : Nat) (s : State) (h : remaining ≠ 0) :
    (∃ r, refill s = .refused r ∧ drain copy remaining idx s = .refused r) ∨
      (∃ f t, refill s = .raised f t ∧ drain copy remaining idx s = .raised f t) ∨
      (∃ t, refill s = .ok false t ∧ drain copy remaining idx s = .ok remaining t) ∨
      ∃ t, refill s = .ok true t ∧
        ((∃ u, copy (takeNow remaining t) idx t = .raised .dictionaryMiss u ∧
            CopyFrame idx (takeNow remaining t) t u ∧
            drain copy remaining idx s = .raised .dictionaryMiss u) ∨
          ∃ u, copy (takeNow remaining t) idx t = .ok () u ∧ CopyFrame idx (takeNow remaining t) t u ∧
            (remaining - takeNow remaining t = 0 ∨
              loopNeed (u.consume (takeNow remaining t)) < loopNeed s) ∧
            drain copy remaining idx s =
              drain copy (remaining - takeNow remaining t) (idx + takeNow remaining t)
                (u.consume (takeNow remaining t))) := by
  have e := drain_eq hcopy idx s h
  rcases hr : refill s with ⟨more, t⟩ | ⟨f, t⟩ | r
  · rw [hr] at e
    cases more with
    | false => exact .inr (.inr (.inl ⟨t, rfl, e⟩))
    | true =>
      refine .inr (.inr (.inr ⟨t, rfl, ?_⟩))
      rcases hcopy (takeNow remaining t) idx t with ⟨u, hc, hf⟩ | ⟨u, hc, hf⟩
      · refine .inr ⟨u, hc, hf, iteration_progress hcopy hr hc, ?_⟩
        simpa [hc] using e
      · refine .inl ⟨u, hc, hf, ?_⟩
        simpa [hc] using e
  · rw [hr] at e
    exact .inr (.inl ⟨f, t, rfl, e⟩)
  · rw [hr] at e
    exact .inl ⟨r, rfl, e⟩

/-- Induction along the loop. -/
theorem drain_induction {P : Nat → Nat → State → Prop}
    (zero : ∀ idx s, P 0 idx s)
    (step : ∀ remaining idx s, remaining ≠ 0 →
      (∀ remaining' idx' s', remaining' = 0 ∨ loopNeed s' < loopNeed s → P remaining' idx' s') →
      P remaining idx s) (remaining idx : Nat) (s : State) : P remaining idx s := by
  generalize hn : loopNeed s = n
  induction n using Nat.strong_induction_on generalizing remaining idx s with
  | _ n ih =>
    by_cases h : remaining = 0
    · subst h
      exact zero idx s
    · refine step remaining idx s h fun remaining' idx' s' h' => ?_
      rcases h' with rfl | h'
      · exact zero idx' s'
      · exact ih (loopNeed s') (by omega) remaining' idx' s' rfl

/-! ### What the loop leaves alone -/

/-- What the whole loop leaves alone: the instance's control state, the fault register, the response; `pos`
only grows and stays in the stream; the output space changes at the words of the request only. -/
structure LoopFrame (idx remaining : Nat) (s t : State) : Prop where
  params : t.params = s.params
  kind : t.kind = s.kind
  bitWidth : t.bitWidth = s.bitWidth
  constOnly : t.constOnly = s.constOnly
  fault : t.fault = s.fault
  input : t.input = s.input
  pending : t.pending = s.pending
  rsp : t.rsp = s.rsp
  pos : s.pos ≤ t.pos ∧ t.pos ≤ s.pos + s.avail
  outside : ∀ j, j < idx ∨ idx + remaining ≤ j → t.out.read j = s.out.read j
  wf : s.out.wf = true → t.out.wf = true
  words : ∀ e ∈ t.out, e ∈ s.out ∨
    (idx ≤ e.1 ∧ e.1 < idx + remaining ∧ ∃ c, dictResolve s.params.dict c = some e.2)

theorem LoopFrame.of_inner {idx remaining : Nat} {s t : State} (h : InnerFrame s t)
    (hp : s.pos ≤ t.pos ∧ t.pos ≤ s.pos + s.avail) : LoopFrame idx remaining s t :=
  ⟨h.params, h.kind, h.bitWidth, h.constOnly, h.fault, h.input, h.pending, h.rsp, hp,
    fun j _ => by rw [h.out], fun w => by rw [h.out]; exact w, fun e he => .inl (by rw [← h.out]; exact he)⟩

theorem LoopFrame.of_copy {idx n : Nat} {s t : State} (h : CopyFrame idx n s t) :
    LoopFrame idx n s t := by
  have e := h.rest
  refine ⟨?_, ?_, ?_, ?_, ?_, ?_, ?_, ?_, ?_, h.outside, h.wf, h.words⟩
  all_goals (rw [e]; try rfl)
  exact ⟨Nat.le_refl _, by simp⟩

theorem LoopFrame.of_consume (idx n m : Nat) (s : State) : LoopFrame idx n s (s.consume m) :=
  ⟨rfl, rfl, rfl, rfl, rfl, rfl, rfl, rfl, ⟨Nat.le_refl _, by simp⟩, fun _ _ => rfl, id, fun _ h => .inl h⟩

theorem LoopFrame.mono {idx n idx' n' : Nat} {s t : State} (h : LoopFrame idx n s t) (h1 : idx' ≤ idx)
    (h2 : idx + n ≤ idx' + n') : LoopFrame idx' n' s t :=
  { h with
    outside := fun j hj => h.outside j (by omega)
    words := fun e he => (h.words e he).imp id fun ⟨a, b, c⟩ => ⟨by omega, by omega, c⟩ }

theorem LoopFrame.trans {idx n : Nat} {s t u : State} (h : LoopFrame idx n s t)
    (k : LoopFrame idx n t u) : LoopFrame idx n s u := by
  refine ⟨k.params.trans h.params, k.kind.trans h.kind, k.bitWidth.trans h.bitWidth,
    k.constOnly.trans h.constOnly, k.fault.trans h.fault, k.input.trans h.input, k.pending.trans h.pending,
    k.rsp.trans h.rsp, ?_, fun j hj => (k.outside j hj).trans (h.outside j hj), fun w => k.wf (h.wf w), ?_⟩
  · have h1 := h.pos
    have h2 := k.pos
    simp only [State.avail, h.input] at *
    omega
  · intro e he
    rcases k.words e he with h3 | ⟨a, b, c, hc⟩
    · exact h.words e h3
    · exact .inr ⟨a, b, c, by rw [← h.params]; exact hc⟩

theorem LoopFrame.avail_le {idx n : Nat} {s t : State} (h : LoopFrame idx n s t) : t.avail ≤ s.avail := by
  have h1 := h.pos
  simp only [State.avail, h.input] at *
  omega

theorem refill_ok {s t : State} {more : Bool} (h : refill s = .ok more t) :
    InnerFrame s t ∧ (s.pos ≤ t.pos ∧ t.pos ≤ s.pos + s.avail) ∧
      (more = false → s.currentCount = 0 ∧ decodeRecord s = .ok false t ∧ t.exhausted ∧
        t.currentCount = 0) ∧ (s.UnitsIdle → t.UnitsIdle) := by
  by_cases h0 : s.currentCount = 0
  · rw [refill_empty h0] at h
    obtain ⟨hf, h1, h2, -, h4, h5⟩ := decodeRecord_ok h
    refine ⟨hf, ⟨h1, h2⟩, fun hm => ⟨h0, by rw [h, hm], (h4 hm).2.1, ?_⟩, h5⟩
    rcases (h4 hm).2.2.2.2.2 with h6 | h6
    · rw [h6, h0]
    · exact h6
  · rw [refill_pending h0] at h
    obtain ⟨rfl, rfl⟩ := Res.ok.inj h
    exact ⟨InnerFrame.refl s, ⟨Nat.le_refl _, by simp⟩, by simp, id⟩

theorem refill_raised {s t : State} {f : FaultCode} (h : refill s = .raised f t) :
    s.currentCount = 0 ∧ decodeRecord s = .raised f t := by
  by_cases h0 : s.currentCount = 0
  · exact ⟨h0, by rw [← refill_empty h0]; exact h⟩
  · rw [refill_pending h0] at h
    cases h

/-- All the loop can do when it comes to its end: either every value wanted was there, or the values ran out
with nothing more to decode. -/
theorem drain_ok {copy : Nat → Nat → State → Res Unit} (hcopy : LawfulCopy copy) (remaining idx : Nat)
    (s : State) {left : Nat} {t : State} (h : drain copy remaining idx s = .ok left t) :
    LoopFrame idx remaining s t ∧ left ≤ remaining ∧
      (left ≠ 0 → t.currentCount = 0 ∧ t.exhausted) ∧ (s.UnitsIdle → t.UnitsIdle) := by
  revert left t
  refine drain_induction (P := fun remaining idx s => ∀ {left : Nat} {t : State},
    drain copy remaining idx s = .ok left t → LoopFrame idx remaining s t ∧ left ≤ remaining ∧
      (left ≠ 0 → t.currentCount = 0 ∧ t.exhausted) ∧ (s.UnitsIdle → t.UnitsIdle)) ?_ ?_ remaining idx s
  · intro idx s left t h
    rw [drain_zero] at h
    obtain ⟨rfl, rfl⟩ := Res.ok.inj h
    exact ⟨LoopFrame.of_inner (InnerFrame.refl s) ⟨Nat.le_refl _, by simp⟩, Nat.le_refl _, by simp, id⟩
  · intro remaining idx s hrem ih left t h
    rcases drain_step hcopy idx s hrem with ⟨r, -, e⟩ | ⟨f, u, -, e⟩ | ⟨u, hr, e⟩ | ⟨u, hr, hcase⟩
    · rw [e] at h
      cases h
    · rw [e] at h
      cases h
    · rw [e] at h
      obtain ⟨rfl, rfl⟩ := Res.ok.inj h
      obtain ⟨hf, hp, hm, hu⟩ := refill_ok hr
      exact ⟨LoopFrame.of_inner hf hp, Nat.le_refl _, fun _ => ⟨(hm rfl).2.2.2, (hm rfl).2.2.1⟩, hu⟩
    · rcases hcase with ⟨v, -, -, e⟩ | ⟨v, -, hf, hprog, e⟩
      · rw [e] at h
        cases h
      · rw [e] at h
        obtain ⟨hf2, hle, hex, hun⟩ := ih _ _ _ hprog h
        obtain ⟨hfr, hp, -, hu⟩ := refill_ok hr
        have hn := takeNow_le_remaining remaining u
        refine ⟨?_, by omega, hex, fun i => hun ?_⟩
        · have l1 : LoopFrame idx remaining s u := LoopFrame.of_inner hfr hp
          have l2 : LoopFrame idx remaining u v := (LoopFrame.of_copy hf).mono (Nat.le_refl _) (by omega)
          exact (l1.trans l2).trans ((LoopFrame.of_consume idx remaining _ v).trans
            (hf2.mono (by omega) (by omega)))
        · have hi := hu i
          rw [hf.rest]
          exact ⟨hi.acc, hi.shift, hi.header, hi.unpackAcc, hi.fill⟩

/-- All the loop can do when it raises: the fault of a record, with the run-state as it was before that
record, or a missing code. -/
theorem drain_raised {copy : Nat → Nat → State → Res Unit} (hcopy : LawfulCopy copy) (remaining idx : Nat)
    (s : State) {f : FaultCode} {t : State} (h : drain copy remaining idx s = .raised f t) :
    LoopFrame idx remaining s t ∧ (f = .truncatedStream ∨ f = .capacity ∨ f = .dictionaryMiss) := by
  revert f t
  refine drain_induction (P := fun remaining idx s => ∀ {f : FaultCode} {t : State},
    drain copy remaining idx s = .raised f t → LoopFrame idx remaining s t ∧
      (f = .truncatedStream ∨ f = .capacity ∨ f = .dictionaryMiss)) ?_ ?_ remaining idx s
  · intro idx s f t h
    rw [drain_zero] at h
    cases h
  · intro remaining idx s hrem ih f t h
    rcases drain_step hcopy idx s hrem with ⟨r, -, e⟩ | ⟨f', u, hr, e⟩ | ⟨u, hr, e⟩ | ⟨u, hr, hcase⟩
    · rw [e] at h
      cases h
    · rw [e] at h
      obtain ⟨rfl, rfl⟩ := Res.raised.inj h
      obtain ⟨hff, hf, -, h1, h2, -⟩ := decodeRecord_raised (refill_raised hr).2
      exact ⟨LoopFrame.of_inner hf ⟨h1, h2⟩, hff.imp id .inl⟩
    · rw [e] at h
      cases h
    · obtain ⟨hfr, hp, -, -⟩ := refill_ok hr
      have hn := takeNow_le_remaining remaining u
      have l1 : LoopFrame idx remaining s u := LoopFrame.of_inner hfr hp
      rcases hcase with ⟨v, -, hf, e⟩ | ⟨v, -, hf, hprog, e⟩
      · rw [e] at h
        obtain ⟨rfl, rfl⟩ := Res.raised.inj h
        exact ⟨l1.trans ((LoopFrame.of_copy hf).mono (Nat.le_refl _) (by omega)), .inr (.inr rfl)⟩
      · rw [e] at h
        obtain ⟨hf2, hff⟩ := ih _ _ _ hprog h
        have l2 : LoopFrame idx remaining u v := (LoopFrame.of_copy hf).mono (Nat.le_refl _) (by omega)
        exact ⟨(l1.trans l2).trans ((LoopFrame.of_consume idx remaining _ v).trans
          (hf2.mono (by omega) (by omega))), hff⟩

end Sys2Proof.Machine
end

