-- ==== Sys2Proof/Laws/Invariant.lean ====
section
/-! SUPPORT. Each operation keeps the invariant `State.Inv` (spec/10_state.md R29): one lemma per operation, for the
proof that every step keeps it. -/

namespace Sys2Proof.Machine

theorem State.UnitsIdle.of_eq {s t : State} (h : s.UnitsIdle) (h1 : t.acc = s.acc) (h2 : t.shift = s.shift)
    (h3 : t.header = s.header) (h4 : t.unpackAcc = s.unpackAcc) (h5 : t.fill = s.fill) : t.UnitsIdle :=
  ⟨h1.trans h.acc, h2.trans h.shift, h3.trans h.header, h4.trans h.unpackAcc, h5.trans h.fill⟩

theorem State.clearUnits_idle (s : State) : s.clearUnits.UnitsIdle := ⟨rfl, rfl, rfl, rfl, rfl⟩

/-- With the units idle, clearing them changes nothing. -/
theorem State.clearUnits_eq {s : State} (h : s.UnitsIdle) : s.clearUnits = s := by
  cases s
  obtain ⟨h1, h2, h3, h4, h5⟩ := h
  simp only at h1 h2 h3 h4 h5
  simp [State.clearUnits, h1, h2, h3, h4, h5]

/-! ### Header values and counts -/

theorem decodeHeader_brun {kind : Kind} {h : Word} {n : BitVec 31} {b : BitVec 1}
    (e : decodeHeader kind h = .brun n b) : kind = .singleBit := by
  cases kind with
  | singleBit => rfl
  | generic =>
    simp only [decodeHeader] at e
    split at e <;> cases e

theorem decodeHeader_generic {kind : Kind} {h : Word} (e : ∀ n b, decodeHeader kind h ≠ .brun n b) :
    kind = .generic := by
  cases kind with
  | singleBit => exact absurd rfl (e _ _)
  | generic => rfl

/-- The value of a SingleBit run is 0 or 1 (R98). -/
theorem bitValue_cases (b : BitVec 1) : bitValue b = 0 ∨ bitValue b = 1 := by
  have hb := b.isLt
  have : b.toNat = 0 ∨ b.toNat = 1 := by omega
  rcases this with h | h
  · exact .inl (BitVec.eq_of_toNat_eq (by simp [bitValue, h]))
  · exact .inr (BitVec.eq_of_toNat_eq (by simp [bitValue, h]))

theorem runCount_toNat (n : BitVec 31) : (runCount n).toNat = n.toNat := by
  have := n.isLt
  rw [runCount, BitVec.toNat_setWidth]
  omega

/-- `numGroups * 8` is exact when the buffer can hold it (R63 item 3). -/
theorem packedCount_toNat {g : BitVec 31} (h : g.toNat ≤ 2 ^ 29 - 1) :
    (packedCount g).toNat = 8 * g.toNat := by
  rw [packedCount, BitVec.toNat_ofNat]
  omega

/-! ### `Decode()` -/

/-- A header's record decoder keeps the invariant up to the transient units, which it leaves idle. -/
theorem headerRecord_inv {s t : State} {m : Nat} {h : Word} (hi : s.Inv) (hc : s.constOnly = false)
    (hm : m ≤ s.avail)
    (e : headerRecord (decodeHeader s.kind h) (s.withHeader m h) = .ok () t) : t.Inv := by
  have hpos := hi.pos
  have hav : (s.withHeader m h).avail = s.avail - m := State.avail_advance m s
  have hle : s.avail = s.input.length - s.pos := rfl
  have hw := hi.width hc
  rcases hf : decodeHeader s.kind h with n | g | ⟨n, b⟩
  · have hg : s.kind = .generic := decodeHeader_generic (h := h) (by simp [hf])
    rw [hf] at e
    by_cases hk : (s.withHeader m h).avail < runValueBytes (s.withHeader m h).bitWidth.val
    · have := runRecord_cut (n := n) hk
      rw [headerRecord, this] at e
      cases e
    · have := runRecord_eq (n := n) (s := s.withHeader m h) hw (by omega)
      rw [headerRecord, this] at e
      obtain ⟨-, rfl⟩ := Res.ok.inj e
      rw [hav] at hk
      refine ⟨by simp, by simp, ?_, ?_, ?_, by simp, hi.params, hi.width, hi.out,
        ⟨rfl, rfl, rfl, hi.units.unpackAcc, hi.units.fill⟩⟩
      · simp only [State.withHeader] at hk ⊢
        omega
      · intro h'
        simp only [State.withHeader] at h'
        rw [hc] at h'
        cases h'
      · intro h'
        simp only [State.withHeader] at h'
        rw [hg] at h'
        cases h'
  · have hg : s.kind = .generic := decodeHeader_generic (h := h) (by simp [hf])
    rw [hf] at e
    by_cases hk : (s.withHeader m h).params.bufCapGroups < g.toNat
    · have := packedRecord_capacity hk
      rw [headerRecord, this] at e
      cases e
    · have := packedRecord_eq (g := g) (s := s.withHeader m h) hw (by omega)
      rw [headerRecord, this] at e
      obtain ⟨-, rfl⟩ := Res.ok.inj e
      have hcap := hi.params.2.2.1
      have hk' : g.toNat ≤ s.params.bufCapGroups := by
        simp only [State.withHeader] at hk
        omega
      refine ⟨?_, by simp, ?_, ?_, ?_, fieldsOf_lt (Nat.le_of_lt_succ s.bitWidth.isLt), hi.params,
        hi.width, hi.out, ⟨rfl, rfl, rfl, ?_, rfl⟩⟩
      · intro _
        simp only [fieldsOf_length]
        rw [packedCount_toNat (by omega)]
        exact ⟨by omega, Nat.mul_le_mul_left 8 hk', Nat.le_refl _⟩
      · have : (s.withHeader m h).pos = s.pos + m := rfl
        have h2 : (s.withHeader m h).input = s.input := rfl
        simp only [hav, this, h2]
        omega
      · intro h'
        simp only [State.withHeader] at h'
        rw [hc] at h'
        cases h'
      · intro h'
        simp only [State.withHeader] at h'
        rw [hg] at h'
        cases h'
      · have := hi.units.unpackAcc
        simp [State.withHeader, this]
  · rw [hf, headerRecord, brunRecord_eq] at e
    obtain ⟨-, rfl⟩ := Res.ok.inj e
    refine ⟨by simp, by simp, ?_, ?_, fun _ => ⟨rfl, rfl, fun _ => bitValue_cases b⟩, by simp, hi.params,
      hi.width, hi.out, ⟨rfl, rfl, rfl, hi.units.unpackAcc, hi.units.fill⟩⟩
    · simp only [State.withHeader]
      omega
    · intro h'
      simp only [State.withHeader] at h'
      rw [hc] at h'
      cases h'

/-- A `Decode()` that answers keeps the invariant. -/
theorem decodeRecord_inv {s t : State} {more : Bool} (hi : s.Inv) (h : decodeRecord s = .ok more t) :
    t.Inv := by
  rcases decodeRecord_cases s with ⟨hc, e⟩ | ⟨hc, ha, e⟩ | ⟨-, e⟩ | ⟨hc, m, hd, hm, hma, e⟩
  · rw [e] at h
    obtain ⟨-, rfl⟩ := Res.ok.inj h
    exact hi
  · rw [e] at h
    obtain ⟨-, rfl⟩ := Res.ok.inj h
    refine ⟨fun hm => ?_, hi.runBuf, hi.pos, hi.constOnly, hi.singleBit, hi.slots, hi.params, hi.width, hi.out,
      hi.units.of_eq rfl rfl rfl rfl rfl⟩
    have := hi.packedBuf hm
    exact ⟨this.1, this.2.1, Nat.zero_le _⟩
  · rw [e] at h
    cases h
  · rw [e] at h
    obtain ⟨_, s2, h2, h3⟩ := Res.bind_eq_ok.1 h
    obtain ⟨-, rfl⟩ := Res.ok.inj h3
    exact headerRecord_inv hi hc hma h2

/-- The state in which a fault raised by `Decode()` is taken keeps the invariant: the run-state is as it was,
and taking the fault makes the units idle (R150). -/
theorem decodeRecord_raised_inv {s t : State} {f : FaultCode} (hi : s.Inv)
    (h : decodeRecord s = .raised f t) : t.clearUnits.Inv := by
  obtain ⟨-, hf, hr, h1, h2, hc⟩ := decodeRecord_raised h
  have hpos := hi.pos
  have hle : s.avail = s.input.length - s.pos := rfl
  refine ⟨fun hm => ?_, fun hm => ?_, ?_, fun hco => ?_, fun hk => ?_, fun v hv => ?_, ?_, fun hco => ?_, ?_,
    State.clearUnits_idle t⟩
  · simp only [State.clearUnits_mode, State.clearUnits_buf, State.clearUnits_params,
      State.clearUnits_currentCount, hr.mode, hr.buf, hf.params, hr.currentCount] at *
    exact hi.packedBuf hm
  · simp only [State.clearUnits_mode, State.clearUnits_buf, hr.mode, hr.buf] at *
    exact hi.runBuf hm
  · simp only [State.clearUnits_pos, State.clearUnits_input, hf.input]
    omega
  · simp only [State.clearUnits_constOnly, hf.constOnly] at hco
    rw [hc] at hco
    cases hco
  · simp only [State.clearUnits_kind, State.clearUnits_mode, State.clearUnits_buf, State.clearUnits_constOnly,
      State.clearUnits_currentValue, hf.kind, hr.mode, hr.buf, hf.constOnly, hr.currentValue] at *
    exact hi.singleBit hk
  · simp only [State.clearUnits_buf, State.clearUnits_bitWidth, hr.buf, hf.bitWidth] at *
    exact hi.slots v hv
  · simp only [State.clearUnits_params, hf.params]
    exact hi.params
  · simp only [State.clearUnits_constOnly, State.clearUnits_bitWidth, hf.constOnly, hf.bitWidth] at *
    exact hi.width hco
  · simp only [State.clearUnits_out, State.clearUnits_params, hf.out, hf.params]
    exact hi.out

/-! ### The copy and the loop -/

/-- Output writes inside `OUT` of words the dictionary gives keep the invariant. -/
theorem CopyFrame.inv {idx n : Nat} {s t : State} (hi : s.Inv) (h : CopyFrame idx n s t)
    (hb : idx + n ≤ s.params.outSize) : t.Inv := by
  have hout : t.out.wf = true ∧ ∀ e ∈ t.out, e.1 < s.params.outSize ∧ e.2 < 2 ^ s.params.domainWidth := by
    refine ⟨h.wf hi.out.1, fun e he => ?_⟩
    rcases h.words e he with h1 | ⟨h1, h2, c, hc⟩
    · exact hi.out.2 e h1
    · exact ⟨by omega, hi.params.2.2.2.2.1 _ (dictResolve_mem hc)⟩
  rw [h.rest]
  exact ⟨hi.packedBuf, hi.runBuf, hi.pos, hi.constOnly, hi.singleBit, hi.slots, hi.params, hi.width, hout,
    hi.units.of_eq rfl rfl rfl rfl rfl⟩

/-- Consuming values keeps the invariant. -/
theorem State.consume_inv {n : Nat} {s : State} (hi : s.Inv) (h : n ≤ s.currentCount.toNat) :
    (s.consume n).Inv := by
  refine ⟨fun hm => ?_, hi.runBuf, hi.pos, hi.constOnly, hi.singleBit, hi.slots, hi.params, hi.width, hi.out,
    hi.units.of_eq rfl rfl rfl rfl rfl⟩
  have := hi.packedBuf hm
  rw [consume_count h]
  exact ⟨this.1, this.2.1, by simp only [State.consume_buf]; omega⟩

theorem refill_inv {s t : State} {more : Bool} (hi : s.Inv) (h : refill s = .ok more t) : t.Inv := by
  by_cases h0 : s.currentCount = 0
  · rw [refill_empty h0] at h
    exact decodeRecord_inv hi h
  · rw [refill_pending h0] at h
    obtain ⟨-, rfl⟩ := Res.ok.inj h
    exact hi

/-- The loop keeps the invariant for a request inside `OUT`: when it comes to its end, and in the state in
which a fault it raises is taken; and it never meets an operation without a meaning. -/
theorem drain_inv {copy : Nat → Nat → State → Res Unit} (hcopy : LawfulCopy copy) (remaining idx : Nat)
    (s : State) (hi : s.Inv) (hb : idx + remaining ≤ s.params.outSize) :
    (∃ left t, drain copy remaining idx s = .ok left t ∧ t.Inv) ∨
      ∃ f t, drain copy remaining idx s = .raised f t ∧ t.clearUnits.Inv := by
  revert hi hb
  refine drain_induction (P := fun remaining idx s => s.Inv → idx + remaining ≤ s.params.outSize →
    (∃ left t, drain copy remaining idx s = .ok left t ∧ t.Inv) ∨
      ∃ f t, drain copy remaining idx s = .raised f t ∧ t.clearUnits.Inv) ?_ ?_ remaining idx s
  · intro idx s hi _
    exact .inl ⟨0, s, drain_zero copy idx s, hi⟩
  · intro remaining idx s hrem ih hi hb
    rcases drain_step hcopy idx s hrem with ⟨r, hr, -⟩ | ⟨f, t, hr, e⟩ | ⟨t, hr, e⟩ | ⟨t, hr, hcase⟩
    · exfalso
      by_cases h0 : s.currentCount = 0
      · rw [refill_empty h0] at hr
        exact decodeRecord_not_refused hi.width r hr
      · rw [refill_pending h0] at hr
        cases hr
    · exact .inr ⟨f, t, e, decodeRecord_raised_inv hi (refill_raised hr).2⟩
    · exact .inl ⟨remaining, t, e, refill_inv hi hr⟩
    · have hit := refill_inv hi hr
      have hpar := (refill_ok hr).1.params
      have hn := takeNow_le_remaining remaining t
      rcases hcase with ⟨u, -, hf, e⟩ | ⟨u, -, hf, hprog, e⟩
      · have hiu := hf.inv hit (by rw [hpar]; omega)
        exact .inr ⟨_, u, e, by rw [State.clearUnits_eq hiu.units]; exact hiu⟩
      · have hiu := hf.inv hit (by rw [hpar]; omega)
        have hcu : u.currentCount = t.currentCount := by rw [hf.rest]
        have hpu : u.params = t.params := by rw [hf.rest]
        rw [e]
        refine ih _ _ _ hprog (State.consume_inv hiu (by rw [hcu]; exact takeNow_le_count _ _)) ?_
        rw [State.consume_params, hpu, hpar]
        omega

/-! ### Taking a fault, answering, starting an instance -/

/-- The fault register, the response and what the outside will do are in none of the invariant's items. -/
theorem State.Inv.of_ports {s t : State} (hi : s.Inv)
    (h : t = { s with fault := t.fault, rsp := t.rsp, pending := t.pending }) : t.Inv := by
  rw [h]
  exact ⟨hi.packedBuf, hi.runBuf, hi.pos, hi.constOnly, hi.singleBit, hi.slots, hi.params, hi.width, hi.out,
    hi.units.of_eq rfl rfl rfl rfl rfl⟩

theorem State.raiseFault_inv {s : State} (hi : s.clearUnits.Inv) (f : FaultCode) : (s.raiseFault f).Inv :=
  hi.of_ports rfl

theorem State.respond_inv {s : State} (hi : s.Inv) (r : Response) : (s.respond r).Inv := hi.of_ports rfl

/-- A state without an instance: what of the invariant is about the environment is enough. -/
theorem State.dropInstance_inv {s : State} (hp : s.params.Wf)
    (ho : s.out.wf = true ∧ ∀ e ∈ s.out, e.1 < s.params.outSize ∧ e.2 < 2 ^ s.params.domainWidth) :
    s.dropInstance.Inv := by
  refine ⟨by simp, by simp, by simp, by simp, by simp, by simp, hp, by simp, ho, ⟨rfl, rfl, rfl, rfl, rfl⟩⟩

/-- A new instance over a dropped one keeps the invariant. -/
theorem State.buildInstance_inv {s : State} (hi : s.dropInstance.Inv) (kind : Kind) (fixed : Bool)
    (bw : BitVec 6) (value count : Word) (stream : List Byte) (hbw : bw.toNat ≤ 32) :
    (s.dropInstance.buildInstance kind fixed bw value count stream).Inv := by
  rw [State.buildInstance]
  by_cases h : fixed = true ∨ bw = 0
  · simp only [if_pos h]
    exact ⟨by simp, by simp, by simp, by simp, by simp, by simp, hi.params, by simp, hi.out,
      hi.units.of_eq rfl rfl rfl rfl rfl⟩
  · simp only [if_neg h]
    refine ⟨by simp, by simp, by simp, by simp, by simp, by simp, hi.params, fun _ => ?_, hi.out,
      hi.units.of_eq rfl rfl rfl rfl rfl⟩
    have h2 : bw ≠ 0 := fun e => h (.inr e)
    intro h3
    apply h2
    apply BitVec.eq_of_toNat_eq
    have h4 := congrArg Fin.val h3
    simp only [Fin.ofNat] at h4
    change bw.toNat % 33 = 0 at h4
    change bw.toNat = 0
    omega

end Sys2Proof.Machine
end

