-- ==== Sys2Proof/Laws/Split.lean ====
section
/-! SUPPORT. What READNEXT and SKIP have in common (spec/43_typed_reader.md R113, R118): `Decode()` sees neither the
output space nor the response, the two loops go through the same states, and a request may be cut in two. -/

namespace Sys2Proof.Machine

/-- The same end of an operation, in a changed state. -/
def Res.mapState {α : Type} (g : State → State) : Res α → Res α
  | .ok a s => .ok a (g s)
  | .raised f s => .raised f (g s)
  | .refused r => .refused r

@[simp] theorem Res.mapState_ok {α : Type} (g : State → State) (a : α) (s : State) :
    (Res.ok a s).mapState g = .ok a (g s) := rfl

@[simp] theorem Res.mapState_raised {α : Type} (g : State → State) (f : FaultCode) (s : State) :
    (Res.raised f s : Res α).mapState g = .raised f (g s) := rfl

@[simp] theorem Res.mapState_refused {α : Type} (g : State → State) (r : Refusal) :
    (Res.refused r : Res α).mapState g = .refused r := rfl

/-- A state with another output space and another response. -/
def State.withPorts (rsp : Option Response) (out : OutMem) (s : State) : State :=
  { s with rsp := rsp, out := out }

@[simp] theorem State.withPorts_self (s : State) : s.withPorts s.rsp s.out = s := rfl

/-! ### `Decode()` sees neither -/

theorem readVarintFrom_withPorts (rsp : Option Response) (out : OutMem) (left : Nat) (s : State) :
    readVarintFrom left (s.withPorts rsp out) = (readVarintFrom left s).mapState (State.withPorts rsp out) := by
  induction left generalizing s with
  | zero => rfl
  | succ left ih =>
    simp only [readVarintFrom]
    have hi : (s.withPorts rsp out).input[(s.withPorts rsp out).pos]? = s.input[s.pos]? := rfl
    rw [hi]
    rcases s.input[s.pos]? with _ | b
    · rfl
    · simp only
      cases decodeVByte b with
      | cont p => exact ih (continueVarint p (s.advance 1))
      | last p => rfl

theorem unpackLanes_withPorts (rsp : Option Response) (out : OutMem) (w n : Nat) (s : State) :
    unpackLanes w n (s.withPorts rsp out) = (unpackLanes w n s).withPorts rsp out := by
  rw [unpackLanes_eq, unpackLanes_eq]
  rfl

theorem unpackGroup_withPorts (rsp : Option Response) (out : OutMem) (w : Nat) (group : List Byte) (s : State) :
    unpackGroup w group (s.withPorts rsp out) = (unpackGroup w group s).mapState (State.withPorts rsp out) := by
  by_cases h : (1 ≤ w ∧ w ≤ 32) ∧ group.length = w
  · rw [unpackGroup, unpackGroup, if_pos h, if_pos h, Res.mapState_ok, ← unpackLanes_withPorts]
    rfl
  · rw [unpackGroup, unpackGroup, if_neg h, if_neg h, Res.mapState_refused]

theorem unpackGroups_withPorts (rsp : Option Response) (out : OutMem) (w n : Nat) (payload : List Byte)
    (s : State) :
    unpackGroups w n payload (s.withPorts rsp out) =
      (unpackGroups w n payload s).mapState (State.withPorts rsp out) := by
  induction n generalizing payload s with
  | zero => rfl
  | succ n ih =>
    rw [unpackGroups, unpackGroups, unpackGroup_withPorts]
    rcases unpackGroup w (payload.take w) s with ⟨_, t⟩ | ⟨f, t⟩ | r
    · exact ih _ t
    · rfl
    · rfl

theorem takeRunValue_withPorts (rsp : Option Response) (out : OutMem) (k : Nat) (value : Word) (s : State) :
    takeRunValue k value (s.withPorts rsp out) =
      (takeRunValue k value s).mapState (State.withPorts rsp out) := by
  by_cases h : (1 ≤ k ∧ k ≤ 4) ∧ value.toNat < 2 ^ (8 * k)
  · rw [takeRunValue, takeRunValue, if_pos h, if_pos h]
    rfl
  · rw [takeRunValue, takeRunValue, if_neg h, if_neg h]
    rfl

theorem headerRecord_withPorts (rsp : Option Response) (out : OutMem) (h : HeaderForm) (s : State) :
    headerRecord h (s.withPorts rsp out) = (headerRecord h s).mapState (State.withPorts rsp out) := by
  cases h with
  | brun n b => rfl
  | run n =>
    simp only [headerRecord, runRecord]
    by_cases hk : s.avail < runValueBytes s.bitWidth.val
    · rw [if_pos hk, if_pos (show (s.withPorts rsp out).avail <
        runValueBytes (s.withPorts rsp out).bitWidth.val from hk)]
      rfl
    · rw [if_neg hk, if_neg (show ¬(s.withPorts rsp out).avail <
        runValueBytes (s.withPorts rsp out).bitWidth.val from hk)]
      have e := takeRunValue_withPorts rsp out (s.window (runValueBytes s.bitWidth.val)).length
        (BitVec.ofNat 32 (leNat (s.window (runValueBytes s.bitWidth.val))))
        (s.takeHeader.advance (runValueBytes s.bitWidth.val))
      generalize takeRunValue (s.window (runValueBytes s.bitWidth.val)).length
        (BitVec.ofNat 32 (leNat (s.window (runValueBytes s.bitWidth.val))))
        (s.takeHeader.advance (runValueBytes s.bitWidth.val)) = r at e ⊢
      refine (congrArg (fun r : Res Unit => r.bind fun _ s1 => .ok () (s1.enterRun (runCount n))) e).trans ?_
      rcases r with ⟨_, t⟩ | ⟨f, t⟩ | r <;> rfl
  | packed g =>
    simp only [headerRecord, packedRecord]
    by_cases hk : s.params.bufCapGroups < g.toNat
    · rw [if_pos hk, if_pos (show (s.withPorts rsp out).params.bufCapGroups < _ from hk)]
      rfl
    · rw [if_neg hk, if_neg (show ¬(s.withPorts rsp out).params.bufCapGroups < _ from hk)]
      have e := unpackGroups_withPorts rsp out s.bitWidth.val g.toNat (paddedPayload g s)
        { s.takeHeader.advance (min (requiredBytes g s) s.avail) with fill := [] }
      have e2 : unpackGroups (s.withPorts rsp out).bitWidth.val g.toNat (paddedPayload g (s.withPorts rsp out))
          { (s.withPorts rsp out).takeHeader.advance
              (min (requiredBytes g (s.withPorts rsp out)) (s.withPorts rsp out).avail) with fill := [] } =
          (unpackGroups s.bitWidth.val g.toNat (paddedPayload g s)
            { s.takeHeader.advance (min (requiredBytes g s) s.avail) with fill := [] }).mapState
            (State.withPorts rsp out) := e
      rw [e2]
      rcases unpackGroups s.bitWidth.val g.toNat (paddedPayload g s)
          { s.takeHeader.advance (min (requiredBytes g s) s.avail) with fill := [] } with _ | _ | _ <;> rfl

theorem decodeRecord_withPorts (rsp : Option Response) (out : OutMem) (s : State) :
    decodeRecord (s.withPorts rsp out) = (decodeRecord s).mapState (State.withPorts rsp out) := by
  simp only [decodeRecord]
  by_cases hc : s.constOnly = true
  · rw [if_pos hc, if_pos (show (s.withPorts rsp out).constOnly = true from hc)]
    rfl
  · rw [if_neg hc, if_neg (show ¬(s.withPorts rsp out).constOnly = true from hc)]
    by_cases ha : s.avail = 0
    · rw [if_pos ha, if_pos (show (s.withPorts rsp out).avail = 0 from ha)]
      rfl
    · rw [if_neg ha, if_neg (show ¬(s.withPorts rsp out).avail = 0 from ha)]
      have e : readVarint (s.withPorts rsp out) = (readVarint s).mapState (State.withPorts rsp out) :=
        readVarintFrom_withPorts rsp out s.avail s.idleReader
      rw [e]
      rcases readVarint s with ⟨h, t⟩ | ⟨f, t⟩ | r
      · simp only [Res.mapState_ok, Res.bind_ok]
        have e2 := headerRecord_withPorts rsp out (decodeHeader t.kind h) t
        have e3 : headerRecord (decodeHeader (t.withPorts rsp out).kind h) (t.withPorts rsp out) =
          (headerRecord (decodeHeader t.kind h) t).mapState (State.withPorts rsp out) := e2
        rw [e3]
        rcases headerRecord (decodeHeader t.kind h) t with _ | _ | _ <;> rfl
      · rfl
      · rfl

theorem refill_withPorts (rsp : Option Response) (out : OutMem) (s : State) :
    refill (s.withPorts rsp out) = (refill s).mapState (State.withPorts rsp out) := by
  by_cases h : s.currentCount = 0
  · rw [refill_empty h, refill_empty (show (s.withPorts rsp out).currentCount = 0 from h)]
    exact decodeRecord_withPorts rsp out s
  · rw [refill_pending h, refill_pending (show (s.withPorts rsp out).currentCount ≠ 0 from h)]
    rfl

/-! ### The words of a copy -/

theorem nextSlots_length {s : State} {n : Nat} (hi : s.Inv) (hm : s.mode = .packed)
    (hn : n ≤ s.currentCount.toNat) : (s.nextSlots n).length = n := by
  have := hi.packedBuf hm
  simp only [State.nextSlots, State.bufLen, List.length_take, List.length_drop]
  omega

theorem copySlots_words (cs : List Word) (s : State) :
    ∃ ws : List Nat, (∀ v ∈ ws, ∃ c, dictResolve s.params.dict c = some v) ∧ ws.length ≤ cs.length ∧
      ((ws.length = cs.length ∧ ∀ rsp i out, copySlots cs i (s.withPorts rsp out) =
          .ok () (s.withPorts rsp (OutMem.writeWords ws i out))) ∨
        ∀ rsp i out, copySlots cs i (s.withPorts rsp out) =
          .raised .dictionaryMiss (s.withPorts rsp (OutMem.writeWords ws i out))) := by
  induction cs with
  | nil => exact ⟨[], by simp, Nat.le_refl _, .inl ⟨rfl, fun _ _ _ => rfl⟩⟩
  | cons c cs ih =>
    obtain ⟨ws, hws, hlen, hcase⟩ := ih
    rcases hd : dictResolve s.params.dict c with _ | v
    · refine ⟨[], by simp, Nat.zero_le _, .inr fun rsp i out => ?_⟩
      rw [copySlots, resolve_miss (show dictResolve (s.withPorts rsp out).params.dict c = none from hd)]
      rfl
    · refine ⟨v :: ws, ?_, by simpa using hlen, ?_⟩
      · intro u hu
        rcases List.mem_cons.1 hu with rfl | hu
        · exact ⟨c, hd⟩
        · exact hws u hu
      · have step : ∀ rsp i out, copySlots (c :: cs) i (s.withPorts rsp out) =
            copySlots cs (i + 1) (s.withPorts rsp (out.write i v)) := by
          intro rsp i out
          rw [copySlots, resolve_hit (show dictResolve (s.withPorts rsp out).params.dict c = some v from hd)]
          rfl
        rcases hcase with ⟨hl, h⟩ | h
        · exact .inl ⟨by simp [hl], fun rsp i out => by rw [step, h]; rfl⟩
        · exact .inr fun rsp i out => by rw [step, h]; rfl

/-- The words one iteration of READNEXT writes do not depend on where it writes them. -/
theorem copyOut_words {n : Nat} {s : State} (hi : s.Inv) (hn : n ≤ s.currentCount.toNat) :
    ∃ ws : List Nat, (∀ v ∈ ws, ∃ c, dictResolve s.params.dict c = some v) ∧ ws.length ≤ n ∧
      ((ws.length = n ∧ ∀ rsp i out, copyOut n i (s.withPorts rsp out) =
          .ok () (s.withPorts rsp (OutMem.writeWords ws i out))) ∨
        ∀ rsp i out, copyOut n i (s.withPorts rsp out) =
          .raised .dictionaryMiss (s.withPorts rsp (OutMem.writeWords ws i out))) := by
  cases hm : s.mode with
  | run =>
    rcases hd : dictResolve s.params.dict s.currentValue with _ | v
    · exact ⟨[], by simp, Nat.zero_le _, .inr fun rsp i out => copyOut_run_miss (s := s.withPorts rsp out) hm hd⟩
    · refine ⟨List.replicate n v, ?_, by simp, .inl ⟨by simp, fun rsp i out =>
        copyOut_run (s := s.withPorts rsp out) hm hd⟩⟩
      intro u hu
      rw [(List.mem_replicate.1 hu).2]
      exact ⟨_, hd⟩
  | packed =>
    obtain ⟨ws, hws, hlen, hcase⟩ := copySlots_words (s.nextSlots n) s
    rw [nextSlots_length hi hm hn] at hlen
    refine ⟨ws, hws, hlen, ?_⟩
    have e : ∀ rsp i out, copyOut n i (s.withPorts rsp out) =
        copySlots (s.nextSlots n) i (s.withPorts rsp out) := fun rsp i out =>
      copyOut_of_packed (s := s.withPorts rsp out) hm n i
    rcases hcase with ⟨hl, h⟩ | h
    · exact .inl ⟨by rw [hl, nextSlots_length hi hm hn], fun rsp i out => by rw [e, h]⟩
    · exact .inr fun rsp i out => by rw [e, h]

/-! ### The two loops -/

/-- The loop of READNEXT goes through the same states wherever it writes, writes the same words there, and
SKIP's goes through them too. -/
theorem drain_words (remaining : Nat) (s : State) (hi : s.Inv) :
    ∃ (r : Res Nat) (ws : List Nat), (∀ v ∈ ws, ∃ c, dictResolve s.params.dict c = some v) ∧
      ws.length ≤ remaining ∧
      (∀ rsp idx out, drain copyOut remaining idx (s.withPorts rsp out) =
        r.mapState fun t => t.withPorts rsp (OutMem.writeWords ws idx out)) ∧
      ∀ left t, r = .ok left t → ws.length + left = remaining ∧
        ∀ rsp idx out, drain copyNothing remaining idx (s.withPorts rsp out) =
          .ok left (t.withPorts rsp out) := by
  revert hi
  refine drain_induction (P := fun remaining _ s => s.Inv → ∃ (r : Res Nat) (ws : List Nat),
    (∀ v ∈ ws, ∃ c, dictResolve s.params.dict c = some v) ∧ ws.length ≤ remaining ∧
    (∀ rsp idx out, drain copyOut remaining idx (s.withPorts rsp out) =
      r.mapState fun t => t.withPorts rsp (OutMem.writeWords ws idx out)) ∧
    ∀ left t, r = .ok left t → ws.length + left = remaining ∧
      ∀ rsp idx out, drain copyNothing remaining idx (s.withPorts rsp out) =
        .ok left (t.withPorts rsp out)) ?_ ?_ remaining 0 s
  · intro idx s _
    refine ⟨.ok 0 s, [], by simp, Nat.le_refl _, fun rsp idx out => by rw [drain_zero]; rfl, ?_⟩
    intro left t h
    obtain ⟨rfl, rfl⟩ := Res.ok.inj h
    exact ⟨rfl, fun rsp idx out => drain_zero _ _ _⟩
  · intro remaining idx s hrem ih hi
    have eo : ∀ rsp idx out, _ := fun rsp idx out =>
      drain_eq lawful_copyOut idx (s.withPorts rsp out) hrem
    have en : ∀ rsp idx out, _ := fun rsp idx out =>
      drain_eq lawful_copyNothing idx (s.withPorts rsp out) hrem
    simp only [refill_withPorts] at eo en
    rcases hr : refill s with ⟨more, t⟩ | ⟨f, t⟩ | r
    · cases more with
      | false =>
        refine ⟨.ok remaining t, [], by simp, Nat.zero_le _, fun rsp idx out => by rw [eo, hr]; rfl, ?_⟩
        intro left u h
        obtain ⟨rfl, rfl⟩ := Res.ok.inj h
        exact ⟨Nat.zero_add _, fun rsp idx out => by rw [en, hr]; rfl⟩
      | true =>
        have hit := refill_inv hi hr
        have hpar : t.params = s.params := (refill_ok hr).1.params
        have hn := takeNow_le_count remaining t
        have hnr := takeNow_le_remaining remaining t
        have eo' : ∀ rsp idx out, drain copyOut remaining idx (s.withPorts rsp out) =
            (copyOut (takeNow remaining t) idx (t.withPorts rsp out)).bind fun _ s2 =>
              drain copyOut (remaining - takeNow remaining t) (idx + takeNow remaining t)
                (s2.consume (takeNow remaining t)) := fun rsp idx out => by rw [eo, hr]; rfl
        have en' : ∀ rsp idx out, drain copyNothing remaining idx (s.withPorts rsp out) =
            drain copyNothing (remaining - takeNow remaining t) (idx + takeNow remaining t)
              ((t.consume (takeNow remaining t)).withPorts rsp out) :=
          fun rsp idx out => by rw [en, hr]; rfl
        obtain ⟨ws, hws, hlen, hcase⟩ := copyOut_words hit hn
        rw [hpar] at hws
        rcases hcase with ⟨hl, h⟩ | h
        · obtain ⟨r, ws', hws', hle, hout, hok⟩ :=
            ih (remaining - takeNow remaining t) 0 (t.consume (takeNow remaining t))
              (iteration_progress (copy := copyNothing) (idx := 0) lawful_copyNothing hr rfl)
              (State.consume_inv hit hn)
          rw [State.consume_params, hpar] at hws'
          refine ⟨r, ws ++ ws', ?_, by rw [List.length_append]; omega, ?_, ?_⟩
          · intro v hv
            rcases List.mem_append.1 hv with hv | hv
            · exact hws v hv
            · exact hws' v hv
          · intro rsp idx out
            rw [eo', h, Res.bind_ok]
            have := hout rsp (idx + takeNow remaining t) (OutMem.writeWords ws idx out)
            rw [OutMem.writeWords_append, hl]
            exact this
          · intro left u hu
            obtain ⟨h1, h2⟩ := hok left u hu
            rw [List.length_append]
            exact ⟨by omega, fun rsp idx out => by rw [en', h2]⟩
        · exact ⟨.raised .dictionaryMiss t, ws, hws, by omega, fun rsp idx out => by rw [eo', h]; rfl,
            fun left u hu => by cases hu⟩
    · refine ⟨.raised f t, [], by simp, Nat.zero_le _, fun rsp idx out => by rw [eo, hr]; rfl,
        fun left u h => by cases h⟩
    · refine ⟨.refused r, [], by simp, Nat.zero_le _, fun rsp idx out => by rw [eo, hr]; rfl,
        fun left u h => by cases h⟩

/-! ### A request cut in two -/

/-- A state with another count of pending values. -/
def State.withCount (count : Word) (s : State) : State := { s with currentCount := count }

theorem copySlots_append (xs ys : List Word) (i : Nat) (s : State) :
    copySlots (xs ++ ys) i s = (copySlots xs i s).bind fun _ s1 => copySlots ys (i + xs.length) s1 := by
  induction xs generalizing i s with
  | nil => rfl
  | cons c cs ih =>
    rw [List.cons_append, copySlots, copySlots]
    rcases resolve_cases c s with ⟨v, -, e⟩ | ⟨-, e⟩
    · rw [e, Res.bind_ok, Res.bind_ok, ih, List.length_cons, Nat.add_assoc, Nat.add_comm 1]
    · rw [e]
      rfl

theorem copySlots_withCount (count : Word) (cs : List Word) (i : Nat) (s : State) :
    copySlots cs i (s.withCount count) = (copySlots cs i s).mapState (State.withCount count) := by
  induction cs generalizing i s with
  | nil => rfl
  | cons c cs ih =>
    rw [copySlots, copySlots]
    rcases h : dictResolve s.params.dict c with _ | v
    · rw [resolve_miss h, resolve_miss (show dictResolve (s.withCount count).params.dict c = none from h)]
      rfl
    · rw [resolve_hit h, resolve_hit (show dictResolve (s.withCount count).params.dict c = some v from h)]
      exact ih (i + 1) (s.outWrite i v)

theorem nextSlots_split {s : State} {m n : Nat} (hi : s.Inv) (hm : s.mode = .packed)
    (hn : m + n ≤ s.currentCount.toNat) :
    s.nextSlots (m + n) = s.nextSlots m ++ (s.consume m).nextSlots n := by
  have hb := (hi.packedBuf hm).2.2
  have hc : (s.consume m).currentCount.toNat = s.currentCount.toNat - m := consume_count (by omega)
  simp only [State.nextSlots, State.bufLen, State.consume_buf, hc]
  rw [List.take_add, List.drop_drop]
  congr 3
  omega

/-- A copy of `m + n` values, when the first `m` are all in the dictionary, is a copy of `m` and then one of
`n`; only the count of pending values, which a copy does not write, is not lowered between them. -/
theorem copyOut_split {m n i : Nat} {s u : State} (hi : s.Inv) (hn : m + n ≤ s.currentCount.toNat)
    (h : copyOut m i s = .ok () u) :
    copyOut (m + n) i s = (copyOut n (i + m) (u.consume m)).mapState (State.withCount s.currentCount) := by
  cases hm : s.mode with
  | run =>
    rcases hd : dictResolve s.params.dict s.currentValue with _ | v
    · rw [copyOut_run_miss hm hd] at h
      cases h
    · rw [copyOut_run hm hd] at h ⊢
      obtain ⟨-, rfl⟩ := Res.ok.inj h
      rw [copyOut_run (v := v) (by exact hm) (by exact hd), ← List.replicate_append_replicate,
        OutMem.writeWords_append, List.length_replicate]
      rfl
  | packed =>
    rw [copyOut_of_packed hm] at h ⊢
    have hu : u = { s with out := u.out } := by
      rcases copySlots_cases (s.nextSlots m) i s with ⟨t, h1, h2⟩ | ⟨t, h1, h2⟩
      · rw [h1] at h
        obtain ⟨-, rfl⟩ := Res.ok.inj h
        exact h2.rest
      · rw [h1] at h
        cases h
    have hmu : (u.consume m).mode = .packed := by rw [hu]; exact hm
    have hsl : (u.consume m).nextSlots n = (s.consume m).nextSlots n := by rw [hu]; rfl
    have hl : (s.nextSlots m).length = m := nextSlots_length hi hm (by omega)
    rw [copyOut_of_packed hmu, nextSlots_split hi hm hn, copySlots_append, h, Res.bind_ok, hl, hsl,
      ← copySlots_withCount]
    congr 1
    rw [hu]
    rfl

/-- A request cut in two: when its first part is served, the rest continues where that ended. Only where a
code is missing in the rest, `currentCount` may differ. -/
theorem drain_split (m : Nat) (idx : Nat) (s : State) (hi : s.Inv)
    (hb : idx + m ≤ s.params.outSize) (k : Nat) (t : State)
    (h : drain copyOut m idx s = .ok 0 t) :
    (∀ left v, drain copyOut k (idx + m) t = .ok left v → drain copyOut (m + k) idx s = .ok left v) ∧
      (∀ f v, drain copyOut k (idx + m) t = .raised f v → f ≠ .dictionaryMiss →
        drain copyOut (m + k) idx s = .raised f v) ∧
      ∀ v, drain copyOut k (idx + m) t = .raised .dictionaryMiss v →
        ∃ count, drain copyOut (m + k) idx s = .raised .dictionaryMiss (v.withCount count) := by
  revert hi hb k t
  refine drain_induction (P := fun m idx s => s.Inv → idx + m ≤ s.params.outSize → ∀ (k : Nat) (t : State),
    drain copyOut m idx s = .ok 0 t →
    (∀ left v, drain copyOut k (idx + m) t = .ok left v → drain copyOut (m + k) idx s = .ok left v) ∧
      (∀ f v, drain copyOut k (idx + m) t = .raised f v → f ≠ .dictionaryMiss →
        drain copyOut (m + k) idx s = .raised f v) ∧
      ∀ v, drain copyOut k (idx + m) t = .raised .dictionaryMiss v →
        ∃ count, drain copyOut (m + k) idx s = .raised .dictionaryMiss (v.withCount count)) ?_ ?_ m idx s
  · intro idx s hi hb k t h
    rw [drain_zero] at h
    obtain ⟨-, rfl⟩ := Res.ok.inj h
    rw [Nat.zero_add, Nat.add_zero]
    exact ⟨fun _ _ e => e, fun _ _ e _ => e, fun v e => ⟨v.currentCount, e⟩⟩
  · intro m idx s hm ih hi hb k t h
    by_cases hk : k = 0
    · subst hk
      simp only [drain_zero, Nat.add_zero, h]
      exact ⟨fun _ _ e => e, fun _ _ e _ => e, fun v e => ⟨v.currentCount, e⟩⟩
    · rcases drain_step lawful_copyOut idx s hm with ⟨r, -, e⟩ | ⟨f, u, -, e⟩ | ⟨u, -, e⟩ | ⟨u, hr, hcase⟩
      · rw [e] at h
        cases h
      · rw [e] at h
        cases h
      · rw [e] at h
        exact absurd (Res.ok.inj h).1 hm
      · have hiu := refill_inv hi hr
        have hpu : u.params = s.params := (refill_ok hr).1.params
        have whole := drain_eq lawful_copyOut idx s (show m + k ≠ 0 by omega)
        rw [hr] at whole
        simp only [Res.bind_ok, if_true] at whole
        rcases hcase with ⟨w, -, -, e⟩ | ⟨w, hc, hf, hprog, e⟩
        · rw [e] at h
          cases h
        · rw [e] at h
          have hcw : w.currentCount = u.currentCount := by rw [hf.rest]
          have hpw : w.params = u.params := by rw [hf.rest]
          by_cases hle : u.currentCount.toNat ≤ m
          · have h1 : takeNow m u = u.currentCount.toNat := by simp only [takeNow]; omega
            have h2 : takeNow (m + k) u = u.currentCount.toNat := by simp only [takeNow]; omega
            rw [h1] at hc h hprog hf
            rw [h2, hc, Res.bind_ok] at whole
            have hiw : w.Inv := hf.inv hiu (by rw [hpu]; omega)
            have := ih _ _ _ hprog (State.consume_inv hiw (by rw [hcw]))
              (by rw [State.consume_params, hpw, hpu]; omega) k t h
            have e1 : idx + u.currentCount.toNat + (m - u.currentCount.toNat) = idx + m := by omega
            have e2 : m - u.currentCount.toNat + k = m + k - u.currentCount.toNat := by omega
            rw [e1, e2, ← whole] at this
            exact this
          · have h1 : takeNow m u = m := by simp only [takeNow]; omega
            rw [h1] at hc h hf
            rw [Nat.sub_self, drain_zero] at h
            obtain ⟨-, rfl⟩ := Res.ok.inj h
            have hct : (w.consume m).currentCount.toNat = u.currentCount.toNat - m := by
              rw [consume_count (by rw [hcw]; omega), hcw]
            have hne : (w.consume m).currentCount ≠ 0 := by
              intro h0
              rw [h0, show (0 : Word).toNat = 0 from rfl] at hct
              omega
            have rest := drain_eq lawful_copyOut (idx + m) (w.consume m) hk
            rw [refill_pending hne] at rest
            simp only [Res.bind_ok, if_true] at rest
            have h2 : takeNow (m + k) u = m + takeNow k (w.consume m) := by
              simp only [takeNow, hct]
              omega
            have hn := takeNow_le_count k (w.consume m)
            rw [hct] at hn
            rw [h2, copyOut_split hiu (by omega) hc] at whole
            have e1 : m + k - (m + takeNow k (w.consume m)) = k - takeNow k (w.consume m) := by omega
            have e2 : idx + (m + takeNow k (w.consume m)) = idx + m + takeNow k (w.consume m) := by omega
            rw [e1, e2] at whole
            rcases copyOut_cases (takeNow k (w.consume m)) (idx + m) (w.consume m) with
              ⟨x, hx, hfx⟩ | ⟨x, hx, hfx⟩
            · rw [hx] at whole rest
              simp only [Res.mapState_ok, Res.bind_ok] at whole rest
              have hst : (x.withCount u.currentCount).consume (m + takeNow k (w.consume m)) =
                  x.consume (takeNow k (w.consume m)) := by
                have hxc : x.currentCount = u.currentCount - BitVec.ofNat 32 m := by
                  rw [hfx.rest]
                  simp only [State.consume_currentCount, hcw]
                simp only [State.consume, State.withCount, hxc]
                congr 1
                apply BitVec.eq_of_toNat_eq
                simp only [BitVec.toNat_sub, BitVec.toNat_ofNat]
                omega
              rw [hst, ← rest] at whole
              rw [whole]
              exact ⟨fun _ _ e => e, fun _ _ e _ => e, fun v e => ⟨v.currentCount, e⟩⟩
            · rw [hx] at whole rest
              simp only [Res.mapState_raised, Res.bind_raised] at whole rest
              rw [whole, rest]
              refine ⟨fun _ _ e => (by cases e), fun f v e hne => ?_, fun v e => ?_⟩
              · obtain ⟨rfl, -⟩ := Res.raised.inj e
                exact absurd rfl hne
              · obtain ⟨-, rfl⟩ := Res.raised.inj e
                exact ⟨u.currentCount, rfl⟩

end Sys2Proof.Machine
end

