-- ==== Sys2Proof/Laws/Stream.lean ====
section
/-! SUPPORT. Streams assembled by the notation of spec/30_encoding.md R62: what `Decode()` makes of an assembled
record, and what the loop of READNEXT and SKIP makes of a stream of them. -/

namespace Sys2Proof.Machine

/-! ### `Varint(x)` -/

theorem varintBytesFrom_spec (fuel x : Nat) (h : x < 2 ^ (7 * (fuel + 1))) :
    IsVarint (varintBytesFrom fuel x) ∧ payloadSum (varintBytesFrom fuel x) = x := by
  induction fuel generalizing x with
  | zero =>
    have hx : x < 128 := by simpa using h
    refine ⟨⟨[], BitVec.ofNat 8 (x % 128), rfl, by simp, ?_⟩, ?_⟩
    · rw [getLsbD_seven, BitVec.toNat_ofNat]
      simp only [decide_eq_false_iff_not]
      omega
    · simp only [varintBytesFrom, payloadSum, BitVec.toNat_ofNat]
      omega
  | succ fuel ih =>
    rw [varintBytesFrom]
    split
    · rename_i h0
      refine ⟨⟨[], BitVec.ofNat 8 (x % 128), rfl, by simp, ?_⟩, ?_⟩
      · rw [getLsbD_seven, BitVec.toNat_ofNat]
        simp only [decide_eq_false_iff_not]
        omega
      · simp only [payloadSum, BitVec.toNat_ofNat]
        omega
    · have hx : x / 128 < 2 ^ (7 * (fuel + 1)) := by
        rw [Nat.div_lt_iff_lt_mul (by decide)]
        rw [show 7 * (fuel + 1 + 1) = 7 * (fuel + 1) + 7 by omega, Nat.pow_add] at h
        exact h
      obtain ⟨⟨cs, b, e, hcs, hb⟩, hsum⟩ := ih (x / 128) hx
      refine ⟨⟨BitVec.ofNat 8 (x % 128 + 128) :: cs, b, by rw [e]; rfl, ?_, hb⟩, ?_⟩
      · intro c hc
        rcases List.mem_cons.1 hc with rfl | hc
        · rw [getLsbD_seven, BitVec.toNat_ofNat]
          simp only [decide_eq_true_eq]
          omega
        · exact hcs c hc
      · simp only [payloadSum, hsum, BitVec.toNat_ofNat]
        omega

/-- `Varint(x)` is a complete varint of value `x` (R62, R76). -/
theorem varintBytes_spec (x : Word) : IsVarint (varintBytes x) ∧ payloadSum (varintBytes x) = x.toNat := by
  have := x.isLt
  exact varintBytesFrom_spec 4 x.toNat (by omega)

theorem varintBytes_value (x : Word) : varintValue (varintBytes x) = x.toNat := by
  rw [varintValue, (varintBytes_spec x).2]
  exact Nat.mod_eq_of_lt x.isLt

/-! ### `Decode()` of a record -/

/-- `Decode()` on a stream that begins with a complete varint, in the terms claims use. -/
theorem decodeRecord_varint {s : State} {bytes rest : List Byte} (hc : s.constOnly = false)
    (hv : IsVarint bytes) (hd : s.input.drop s.pos = bytes ++ rest) :
    decodeRecord s =
      (headerRecord (decodeHeader s.kind (BitVec.ofNat 32 (varintValue bytes)))
        (s.withHeader bytes.length (BitVec.ofNat 32 (varintValue bytes)))).bind fun _ s2 => .ok true s2 := by
  obtain ⟨cs, b, rfl, hcs, hb⟩ := hv
  have e : BitVec.ofNat 32 (varintValue (cs ++ [b])) = BitVec.ofNat 32 (payloadSum (cs ++ [b])) := by
    apply BitVec.eq_of_toNat_eq
    simp [varintValue]
  rw [e, List.length_append, List.length_singleton]
  refine decodeRecord_header hc (rest := rest) ?_ hcs hb
  rw [hd, List.append_assoc]
  rfl

/-- What a stream leaves when bytes at its front have been consumed. -/
theorem drop_after {s : State} {bytes rest : List Byte} (hd : s.input.drop s.pos = bytes ++ rest) {n : Nat}
    (hn : n = s.pos + bytes.length) : s.input.drop n = rest := by
  rw [hn, ← List.drop_drop, hd, List.drop_left]

/-- The state of an instance over a stream with this kind, width and parameters. -/
structure Ready (p : Params) (kind : Kind) (w : Nat) (s : State) : Prop where
  params : s.params = p
  kind : s.kind = kind
  width : s.bitWidth.val = w
  stream : s.constOnly = false
  bound : s.mode = .packed → s.currentCount.toNat ≤ s.buf.length

/-- `Decode()` on an assembled record (R55, R62): the record's codes are held, and its bytes are consumed. -/
theorem decodeRecord_assemble {p : Params} {kind : Kind} {w : Nat} {s : State} {r : Record}
    {rest : List Byte} (hp : p.Wf) (hr : Ready p kind w s) (hw : 1 ≤ w) (hwf : r.wellFormed kind w = true)
    (hg : ∀ g vs, r = .packed g vs → g.toNat ≤ p.bufCapGroups)
    (hd : s.input.drop s.pos = r.assemble w ++ rest) :
    ∃ t, decodeRecord s = .ok true t ∧ Ready p kind w t ∧ t.input.drop t.pos = rest ∧
      t.heldCodes = r.codes ∧ t.currentCount.toNat = r.codes.length ∧ t.out = s.out ∧ t.rsp = s.rsp ∧
      t.fault = s.fault ∧ (t.mode = .run → t.currentValue ∈ recordLookups r) ∧
      (∀ g vs, r = .packed g vs → t.mode = .packed ∧ t.buf = vs) := by
  have hw32 : w ≤ 32 := by
    have := s.bitWidth.isLt
    have := hr.width
    omega
  have hne : s.bitWidth ≠ 0 := by
    intro h
    have := hr.width
    rw [h] at this
    simp only [Fin.val_zero] at this
    omega
  obtain ⟨hv, -⟩ := varintBytes_spec r.header
  rw [Record.assemble, List.append_assoc] at hd
  have e := decodeRecord_varint hr.stream hv hd
  rw [varintBytes_value, BitVec.ofNat_toNat, BitVec.setWidth_eq] at e
  have hafter : (s.withHeader (varintBytes r.header).length r.header).input.drop
      (s.withHeader (varintBytes r.header).length r.header).pos = r.payload w ++ rest := drop_after hd rfl
  have havail := State.avail_of_drop hafter
  have hkind := hr.kind
  have hcap := hp.2.2.1
  cases r with
  | run n v =>
    have hwf' : kind = .generic ∧ v.toNat < 2 ^ (8 * ((w + 7) / 8)) := by
      simpa [Record.wellFormed] using hwf
    rw [hkind, hwf'.1] at e
    simp only [Record.header, header_run, headerRecord] at e hafter havail
    have hk : (leBytes (runValueBytes w) v.toNat).length = runValueBytes w := leBytes_length _ _
    have hwin : (s.withHeader (varintBytes (n ++ 0#1)).length (n ++ 0#1)).window (runValueBytes w) =
        leBytes (runValueBytes w) v.toNat := by
      rw [State.window, hafter]
      simp only [Record.payload]
      rw [List.take_append_of_le_length (by rw [hk]), List.take_of_length_le (by rw [hk])]
    have hval : BitVec.ofNat 32 (leNat (leBytes (runValueBytes w) v.toNat)) = v := by
      rw [leNat_leBytes, Nat.mod_eq_of_lt (show v.toNat < 2 ^ (8 * runValueBytes w) from hwf'.2), BitVec.ofNat_toNat, BitVec.setWidth_eq]
    have hb : (s.withHeader (varintBytes (n ++ 0#1)).length (n ++ 0#1)).bitWidth.val = w := hr.width
    rw [runRecord_eq (s := s.withHeader (varintBytes (n ++ 0#1)).length (n ++ 0#1)) hne (by
      rw [hb, havail]
      simp only [Record.payload, List.length_append, hk]
      omega), hb, hwin, hval] at e
    refine ⟨_, e, ⟨hr.params, hr.kind, hr.width, hr.stream, by simp⟩, ?_, ?_, ?_, rfl, rfl, rfl, ?_, by simp⟩
    · exact drop_after hafter (by simp only [Record.payload, hk])
    · simp only [State.heldCodes, Record.codes, runCount_toNat]
    · simp only [Record.codes, List.length_replicate, runCount_toNat]
    · simp [recordLookups]
  | packed g vs =>
    have hwf' : kind = .generic ∧ vs.length = 8 * g.toNat ∧ ∀ v ∈ vs, v.toNat < 2 ^ w := by
      simpa [Record.wellFormed, and_assoc] using hwf
    rw [hkind, hwf'.1] at e
    simp only [Record.header, header_packed, headerRecord] at e hafter havail
    obtain ⟨hpl, hpf⟩ := fieldsOf_pack hw32 hwf'.2.1 hwf'.2.2
    have hgc := hg g vs rfl
    have hb : (s.withHeader (varintBytes (g ++ 1#1)).length (g ++ 1#1)).bitWidth.val = w := hr.width
    have hreq : requiredBytes g (s.withHeader (varintBytes (g ++ 1#1)).length (g ++ 1#1)) = w * g.toNat := by
      rw [requiredBytes, hb]
    have hmin : min (requiredBytes g (s.withHeader (varintBytes (g ++ 1#1)).length (g ++ 1#1)))
        (s.withHeader (varintBytes (g ++ 1#1)).length (g ++ 1#1)).avail = w * g.toNat := by
      rw [hreq, havail]
      simp only [Record.payload, List.length_append, hpl]
      omega
    have hpad : paddedPayload g (s.withHeader (varintBytes (g ++ 1#1)).length (g ++ 1#1)) = pack w vs := by
      rw [paddedPayload, hmin, hreq, Nat.sub_self, List.replicate_zero, List.append_nil, State.window, hafter]
      simp only [Record.payload]
      rw [List.take_append_of_le_length (by rw [hpl]), List.take_of_length_le (by rw [hpl])]
    rw [packedRecord_eq (s := s.withHeader (varintBytes (g ++ 1#1)).length (g ++ 1#1)) hne (by change g.toNat ≤ s.params.bufCapGroups; rw [hr.params]; exact hgc), hb, hmin,
      hpad, hpf] at e
    have hcount : (packedCount g).toNat = vs.length := by
      rw [packedCount_toNat (by omega), hwf'.2.1]
    refine ⟨_, e, ⟨hr.params, hr.kind, hr.width, hr.stream, ?_⟩, ?_, ?_, ?_, rfl, rfl, rfl, by simp, ?_⟩
    · intro _
      exact Nat.le_of_eq hcount
    · exact drop_after hafter (by simp only [Record.payload, hpl])
    · simp only [State.heldCodes, State.nextSlots, State.bufLen, hcount, Nat.sub_self, List.drop_zero,
        List.take_length, Record.codes]
    · exact hcount
    · rintro g' vs' h
      obtain ⟨-, rfl⟩ := Record.packed.inj h
      exact ⟨rfl, rfl⟩
  | brun n b =>
    have hwf' : kind = .singleBit := by simpa [Record.wellFormed] using hwf
    rw [hkind, hwf'] at e
    simp only [Record.header, header_brun, headerRecord, brunRecord_eq] at e hafter havail
    refine ⟨_, e, ⟨hr.params, hr.kind, hr.width, hr.stream, by simp⟩, ?_, ?_, ?_, rfl, rfl, rfl, ?_, by simp⟩
    · exact hafter
    · simp only [State.heldCodes, Record.codes, runCount_toNat, bitValue]
    · simp only [Record.codes, List.length_replicate, runCount_toNat]
    · simp [recordLookups, bitValue]

/-! ### The loop over a stream of records -/

theorem Ready.held_length {p : Params} {kind : Kind} {w : Nat} {s : State} (h : Ready p kind w s) :
    s.heldCodes.length = s.currentCount.toNat := by
  unfold State.heldCodes
  cases hm : s.mode with
  | run => simp
  | packed =>
    have := h.bound hm
    simp only [State.nextSlots, State.bufLen, List.length_take, List.length_drop]
    omega

/-- What a copy does to the output space, for codes that it lets through: READNEXT writes a word for each,
SKIP none. -/
structure CopiesBy (copy : Nat → Nat → State → Res Unit) (put : Nat → List Word → OutMem → OutMem)
    (good : Word → Prop) (p : Params) (kind : Kind) (w : Nat) : Prop where
  lawful : LawfulCopy copy
  nil : ∀ i o, put i [] o = o
  append : ∀ i xs ys o, put i (xs ++ ys) o = put (i + xs.length) ys (put i xs o)
  copies : ∀ n i t, Ready p kind w t → n ≤ t.currentCount.toNat → (∀ c ∈ t.heldCodes, good c) →
    (t.mode = .run → good t.currentValue) →
    copy n i t = .ok () { t with out := put i (t.heldCodes.take n) t.out }

/-- The loop over a stream of assembled records, from a state that holds codes: it serves as many values as
there are. -/
theorem serve_stream {copy : Nat → Nat → State → Res Unit} {put : Nat → List Word → OutMem → OutMem}
    {good : Word → Prop} {p : Params} {kind : Kind} {w : Nat} (hp : p.Wf) (hw : 1 ≤ w)
    (hc : CopiesBy copy put good p kind w) (rs : List Record)
    (hwf : ∀ r ∈ rs, r.wellFormed kind w = true)
    (hcap : ∀ g vs, Record.packed g vs ∈ rs → g.toNat ≤ p.bufCapGroups)
    (hgood : ∀ r ∈ rs, ∀ c ∈ recordLookups r, good c) :
    ∀ (t : State) (remaining idx : Nat), Ready p kind w t → t.input.drop t.pos = assembleStream w rs →
      (∀ c ∈ t.heldCodes, good c) → (t.mode = .run → good t.currentValue) → remaining ≠ 0 →
      ∃ u, ((copy (takeNow remaining t) idx t).bind fun _ s2 =>
          drain copy (remaining - takeNow remaining t) (idx + takeNow remaining t)
            (s2.consume (takeNow remaining t))) =
          .ok (remaining - (t.heldCodes ++ streamCodes rs).length) u ∧
        u.out = put idx ((t.heldCodes ++ streamCodes rs).take remaining) t.out ∧
        Ready p kind w u ∧ u.fault = t.fault ∧ u.rsp = t.rsp ∧
        ((t.heldCodes ++ streamCodes rs).length ≤ remaining → u.currentCount = 0 ∧
          ((t.heldCodes ++ streamCodes rs).length < remaining ∨
            (∀ r, rs.getLast? = some r → r.codes ≠ []) → u.avail = 0)) := by
  induction rs with
  | nil =>
    intro t remaining idx hr hd hh hv hrem
    have hl := hr.held_length
    have hn := takeNow_le_count remaining t
    rw [hc.copies _ _ _ hr hn hh hv, Res.bind_ok]
    have ha : t.avail = 0 := by
      rw [State.avail_of_drop hd]
      rfl
    simp only [streamCodes, List.flatMap_nil, List.append_nil]
    have hct := consume_count (s := { t with out := put idx (t.heldCodes.take (takeNow remaining t)) t.out }) hn
    by_cases hle : remaining ≤ t.currentCount.toNat
    · have h1 : takeNow remaining t = remaining := by simp only [takeNow]; omega
      rw [h1] at hct ⊢
      rw [Nat.sub_self, drain_zero, show remaining - t.heldCodes.length = 0 by omega]
      refine ⟨_, rfl, rfl, ⟨hr.params, hr.kind, hr.width, hr.stream, fun hm => ?_⟩, rfl, rfl, fun hle2 => ?_⟩
      · have := hr.bound hm
        rw [hct]
        simp only [State.consume_buf]
        omega
      · refine ⟨?_, fun _ => ha⟩
        apply BitVec.eq_of_toNat_eq
        rw [hct]
        change t.currentCount.toNat - remaining = 0
        omega
    · have h1 : takeNow remaining t = t.currentCount.toNat := by simp only [takeNow]; omega
      rw [h1] at hct ⊢
      have hz : (State.consume t.currentCount.toNat
          { t with out := put idx (t.heldCodes.take t.currentCount.toNat) t.out }).currentCount = 0 := by
        apply BitVec.eq_of_toNat_eq
        rw [hct]
        exact Nat.sub_self _
      rw [drain_eq hc.lawful _ _ (by omega), refill_empty hz,
        decodeRecord_end (by exact hr.stream) (by exact ha)]
      simp only [Res.bind_ok, Bool.false_eq_true, if_false, hl]
      refine ⟨_, rfl, ?_, ⟨hr.params, hr.kind, hr.width, hr.stream, by simp⟩, rfl, rfl,
        fun _ => ⟨rfl, fun _ => ha⟩⟩
      simp only [State.consume_out]
      rw [List.take_of_length_le (by omega), List.take_of_length_le (by omega)]
  | cons r rs ih =>
    intro t remaining idx hr hd hh hv hrem
    have hl := hr.held_length
    have hn := takeNow_le_count remaining t
    rw [hc.copies _ _ _ hr hn hh hv, Res.bind_ok]
    have hct := consume_count (s := { t with out := put idx (t.heldCodes.take (takeNow remaining t)) t.out }) hn
    by_cases hle : remaining ≤ t.currentCount.toNat
    · have h1 : takeNow remaining t = remaining := by simp only [takeNow]; omega
      rw [h1] at hct ⊢
      rw [Nat.sub_self, drain_zero, show remaining - (t.heldCodes ++ streamCodes (r :: rs)).length = 0 by
        rw [List.length_append]; omega]
      refine ⟨_, rfl, ?_, ⟨hr.params, hr.kind, hr.width, hr.stream, fun hm => ?_⟩, rfl, rfl, fun hle2 => ?_⟩
      · simp only [State.consume_out]
        rw [List.take_append_of_le_length (by omega)]
      · have := hr.bound hm
        rw [hct]
        simp only [State.consume_buf]
        omega
      · rw [List.length_append] at hle2
        have hlen : (streamCodes (r :: rs)).length = 0 := by omega
        refine ⟨?_, fun h => ?_⟩
        · apply BitVec.eq_of_toNat_eq
          rw [hct]
          change t.currentCount.toNat - remaining = 0
          omega
        · exfalso
          rcases h with h | h
          · rw [List.length_append] at h
            omega
          · obtain ⟨r', hr'⟩ : ∃ r', (r :: rs).getLast? = some r' :=
              ⟨(r :: rs).getLast (by simp), List.getLast?_eq_some_getLast (by simp)⟩
            have hmem : r' ∈ r :: rs := List.mem_of_getLast? hr'
            have hne := h r' hr'
            have hnil : streamCodes (r :: rs) = [] := List.length_eq_zero_iff.1 hlen
            apply hne
            rw [List.eq_nil_iff_forall_not_mem]
            intro c hc'
            have : c ∈ streamCodes (r :: rs) := List.mem_flatMap.2 ⟨r', hmem, hc'⟩
            rw [hnil] at this
            cases this
    · have h1 : takeNow remaining t = t.currentCount.toNat := by simp only [takeNow]; omega
      rw [h1] at hct ⊢
      generalize hs2 : State.consume t.currentCount.toNat
          { t with out := put idx (t.heldCodes.take t.currentCount.toNat) t.out } = s2 at hct
      have hz : s2.currentCount = 0 := by
        apply BitVec.eq_of_toNat_eq
        rw [hct]
        exact Nat.sub_self _
      have hout : s2.out = put idx t.heldCodes t.out := by
        rw [← hs2]
        simp only [State.consume_out]
        rw [List.take_of_length_le (by omega)]
      have hr2 : Ready p kind w s2 := by
        rw [← hs2]
        refine ⟨hr.params, hr.kind, hr.width, hr.stream, fun hm => ?_⟩
        have := hr.bound hm
        rw [hs2, hz]
        exact Nat.zero_le _
      have hd2 : s2.input.drop s2.pos = r.assemble w ++ assembleStream w rs := by
        rw [← hs2]
        exact hd
      have hf2 : s2.fault = t.fault := by rw [← hs2]; rfl
      have hp2 : s2.rsp = t.rsp := by rw [← hs2]; rfl
      obtain ⟨t2, e2, hrt, hdt, hht, hcount, hot, hrs, hft, hvt, -⟩ :=
        decodeRecord_assemble hp hr2 hw (hwf r (by simp))
          (fun g vs h => hcap g vs (by rw [h]; simp)) hd2
      have hin : ∀ c ∈ recordLookups r, good c := hgood r (by simp)
      have hcodes : ∀ c ∈ r.codes, good c := by
        intro c hc'
        apply hin
        cases r with
        | run n v => rw [(List.mem_replicate.1 hc').2]; simp [recordLookups]
        | packed g vs => exact hc'
        | brun n b => rw [(List.mem_replicate.1 hc').2]; simp [recordLookups]
      obtain ⟨u, e3, hou, hru, hfu, hpu, hend⟩ := ih (fun r' h => hwf r' (List.mem_cons_of_mem _ h))
        (fun g vs h => hcap g vs (List.mem_cons_of_mem _ h))
        (fun r' h => hgood r' (List.mem_cons_of_mem _ h)) t2 (remaining - t.currentCount.toNat)
        (idx + t.currentCount.toNat) hrt hdt (by rw [hht]; exact hcodes) (fun hm => hin _ (hvt hm)) (by omega)
      rw [drain_eq hc.lawful _ _ (by omega), refill_empty hz, e2]
      simp only [Res.bind_ok, if_true]
      have hlen : (t.heldCodes ++ streamCodes (r :: rs)).length =
          t.currentCount.toNat + (t2.heldCodes ++ streamCodes rs).length := by
        simp only [streamCodes, List.flatMap_cons, List.length_append, hht, hl]
      refine ⟨u, ?_, ?_, hru, by rw [hfu, hft, hf2], by rw [hpu, hrs, hp2], ?_⟩
      · rw [e3, hlen]
        congr 1
        omega
      · rw [hou, hot, hout]
        have : (t.heldCodes ++ streamCodes (r :: rs)).take remaining =
            t.heldCodes ++ (t2.heldCodes ++ streamCodes rs).take (remaining - t.currentCount.toNat) := by
          rw [List.take_append, List.take_of_length_le (by omega), hl]
          simp only [streamCodes, List.flatMap_cons, hht]
        rw [this, hc.append, hl]
      · intro hle2
        obtain ⟨h5, h6⟩ := hend (by omega)
        refine ⟨h5, fun h7 => h6 ?_⟩
        rcases h7 with h7 | h7
        · exact .inl (by omega)
        · cases rs with
          | nil =>
            exact .inr (by simp)
          | cons r2 rs2 =>
            exact .inr fun r' hr' => h7 r' (by rw [List.getLast?_cons_cons]; exact hr')

/-- SKIP's copy lets every code through. -/
theorem copiesBy_nothing (p : Params) (kind : Kind) (w : Nat) :
    CopiesBy copyNothing (fun _ _ o => o) (fun _ => True) p kind w :=
  ⟨lawful_copyNothing, fun _ _ => rfl, fun _ _ _ _ => rfl, fun _ _ _ _ _ _ _ => rfl⟩

/-- READNEXT's copy writes the dictionary's value of each code. -/
theorem copiesBy_out (f : Word → Nat) (p : Params) (kind : Kind) (w : Nat) :
    CopiesBy copyOut (fun i cs o => OutMem.writeWords (cs.map f) i o)
      (fun c => dictResolve p.dict c = some (f c)) p kind w := by
  refine ⟨lawful_copyOut, fun _ _ => rfl, fun i xs ys o => ?_, fun n i t hr hn hh hv => ?_⟩
  · rw [List.map_append, OutMem.writeWords_append, List.length_map]
  · have hheld : t.heldCodes = match t.mode with
        | .run => List.replicate t.currentCount.toNat t.currentValue
        | .packed => t.nextSlots t.currentCount.toNat := rfl
    cases hm : t.mode with
    | run =>
      rw [copyOut_run hm (by rw [hr.params]; exact hv hm), hheld, hm]
      simp only [List.take_replicate, List.map_replicate, Nat.min_eq_left hn]
    | packed =>
      have hs : t.nextSlots n = t.heldCodes.take n := by
        rw [hheld, hm]
        simp only [State.nextSlots, List.take_take, Nat.min_eq_left hn]
      have hall : ∀ c ∈ t.nextSlots n, dictResolve t.params.dict c = some (f c) := by
        intro c hc'
        rw [hr.params]
        rw [hs] at hc'
        exact hh c (List.mem_of_mem_take hc')
      rw [copyOut_packed (f := f) hm hall, hs, ← hm]

end Sys2Proof.Machine
end

