-- ==== Sys2Proof/Laws/Commands.lean ====
section
/-! SUPPORT. The commands over their shared operations: what each answers when it runs, when its operands are
bad and when a fault is stored, and how the loop of READNEXT and SKIP treats the ports. -/

namespace Sys2Proof.Machine

/-! ### Operands -/

theorem toInt_of_nonneg {x : Word} (h : 0 ≤ x.toInt) : x.toInt = x.toNat ∧ x.toNat < 2 ^ 31 := by
  have := x.isLt
  rw [BitVec.toInt_eq_toNat_cond] at h ⊢
  split at h <;> rename_i hc
  · simp only [hc, if_true, true_and]
    omega
  · omega

theorem toInt_of_lt {x : Word} (h : x.toNat < 2 ^ 31) : x.toInt = x.toNat := by
  rw [BitVec.toInt_eq_toNat_cond, if_pos (by omega)]

theorem add_of_lt {x y : Word} (h : x.toNat + y.toNat < 2 ^ 31) :
    (x + y).toNat = x.toNat + y.toNat ∧ (x + y).toInt = x.toInt + y.toInt := by
  have h1 : (x + y).toNat = x.toNat + y.toNat := by rw [BitVec.toNat_add]; omega
  refine ⟨h1, ?_⟩
  rw [toInt_of_lt (by omega), h1, toInt_of_lt (by omega), toInt_of_lt (x := y) (by omega)]
  omega

theorem countOperand_eq {x : Word} (h : 0 ≤ x.toInt) : countOperand x = x.toNat := by
  simp only [countOperand, signedOperand, (toInt_of_nonneg h).1, Int.toNat_natCast]

theorem State.consume_word (x : Word) (s : State) :
    s.consume x.toNat = { s with currentCount := s.currentCount - x } := by
  simp [State.consume]

theorem State.bitWidth_range {s : State} (h : s.bitWidth ≠ 0) : 1 ≤ s.bitWidth.val ∧ s.bitWidth.val ≤ 32 := by
  have h1 := s.bitWidth.isLt
  have h2 : s.bitWidth.val ≠ 0 := Fin.val_ne_iff.2 h
  omega

/-! ### What the port carries (R58) -/

theorem decodeCommand_reserved {c : CmdPort} (h : 5 ≤ c.op.toNat) :
    decodeCommand c = .error (.reservedOpcode c.op) := by
  have := c.op.isLt
  have h3 : c.op.toNat = 5 ∨ c.op.toNat = 6 ∨ c.op.toNat = 7 := by omega
  simp only [decodeCommand]
  rcases h3 with h | h | h <;> simp [h]

/-- The six things the command port can carry. -/
theorem decodeCommand_cases (c : CmdPort) :
    (c.op = 0 ∧ ∃ k f b v n st, decodeCommand c = .ok (.init k f b v n st)) ∨
      (c.op ≠ 0 ∧ (decodeCommand c = .ok .decode ∨
        (c.op = 2 ∧ decodeCommand c = .ok (.readnext c.offset c.length)) ∨
        decodeCommand c = .ok (.skip c.length) ∨ decodeCommand c = .ok .retained ∨ 5 ≤ c.op.toNat)) := by
  have := c.op.isLt
  have h3 : c.op.toNat = 0 ∨ c.op.toNat = 1 ∨ c.op.toNat = 2 ∨ c.op.toNat = 3 ∨ c.op.toNat = 4 ∨
      5 ≤ c.op.toNat := by omega
  have e : ∀ n : BitVec 3, c.op.toNat = n.toNat → c.op = n := fun n h => BitVec.eq_of_toNat_eq h
  rcases h3 with h | h | h | h | h | h
  · exact .inl ⟨e 0 h, decodeKind c.kind, decide (c.fixed = 1#1), c.bw, c.value, c.count, c.cursor, by
      simp [decodeCommand, h]⟩
  · exact .inr ⟨by rw [e 1 h]; decide, .inl (by simp [decodeCommand, h])⟩
  · exact .inr ⟨by rw [e 2 h]; decide, .inr (.inl ⟨e 2 h, by simp [decodeCommand, h]⟩)⟩
  · exact .inr ⟨by rw [e 3 h]; decide, .inr (.inr (.inl (by simp [decodeCommand, h])))⟩
  · exact .inr ⟨by rw [e 4 h]; decide, .inr (.inr (.inr (.inl (by simp [decodeCommand, h]))))⟩
  · exact .inr ⟨by rintro h0; rw [h0] at h; simp at h, .inr (.inr (.inr (.inr h)))⟩

theorem hostCommand_reserved {c : CmdPort} {s : State} (h : 5 ≤ c.op.toNat) :
    hostCommand c s = execReserved s := by
  rw [hostCommand, decodeCommand_reserved h]

/-! ### Faults (R150, R151) -/

theorem State.raiseFault_idle {s : State} (h : s.UnitsIdle) (f : FaultCode) :
    s.raiseFault f = { s with fault := f, rsp := some (.fault f) } := by
  rw [State.raiseFault, State.clearUnits_eq h]

theorem execReserved_runs {s : State} (h : s.UnitsIdle) (hf : s.fault = .none) :
    execReserved s = .next { s with fault := .argument, rsp := some (.fault .argument) } := by
  rw [execReserved, whenNoFault, if_pos hf, State.raiseFault_idle h]

theorem execReserved_sticky {s : State} (hf : s.fault ≠ .none) :
    execReserved s = .next { s with rsp := some (.fault s.fault) } := by
  rw [execReserved, whenNoFault, if_neg hf]
  rfl

theorem exec_sticky {s : State} {i : Instr} (hf : s.fault ≠ .none)
    (h : i = .decode ∨ (∃ l, i = .skip l) ∨ ∃ o l, i = .readnext o l) :
    exec i s = .next { s with rsp := some (.fault s.fault) } := by
  rcases h with rfl | ⟨l, rfl⟩ | ⟨o, l, rfl⟩
  · simp only [exec, execDecode, whenNoFault, hf, if_false]
    rfl
  · simp only [exec, execSkip, whenNoFault, hf, if_false]
    rfl
  · simp only [exec, execReadnext, whenNoFault, hf, if_false]
    rfl

/-! ### The commands without a stored fault -/

theorem exec_decode {s : State} (hf : s.fault = .none) :
    exec .decode s = (match decodeRecord s with
      | .ok more s1 => .next (s1.respond (.decoded more s1.currentCount))
      | .raised f s1 => .next (s1.raiseFault f)
      | .refused x => .refused x) := if_pos hf

theorem exec_readnext {s : State} {o l : Word} (hf : s.fault = .none) (ho : 0 ≤ o.toInt) (hl : 0 ≤ l.toInt)
    (hb : o.toInt + l.toInt ≤ s.params.outSize) :
    exec (.readnext o l) s = answerLoop (drain copyOut l.toNat o.toNat s) := by
  have : readnextArgumentsOk s.params o l = true := decide_eq_true ⟨hl, ho, hb⟩
  simp only [exec, execReadnext, whenNoFault, hf, if_true, this, countOperand_eq ho, countOperand_eq hl]
  rfl

theorem exec_readnext_bad {s : State} {o l : Word} (hf : s.fault = .none)
    (h : ¬(0 ≤ l.toInt ∧ 0 ≤ o.toInt ∧ o.toInt + l.toInt ≤ s.params.outSize)) :
    exec (.readnext o l) s = .next (s.raiseFault .argument) := by
  have : readnextArgumentsOk s.params o l = false := decide_eq_false h
  simp only [exec, execReadnext, whenNoFault, hf, if_true, this, Bool.false_eq_true, if_false]

theorem exec_skip {s : State} {l : Word} (hf : s.fault = .none) (hl : 0 ≤ l.toInt) :
    exec (.skip l) s = answerLoop (drain copyNothing l.toNat 0 s) := by
  have : skipArgumentOk l = true := decide_eq_true hl
  simp only [exec, execSkip, whenNoFault, hf, if_true, this, countOperand_eq hl]
  rfl

theorem exec_skip_bad {s : State} {l : Word} (hf : s.fault = .none) (h : ¬0 ≤ l.toInt) :
    exec (.skip l) s = .next (s.raiseFault .argument) := by
  have : skipArgumentOk l = false := decide_eq_false h
  simp only [exec, execSkip, whenNoFault, hf, if_true, this, Bool.false_eq_true, if_false]

theorem exec_unpack8 {w : Nat} {group : List Byte} (s : State) (hw : 1 ≤ w ∧ w ≤ 32) (hl : group.length = w) :
    exec (.unpack8 w group) s =
      .next { s with fill := s.fill ++ fieldsOf w 8 group, unpackAcc := 0 } := by
  simp only [exec, execUnpack8, unpackGroup_eq s hw hl, Res.settle]

/-! ### How the loop ends -/

theorem answerLoop_raised {s : State} (hu : s.UnitsIdle) (f : FaultCode) :
    answerLoop (.raised f s) = .next { s with fault := f, rsp := some (.fault f) } := by
  rw [answerLoop, State.raiseFault_idle hu]

theorem answerLoop_ok {r : Res Nat} {u : State} (h : answerLoop r = .next u) (hr : u.rsp = some .ok) :
    ∃ t, r = .ok 0 t ∧ u = t.respond .ok := by
  rcases r with ⟨left, t⟩ | ⟨f, t⟩ | x
  · rw [answerLoop] at h
    split at h
    · rename_i hz
      cases h
      exact ⟨t, by rw [hz], rfl⟩
    · cases h
      simp [State.raiseFault] at hr
  · cases h
    simp [State.raiseFault] at hr
  · cases h

theorem answerLoop_rsp (r : Res Nat) (rsp : Option Response) :
    answerLoop (r.mapState fun t => { t with rsp := rsp }) = answerLoop r := by
  rcases r with ⟨n, t⟩ | ⟨f, t⟩ | x
  · simp only [Res.mapState_ok, answerLoop]
    split <;> rfl
  · rfl
  · rfl

theorem answerLoop_fault {copy : Nat → Nat → State → Res Unit} (hc : LawfulCopy copy) {n i : Nat} {s t : State}
    (h : answerLoop (drain copy n i s) = .next t) :
    t.fault = s.fault ∨ t.fault = .streamUnderrun ∨ t.fault = .truncatedStream ∨ t.fault = .capacity ∨
      t.fault = .dictionaryMiss := by
  rcases e : drain copy n i s with ⟨left, q⟩ | ⟨f, q⟩ | x
  · obtain ⟨hfr, -⟩ := drain_ok hc _ _ _ e
    rw [e, answerLoop] at h
    split at h <;> cases h
    · exact .inl hfr.fault
    · exact .inr (.inl rfl)
  · obtain ⟨hfr, hff⟩ := drain_raised hc _ _ _ e
    rw [e, answerLoop] at h
    cases h
    rcases hff with rfl | rfl | rfl <;> simp [State.raiseFault]
  · rw [e] at h
    cases h

/-- A request the current run or group can serve takes one iteration. -/
theorem drain_within {copy : Nat → Nat → State → Res Unit} (hcopy : LawfulCopy copy) {n idx : Nat}
    {s t : State} (hn : n ≤ s.currentCount.toNat) (h0 : n ≠ 0) (hc : copy n idx s = .ok () t) :
    drain copy n idx s = .ok 0 (t.consume n) := by
  have hne : s.currentCount ≠ 0 := by
    intro h
    rw [h] at hn
    simp at hn
    omega
  have h1 : takeNow n s = n := by simp only [takeNow]; omega
  rw [drain_eq hcopy _ _ h0, refill_pending hne]
  simp only [Res.bind_ok, if_true, h1, hc, Nat.sub_self, drain_zero]

theorem drain_within_miss {n m idx : Nat} {s t : State} (h0 : n ≠ 0) (hne : s.currentCount ≠ 0)
    (hm : takeNow n s = m) (hc : copyOut m idx s = .raised .dictionaryMiss t) :
    drain copyOut n idx s = .raised .dictionaryMiss t := by
  rw [drain_eq lawful_copyOut _ _ h0, refill_pending hne]
  simp only [Res.bind_ok, if_true, hm, hc, Res.bind_raised]

theorem drain_out_inv {n idx : Nat} {s t : State} {left : Nat} (hi : s.Inv) (hb : idx + n ≤ s.params.outSize)
    (h : drain copyOut n idx s = .ok left t) : t.Inv := by
  rcases drain_inv lawful_copyOut n idx s hi hb with ⟨l, t', e, h'⟩ | ⟨f, t', e, -⟩
  · rw [e] at h
    cases h
    exact h'
  · rw [e] at h
    cases h

/-! ### The response port plays no part in the loop -/

theorem drain_out_rsp (n idx : Nat) (s : State) (hi : s.Inv) (rsp : Option Response) :
    drain copyOut n idx { s with rsp := rsp } =
      (drain copyOut n idx s).mapState fun t => { t with rsp := rsp } := by
  obtain ⟨r, ws, -, -, h, -⟩ := drain_words n s hi
  have h1 := h rsp idx s.out
  have h2 := h s.rsp idx s.out
  rw [State.withPorts_self] at h2
  change drain copyOut n idx { s with rsp := rsp } = _ at h1
  rw [h1, h2]
  rcases r with _ | _ | _ <;> rfl

theorem drain_skip_rsp (n idx : Nat) (s : State) (rsp : Option Response) :
    drain copyNothing n idx { s with rsp := rsp } =
      (drain copyNothing n idx s).mapState fun t => { t with rsp := rsp } := by
  refine drain_induction (P := fun n idx s => drain copyNothing n idx { s with rsp := rsp } =
    (drain copyNothing n idx s).mapState fun t => { t with rsp := rsp }) ?_ ?_ n idx s
  · intro idx s
    simp
  · intro n idx s hn ih
    have hr := refill_withPorts rsp s.out s
    change refill { s with rsp := rsp } = _ at hr
    have hg : ∀ t, refill s = .ok true t → t.out = s.out := fun t h => (refill_ok h).1.out
    rcases drain_step lawful_copyNothing idx s hn with ⟨r, h1, e⟩ | ⟨f, t, h1, e⟩ | ⟨t, h1, e⟩ | ⟨t, h1, hc⟩
    · rw [drain_eq lawful_copyNothing _ _ hn, hr, e, h1]
      rfl
    · rw [drain_eq lawful_copyNothing _ _ hn, hr, e, h1]
      have : t.out = s.out := (decodeRecord_raised (refill_raised h1).2).2.1.out
      simp only [Res.mapState, Res.bind, State.withPorts, ← this]
    · rw [drain_eq lawful_copyNothing _ _ hn, hr, e, h1]
      have : t.out = s.out := (refill_ok h1).1.out
      simp only [Res.mapState, Res.bind, State.withPorts, ← this, Bool.false_eq_true, if_false]
    · rcases hc with ⟨u, h2, -⟩ | ⟨u, h2, -, hp, e⟩
      · cases h2
      · cases h2
        rw [drain_eq lawful_copyNothing _ _ hn, hr, e, h1, ← ih _ _ _ hp]
        simp only [Res.mapState, Res.bind, if_true, copyNothing, State.withPorts, ← hg t h1]
        rfl

/-! ### SKIP's loop -/

theorem drain_skip_index (n i j : Nat) (s : State) : drain copyNothing n i s = drain copyNothing n j s := by
  refine drain_induction (P := fun n i s => ∀ j, drain copyNothing n i s = drain copyNothing n j s)
    ?_ ?_ n i s j
  · intro i s j
    simp
  · intro n i s hn ih j
    rcases drain_step lawful_copyNothing i s hn with ⟨r, h1, e⟩ | ⟨f, t, h1, e⟩ | ⟨t, h1, e⟩ | ⟨t, h1, hc⟩
    · rw [e, drain_eq lawful_copyNothing _ _ hn, h1]
      rfl
    · rw [e, drain_eq lawful_copyNothing _ _ hn, h1]
      rfl
    · rw [e, drain_eq lawful_copyNothing _ _ hn, h1]
      rfl
    · rcases hc with ⟨u, h2, -⟩ | ⟨u, h2, -, hp, e⟩
      · cases h2
      · cases h2
        rw [e, drain_eq lawful_copyNothing j _ hn, h1]
        exact ih _ _ _ hp _

/-- SKIP writes no word of the output space. -/
theorem drain_skip_out {n i : Nat} {s : State} :
    (∀ left t, drain copyNothing n i s = .ok left t → t.out = s.out) ∧
      ∀ f t, drain copyNothing n i s = .raised f t → t.out = s.out := by
  refine drain_induction (P := fun n i s => (∀ left t, drain copyNothing n i s = .ok left t → t.out = s.out) ∧
    ∀ f t, drain copyNothing n i s = .raised f t → t.out = s.out) ?_ ?_ n i s
  · intro i s
    simp
  · intro n i s hn ih
    rcases drain_step lawful_copyNothing i s hn with ⟨r, h1, e⟩ | ⟨f, t, h1, e⟩ | ⟨t, h1, e⟩ | ⟨t, h1, hc⟩
    · rw [e]
      simp
    · rw [e]
      simp
      exact (decodeRecord_raised (refill_raised h1).2).2.1.out
    · rw [e]
      simp
      exact (refill_ok h1).1.out
    · rcases hc with ⟨u, h2, -⟩ | ⟨u, h2, -, hp, e⟩
      · cases h2
      · cases h2
        have := ih _ (i + takeNow n t) _ hp
        rw [e]
        have ho := (refill_ok h1).1.out
        exact ⟨fun l u hu => (this.1 l u hu).trans ho, fun f u hu => (this.2 f u hu).trans ho⟩

/-- SKIP's loop ends, and keeps the invariant. -/
theorem drain_skip_inv {n i : Nat} {s : State} (hi : s.Inv) :
    (∃ left t, drain copyNothing n i s = .ok left t ∧ t.Inv) ∨
      ∃ f t, drain copyNothing n i s = .raised f t ∧ t.clearUnits.Inv := by
  revert hi
  refine drain_induction (P := fun n i s => s.Inv → (∃ left t, drain copyNothing n i s = .ok left t ∧ t.Inv) ∨
    ∃ f t, drain copyNothing n i s = .raised f t ∧ t.clearUnits.Inv) ?_ ?_ n i s
  · intro i s hi
    exact .inl ⟨_, _, drain_zero _ _ _, hi⟩
  · intro n i s hn ih hi
    rcases drain_step lawful_copyNothing i s hn with ⟨r, h1, e⟩ | ⟨f, t, h1, e⟩ | ⟨t, h1, e⟩ | ⟨t, h1, hc⟩
    · exfalso
      by_cases h0 : s.currentCount = 0
      · rw [refill_empty h0] at h1
        exact decodeRecord_not_refused hi.width r h1
      · rw [refill_pending h0] at h1
        cases h1
    · exact .inr ⟨f, t, e, decodeRecord_raised_inv hi (refill_raised h1).2⟩
    · exact .inl ⟨_, t, e, refill_inv hi h1⟩
    · rcases hc with ⟨u, h2, -⟩ | ⟨u, h2, -, hp, e⟩
      · cases h2
      · cases h2
        rw [e]
        exact ih _ _ _ hp (State.consume_inv (refill_inv hi h1) (takeNow_le_count _ _))

/-! ### Sequences of stream operations -/

theorem execAll_append (xs ys : List Instr) (s t : State) (h : execAll xs s = .next t) :
    execAll (xs ++ ys) s = execAll ys t := by
  induction xs generalizing s with
  | nil =>
    simp only [execAll] at h
    cases h
    rfl
  | cons x xs ih =>
    simp only [execAll, List.cons_append] at h ⊢
    rcases hx : exec x s with u | f | r
    · rw [hx] at h
      exact ih u h
    · rw [hx] at h
      cases h
    · rw [hx] at h
      cases h

/-- The bytes of a complete varint, run one by one, add up their payloads (R71, R72). -/
theorem execAll_header (cs : List Byte) (b : Byte) (hcs : ∀ c ∈ cs, c.getLsbD 7 = true)
    (hb : b.getLsbD 7 = false) : ∀ (s : State) (x : Nat), s.acc = BitVec.ofNat 32 x → x < 2 ^ s.shift →
    execAll ((cs ++ [b]).map fun b => (decodeVByte b).toInstr) s = .next { s with
      acc := 0, shift := 0, header := some (BitVec.ofNat 32 (x + 2 ^ s.shift * payloadSum (cs ++ [b]))) } := by
  induction cs with
  | nil =>
    intro s x ha hx
    simp only [List.nil_append, List.map_cons, List.map_nil, execAll, decodeVByte_last hb, VByteForm.toInstr,
      exec, execVarintLast, emitVarint]
    rw [accumulated_eq _ ha hx, payload_toNat]
    simp [payloadSum]
  | cons c cs ih =>
    intro s x ha hx
    have h1 : exec (decodeVByte c).toInstr s = .next (continueVarint (c.extractLsb' 0 7) s) := by
      rw [decodeVByte_cont (hcs c (by simp))]
      rfl
    have := ih (fun c h => hcs c (by simp [h])) (continueVarint (c.extractLsb' 0 7) s)
      (x + 2 ^ s.shift * (c.extractLsb' 0 7).toNat) (accumulated_eq _ ha hx) (accumulated_lt _ hx)
    rw [List.cons_append, List.map_cons, execAll, h1]
    refine this.trans ?_
    rw [payloadSum_step]
    rfl

/-- The groups of a payload, run one by one, are `unpackGroups` (R86). -/
theorem execAll_groups {w : Nat} (hw : 1 ≤ w ∧ w ≤ 32) (n : Nat) : ∀ (payload : List Byte) (s u : State),
    payload.length = w * n → unpackGroups w n payload s = .ok () u →
    execAll ((List.range n).map fun j => .unpack8 w ((payload.drop (j * w)).take w)) s = .next u := by
  induction n with
  | zero =>
    intro p s u _ h
    simp only [unpackGroups] at h
    cases h
    rfl
  | succ n ih =>
    intro p s u hl h
    have hle : w ≤ p.length := by
      rw [hl]
      exact Nat.le_mul_of_pos_right w (by omega)
    have ht : (p.take w).length = w := by simp [hle]
    rw [List.range_succ_eq_map, List.map_cons, List.map_map]
    simp only [Nat.zero_mul, List.drop_zero, execAll, exec_unpack8 s hw ht]
    rw [unpackGroups, unpackGroup_eq s hw ht, Res.bind_ok] at h
    have := ih (p.drop w) _ u (by rw [List.length_drop, hl, Nat.mul_succ]; omega) h
    rw [← this]
    congr 1
    apply List.map_congr_left
    intro j _
    simp only [Function.comp_apply, List.drop_drop]
    congr 3
    rw [Nat.succ_mul]
    omega

/-- The padded payload is the stream's bytes and zeros for those that are missing (R96). -/
theorem paddedPayload_eq {g : BitVec 31} {s : State} {bytes : List Byte} (h : s.input.drop s.pos = bytes) :
    paddedPayload g s = zeroFilled (s.bitWidth.val * g.toNat) bytes := by
  simp only [paddedPayload, zeroFilled, requiredBytes, State.window, State.avail_of_drop h, h]
  generalize s.bitWidth.val * g.toNat = m
  rcases Nat.le_total m bytes.length with h | h
  · rw [Nat.min_eq_left h, Nat.sub_self, Nat.sub_eq_zero_of_le h]
  · rw [Nat.min_eq_right h, List.take_of_length_le (Nat.le_refl _), List.take_of_length_le h]

/-! ### A fresh instance over a stream -/

theorem State.Inv.ready {s : State} (hi : s.Inv) (hc : s.constOnly = false) :
    Ready s.params s.kind s.bitWidth.val s :=
  ⟨rfl, rfl, rfl, hc, fun h => (hi.packedBuf h).2.2⟩

/-- What INIT of a stream instance leaves (R111). -/
theorem init_stream (s : State) (kind : Kind) (bw : BitVec 6) (stream : List Byte) (hi : s.Inv)
    (h1 : 1 ≤ bw.toNat) (h2 : bw.toNat ≤ 32) :
    ∃ u, exec (.init kind false bw 0 0 stream) s = .next u ∧ u.Inv ∧ u.fault = .none ∧
      u.params = s.params ∧ u.currentCount = 0 ∧ u.currentValue = 0 ∧ u.mode = .run ∧
      Ready s.params kind bw.toNat u ∧ u.out = s.out ∧ u.input.drop u.pos = stream := by
  have hne : bw ≠ 0 := by
    rintro rfl
    simp at h1
  have hv : (Fin.ofNat 33 bw.toNat).val = bw.toNat := Nat.mod_eq_of_lt (by omega)
  have e : exec (.init kind false bw 0 0 stream) s =
      .next ((s.dropInstance.buildInstance kind false bw 0 0 stream).respond .ok) := by
    rw [exec, execInit, if_neg (by omega)]
  refine ⟨_, e, State.respond_inv (State.buildInstance_inv (State.dropInstance_inv hi.params hi.out) kind false
    bw 0 0 stream h2) _, ?_⟩
  simp only [State.buildInstance, hne, Bool.false_eq_true, or_self, if_false, State.respond]
  exact ⟨rfl, rfl, rfl, rfl, rfl, ⟨rfl, rfl, hv, rfl, nofun⟩, rfl, rfl⟩

/-- The loop on an assembled stream from an empty run-state: the counterpart of `serve_stream`. -/
theorem serve_fresh {copy : Nat → Nat → State → Res Unit} {put : Nat → List Word → OutMem → OutMem}
    {good : Word → Prop} {p : Params} {kind : Kind} {w : Nat} (hp : p.Wf) (hw : 1 ≤ w)
    (hc : CopiesBy copy put good p kind w) (rs : List Record)
    (hwf : ∀ r ∈ rs, r.wellFormed kind w = true)
    (hcap : ∀ g vs, Record.packed g vs ∈ rs → g.toNat ≤ p.bufCapGroups)
    (hgood : ∀ r ∈ rs, ∀ c ∈ recordLookups r, good c) (s : State) (n idx : Nat) (hr : Ready p kind w s)
    (hd : s.input.drop s.pos = assembleStream w rs) (hz : s.currentCount = 0) :
    ∃ u, drain copy n idx s = .ok (n - (streamCodes rs).length) u ∧
      u.out = put idx ((streamCodes rs).take n) s.out ∧ Ready p kind w u ∧ u.fault = s.fault ∧
      u.rsp = s.rsp ∧
      ((streamCodes rs).length ≤ n → u.currentCount = 0 ∧
        ((streamCodes rs).length < n ∨
          (∀ r, rs.getLast? = some r → r.codes ≠ []) → u.avail = 0)) := by
  by_cases h0 : n = 0
  · subst h0
    refine ⟨s, by simp, by simp [hc.nil], hr, rfl, rfl, fun hl => ⟨hz, fun h => ?_⟩⟩
    rcases h with h | h
    · omega
    · cases rs with
      | nil =>
        rw [State.avail_of_drop hd]
        rfl
      | cons r rs =>
        exfalso
        obtain ⟨r', hr'⟩ : ∃ r', (r :: rs).getLast? = some r' :=
          ⟨(r :: rs).getLast (by simp), List.getLast?_eq_some_getLast (by simp)⟩
        have hmem := List.mem_of_getLast? hr'
        apply h r' hr'
        rw [List.eq_nil_iff_forall_not_mem]
        intro c hc'
        have : c ∈ streamCodes (r :: rs) := List.mem_flatMap.2 ⟨r', hmem, hc'⟩
        rw [show streamCodes (r :: rs) = [] from List.length_eq_zero_iff.1 (by omega)] at this
        cases this
  · cases rs with
    | nil =>
      have ha : s.avail = 0 := by
        rw [State.avail_of_drop hd]
        rfl
      rw [drain_eq hc.lawful _ _ h0, refill_empty hz, decodeRecord_end hr.stream ha]
      refine ⟨_, rfl, by simp [streamCodes, hc.nil], ⟨hr.1, hr.2, hr.3, hr.4, by simp⟩, rfl, rfl,
        fun _ => ⟨rfl, fun _ => ha⟩⟩
    | cons r rs =>
      obtain ⟨t2, e2, hrt, hdt, hht, hcount, hot, hrs, hft, hvt, -⟩ :=
        decodeRecord_assemble hp hr hw (hwf r (by simp))
          (fun g vs h => hcap g vs (by rw [h]; simp)) hd
      have hin : ∀ c ∈ recordLookups r, good c := hgood r (by simp)
      have hcodes : ∀ c ∈ r.codes, good c := by
        intro c hc'
        apply hin
        cases r with
        | run n v =>
          rw [(List.mem_replicate.1 hc').2]
          simp [recordLookups]
        | packed g vs => exact hc'
        | brun n b =>
          rw [(List.mem_replicate.1 hc').2]
          simp [recordLookups]
      obtain ⟨u, e3, hou, hru, hfu, hpu, hend⟩ :=
        serve_stream hp hw hc rs (fun r' h => hwf r' (List.mem_cons_of_mem _ h))
          (fun g vs h => hcap g vs (List.mem_cons_of_mem _ h))
          (fun r' h => hgood r' (List.mem_cons_of_mem _ h)) t2 n idx hrt hdt (by rw [hht]; exact hcodes)
          (fun hm => hin _ (hvt hm)) h0
      have hl : t2.heldCodes ++ streamCodes rs = streamCodes (r :: rs) := by
        simp only [streamCodes, List.flatMap_cons, hht]
      rw [hl] at e3 hou hend
      refine ⟨u, ?_, ?_, hru, hfu.trans hft, hpu.trans hrs, fun hle => ?_⟩
      · rw [drain_eq hc.lawful _ _ h0, refill_empty hz, e2]
        simp only [Res.bind_ok, if_true]
        exact e3
      · rw [hou, hot]
      · obtain ⟨h5, h6⟩ := hend hle
        refine ⟨h5, fun h7 => h6 ?_⟩
        rcases h7 with h7 | h7
        · exact .inl h7
        · cases rs with
          | nil => exact .inr (by simp)
          | cons r2 rs2 =>
            exact .inr fun r' hr' => h7 r' (by rw [List.getLast?_cons_cons]; exact hr')

/-! ### Several blocks -/

/-- A step of one block changes no other. -/
theorem systemStep_get {sys t : System} {k : Nat} (j : Nat) (h : systemStep k sys = .next t) :
    (j ≠ k → t[j]? = sys[j]?) ∧ ∀ s, sys[k]? = some s → ∃ u, step s = .next u ∧ t[k]? = some u := by
  rw [systemStep] at h
  rcases hs : sys[k]? with _ | s
  · simp only [hs] at h
    cases h
    simp
  · simp only [hs] at h
    rcases hx : step s with u | u | u
    · simp only [hx] at h
      cases h
      refine ⟨fun hne => ?_, fun s' hs' => ?_⟩
      · rw [List.getElem?_set_ne (Ne.symm hne)]
      · cases hs'
        refine ⟨u, hx, ?_⟩
        have := (List.getElem?_eq_some_iff.1 hs).1
        rw [List.getElem?_set_self this]
    · simp only [hx] at h
      cases h
    · simp only [hx] at h
      cases h

/-! ### Where a dictionary may be supplied -/

/-- An instance ends where the next thing is a reset that interrupts no command, or an INIT. -/
theorem endsInstance_iff {l : List HostInput} : endsInstance l = true ↔
    ∃ next rest, l = next :: rest ∧ (next = .reset none ∨ ∃ c, c.op = 0 ∧ next = .command c) := by
  constructor
  · intro h
    rcases l with _ | ⟨x, rest⟩
    · cases h
    · refine ⟨x, rest, rfl, ?_⟩
      rcases x with c | (_ | _) | _ | _
      · exact .inr ⟨c, of_decide_eq_true h, rfl⟩
      · exact .inl rfl
      all_goals cases h
  · rintro ⟨next, rest, rfl, rfl | ⟨c, h, rfl⟩⟩
    · rfl
    · exact decide_eq_true h

end Sys2Proof.Machine
end

