-- ==== Sys2Proof/Laws/PerInstr.lean ====
section
/-! SUPPORT. Statements made per instruction: what each constructor's encoding has at the fixed bits of its row
of spec/opcode_table.json. -/

namespace Sys2Proof.Laws.TableBits

open Sys2Proof.Machine

/-- The number the opcode table's `match` and `mask` are about: the byte, the header value, the payload's or
the group's little-endian integer, the command's opcode. -/
def tableNumber : Fetched → Nat
  | .vbyte b => b.toNat
  | .hdr _ h => h.toNat
  | .runval bytes => leNat bytes
  | .pgroup bytes => leNat bytes
  | .cmd c => c.op.toNat

/-- A row's `match` and `mask`. -/
def rowBits : Instr → Nat × Nat
  | .varintCont _ => (0x80, 0x80)
  | .varintLast _ => (0x00, 0x80)
  | .hdrRun _ => (0, 1)
  | .hdrPacked _ => (1, 1)
  | .hdrBrun _ _ => (0, 0)
  | .runval _ _ => (0, 0)
  | .unpack8 _ _ => (0, 0)
  | .init _ _ _ _ _ _ => (0, 7)
  | .decode => (1, 7)
  | .readnext _ _ => (2, 7)
  | .skip _ => (3, 7)
  | .retained => (4, 7)

/-- The encoding has the row's bits where the row fixes them. -/
def Statement (i : Instr) : Prop := tableNumber (encode i) &&& (rowBits i).2 = (rowBits i).1

theorem varintCont (p : BitVec 7) : Statement (.varintCont p) := by
  have h : BitVec.toNat (1#1 ++ p) = 2 ^ 7 + p.toNat := by
    rw [BitVec.toNat_append, ← Nat.shiftLeft_add_eq_or_of_lt p.isLt]
    rfl
  have hp := p.isLt
  change BitVec.toNat (1#1 ++ p) &&& 2 ^ 7 = 2 ^ 7
  rw [h, Nat.and_two_pow, Nat.testBit_eq_decide_div_mod_eq, show (2 ^ 7 + p.toNat) / 2 ^ 7 % 2 = 1 by omega]
  rfl

theorem varintLast (p : BitVec 7) : Statement (.varintLast p) := by
  have h : BitVec.toNat (0#1 ++ p) = p.toNat := by
    rw [BitVec.toNat_append, ← Nat.shiftLeft_add_eq_or_of_lt p.isLt]
    simp
  have hp := p.isLt
  change BitVec.toNat (0#1 ++ p) &&& 2 ^ 7 = 0
  rw [h, Nat.and_two_pow, Nat.testBit_eq_decide_div_mod_eq, show p.toNat / 2 ^ 7 % 2 = 0 by omega]
  rfl

theorem hdrRun (n : BitVec 31) : Statement (.hdrRun n) := by
  change BitVec.toNat (n ++ 0#1) &&& 1 = 0
  rw [headerWord_toNat, Nat.and_one_is_mod]
  simp

theorem hdrPacked (g : BitVec 31) : Statement (.hdrPacked g) := by
  change BitVec.toNat (g ++ 1#1) &&& 1 = 1
  rw [headerWord_toNat, Nat.and_one_is_mod]
  simp

theorem hdrBrun (n : BitVec 31) (b : BitVec 1) : Statement (.hdrBrun n b) := Nat.and_zero _

theorem runval (k : Nat) (value : Word) : Statement (.runval k value) := Nat.and_zero _

theorem unpack8 (w : Nat) (group : List Byte) : Statement (.unpack8 w group) := Nat.and_zero _

theorem init (kind : Kind) (fixed : Bool) (bw : BitVec 6) (value count : Word) (stream : List Byte) :
    Statement (.init kind fixed bw value count stream) := by
  change BitVec.toNat 0#3 &&& 7 = 0
  rfl

theorem decode : Statement .decode := rfl

theorem readnext (offset length : Word) : Statement (.readnext offset length) := by
  change BitVec.toNat 2#3 &&& 7 = 2
  rfl

theorem skip (length : Word) : Statement (.skip length) := by
  change BitVec.toNat 3#3 &&& 7 = 3
  rfl

theorem retained : Statement .retained := rfl

end Sys2Proof.Laws.TableBits
end

