-- ==== Sys2Proof/Laws/Sequencer.lean ====
section
/-! SUPPORT. The sequential view of spec/42_run_state_machine.md R102: what its loops come to. -/

namespace Sys2Proof.Machine

theorem seqRun_add (m n : Nat) (q : Seq) : seqRun (m + n) q = seqRun n (seqRun m q) := by
  induction m generalizing q with
  | zero =>
    rw [Nat.zero_add]
    rfl
  | succ m ih =>
    rw [Nat.add_right_comm]
    exact ih _

/-- The sequencer comes from one state to another. -/
def Reaches (q r : Seq) : Prop := ∃ n, seqRun n q = r

theorem Reaches.refl (q : Seq) : Reaches q q := ⟨0, rfl⟩

theorem Reaches.trans {a b c : Seq} (h : Reaches a b) (k : Reaches b c) : Reaches a c := by
  obtain ⟨m, rfl⟩ := h
  obtain ⟨n, rfl⟩ := k
  exact ⟨m + n, seqRun_add _ _ _⟩

theorem Reaches.step {a b c : Seq} (h : seqStep a = b) (k : Reaches b c) : Reaches a c :=
  Reaches.trans ⟨1, h⟩ k

theorem Reaches.one {a b : Seq} (h : seqStep a = b) : Reaches a b := ⟨1, h⟩

theorem State.avail_succ {s : State} {b : Byte} (h : s.input[s.pos]? = some b) :
    s.avail = (s.advance 1).avail + 1 ∧
      s.input.drop s.pos = b :: (s.advance 1).input.drop (s.advance 1).pos := by
  obtain ⟨hlt, rfl⟩ := List.getElem?_eq_some_iff.1 h
  refine ⟨?_, List.drop_eq_getElem_cons hlt⟩
  simp only [State.avail, State.advance]
  omega

theorem State.avail_none {s : State} (h : s.input[s.pos]? = none) :
    s.avail = 0 ∧ s.input.drop s.pos = [] := by
  have := List.getElem?_eq_none_iff.1 h
  exact ⟨by simp only [State.avail]; omega, List.drop_eq_nil_of_le this⟩

/-- `S_HDR` until the header is complete or the bytes run out (R75). -/
theorem seq_header : ∀ (left : Nat) (s : State), s.avail = left →
    (∀ h t, readVarintFrom left s = .ok h t → Reaches ⟨.hdr, s⟩ (seqDispatch (decodeHeader t.kind h) t)) ∧
      ∀ f t, readVarintFrom left s = .raised f t → Reaches ⟨.hdr, s⟩ ⟨.faulted f, t⟩ := by
  intro left
  induction left with
  | zero =>
    intro s h
    have hb : s.input[s.pos]? = none :=
      List.getElem?_eq_none (by simp only [State.avail] at h; omega)
    refine ⟨fun h t e => by simp [readVarintFrom] at e, fun f t e => ?_⟩
    simp only [readVarintFrom, Res.raised.injEq] at e
    obtain ⟨rfl, rfl⟩ := e
    exact .one (by simp only [seqStep, seqHeaderStep, hb])
  | succ left ih =>
    intro s h
    rcases hb : s.input[s.pos]? with _ | b
    · rw [(State.avail_none hb).1] at h
      omega
    · have ha := (State.avail_succ hb).1
      rcases hv : decodeVByte b with p | p
      · have e : readVarintFrom (left + 1) s = readVarintFrom left (continueVarint p (s.advance 1)) := by
          simp only [readVarintFrom, hb, hv]
        rw [e]
        obtain ⟨h1, h2⟩ := ih (continueVarint p (s.advance 1))
          (by change (s.advance 1).avail = _; omega)
        have h3 : seqStep ⟨.hdr, s⟩ = ⟨.hdr, continueVarint p (s.advance 1)⟩ := by
          simp only [seqStep, seqHeaderStep, hb, hv]
        exact ⟨fun h t e => .step h3 (h1 h t e), fun f t e => .step h3 (h2 f t e)⟩
      · refine ⟨fun h t e => ?_, fun f t e => ?_⟩
        · simp only [readVarintFrom, hb, hv, Res.ok.injEq] at e
          obtain ⟨rfl, rfl⟩ := e
          exact .one (by simp only [seqStep, seqHeaderStep, hb, hv]; rfl)
        · simp only [readVarintFrom, hb, hv] at e
          cases e

/-- `S_RUNVAL` with enough bytes left (R102). -/
theorem seq_runval (n : BitVec 31) : ∀ (m : Nat) (got : List Byte) (s : State),
    got.length + m = runValueBytes s.bitWidth.val → m ≤ s.avail →
    Reaches ⟨.runval n got, s⟩
      ⟨.doneRun n (BitVec.ofNat 32 (leNat (got ++ s.window m))), s.advance m⟩ := by
  intro m
  induction m with
  | zero =>
    intro got s h _
    refine .one ?_
    simp only [seqStep]
    rw [if_pos (by omega)]
    simp [State.window, State.advance]
  | succ m ih =>
    intro got s h ha
    rcases hb : s.input[s.pos]? with _ | b
    · rw [(State.avail_none hb).1] at ha
      omega
    · obtain ⟨ha', hd⟩ := State.avail_succ hb
      refine .step (b := ⟨.runval n (got ++ [b]), s.advance 1⟩) ?_ ?_
      · simp only [seqStep]
        rw [if_neg (by omega)]
        simp only [hb]
      · have := ih (got ++ [b]) (s.advance 1)
          (by rw [List.length_append, List.length_singleton, Nat.add_assoc, Nat.add_comm 1 m]; exact h) (by omega)
        have e : s.window (m + 1) = b :: (s.advance 1).window m := by
          simp only [State.window, hd, List.take_succ_cons]
        rw [e]
        simpa [State.advance, Nat.add_assoc, Nat.add_comm 1 m] using this

theorem zeroFilled_cons (m : Nat) (b : Byte) (l : List Byte) :
    zeroFilled (m + 1) (b :: l) = b :: zeroFilled m l := by
  simp [zeroFilled]

theorem zeroFilled_nil (m : Nat) : zeroFilled m [] = List.replicate m 0 := by
  simp [zeroFilled]

theorem zeroFilled_length (m : Nat) (l : List Byte) : (zeroFilled m l).length = m := by
  simp [zeroFilled]
  omega

theorem zeroFilled_add (a c : Nat) (l : List Byte) :
    zeroFilled (a + c) l = zeroFilled a l ++ zeroFilled c (l.drop a) := by
  induction a generalizing l with
  | zero => simp [zeroFilled]
  | succ a ih =>
    cases l with
    | nil => rw [List.drop_nil, zeroFilled_nil, zeroFilled_nil, zeroFilled_nil, List.replicate_append_replicate]
    | cons b l =>
      rw [Nat.add_right_comm, zeroFilled_cons, zeroFilled_cons, ih]
      rfl

/-- `S_PAYLOAD` collects the bytes of one group, zeros once the cursor is empty (R102). -/
theorem seq_group (g : BitVec 31) (left : Nat) (hl : left ≠ 0) : ∀ (m : Nat) (got : List Byte) (s : State),
    got.length + m = s.bitWidth.val →
    Reaches ⟨.payload g left got, s⟩
      ⟨.payload g left (got ++ zeroFilled m (s.input.drop s.pos)), s.advance (min m s.avail)⟩ := by
  intro m
  induction m with
  | zero =>
    intro got s h
    refine ⟨0, ?_⟩
    simp [seqRun, zeroFilled, State.advance]
  | succ m ih =>
    intro got s h
    rcases hb : s.input[s.pos]? with _ | b
    · refine .step (b := ⟨.payload g left (got ++ [0]), s⟩) ?_ ?_
      · simp only [seqStep, hl, if_false, seqPayloadStep]
        rw [if_neg (by omega)]
        simp only [hb]
      · have := ih (got ++ [0]) s (by simp; omega)
        obtain ⟨ha, hd⟩ := State.avail_none hb
        rw [hd, zeroFilled_nil, ha] at this ⊢
        simpa [List.replicate_succ] using this
    · obtain ⟨ha, hd⟩ := State.avail_succ hb
      refine .step (b := ⟨.payload g left (got ++ [b]), s.advance 1⟩) ?_ ?_
      · simp only [seqStep, hl, if_false, seqPayloadStep]
        rw [if_neg (by omega)]
        simp only [hb]
      · have := ih (got ++ [b]) (s.advance 1)
          (by rw [List.length_append, List.length_singleton, Nat.add_assoc, Nat.add_comm 1 m]; exact h)
        rw [hd, zeroFilled_cons, ha]
        have e2 : s.advance (min (m + 1) ((s.advance 1).avail + 1)) =
            (s.advance 1).advance (min m (s.advance 1).avail) := by
          simp only [State.advance]
          congr 1
          omega
        rw [e2]
        simpa using this

/-- `S_PAYLOAD` over all groups: the fields of the zero-filled payload (R86, R96, R102). -/
theorem seq_payload (g : BitVec 31) : ∀ (left : Nat) (s : State), s.bitWidth ≠ 0 →
    Reaches ⟨.payload g left [], s⟩ ⟨.donePacked g, { s with
      pos := s.pos + min (s.bitWidth.val * left) s.avail
      fill := s.fill ++ fieldsOf s.bitWidth.val (8 * left)
        (zeroFilled (s.bitWidth.val * left) (s.input.drop s.pos))
      unpackAcc := if left = 0 then s.unpackAcc else 0 }⟩ := by
  intro left
  induction left with
  | zero =>
    intro s _
    exact .one (by simp [seqStep, fieldsOf])
  | succ left ih =>
    intro s hw
    have hr := State.bitWidth_range hw
    refine (seq_group g (left + 1) (by omega) s.bitWidth.val [] s (by simp)).trans ?_
    have hu := unpackGroup_eq (group := zeroFilled s.bitWidth.val (s.input.drop s.pos))
      (s.advance (min s.bitWidth.val s.avail)) hr (zeroFilled_length _ _)
    refine .step (b := ⟨.payload g left [], { s.advance (min s.bitWidth.val s.avail) with
      fill := s.fill ++ fieldsOf s.bitWidth.val 8 (zeroFilled s.bitWidth.val (s.input.drop s.pos))
      unpackAcc := 0 }⟩) ?_ ?_
    · simp only [seqStep, Nat.succ_ne_zero, if_false, seqPayloadStep, List.nil_append]
      rw [if_pos (by rw [zeroFilled_length]; rfl)]
      simp only [State.advance] at hu ⊢
      rw [hu]
      rfl
    · have := ih { s.advance (min s.bitWidth.val s.avail) with
        fill := s.fill ++ fieldsOf s.bitWidth.val 8 (zeroFilled s.bitWidth.val (s.input.drop s.pos))
        unpackAcc := 0 } hw
      have e : s.input.drop (s.pos + min s.bitWidth.val s.avail) =
          (s.input.drop s.pos).drop s.bitWidth.val := by
        rw [List.drop_drop]
        by_cases h : s.bitWidth.val ≤ s.avail
        · rw [Nat.min_eq_left h]
        · simp only [State.avail] at h ⊢
          rw [List.drop_eq_nil_of_le (by omega), List.drop_eq_nil_of_le (by omega)]
      have hm : s.bitWidth.val * (left + 1) = s.bitWidth.val + s.bitWidth.val * left := by ring
      have hf := fieldsOf_succ (w := s.bitWidth.val) (n := left)
        (payload := zeroFilled (s.bitWidth.val * (left + 1)) (s.input.drop s.pos)) (zeroFilled_length _ _)
      rw [← hf, hm, zeroFilled_add, List.take_left' (zeroFilled_length _ _),
        List.drop_left' (zeroFilled_length _ _)]
      have e3 : s.pos + min (s.bitWidth.val + s.bitWidth.val * left) s.avail =
          s.pos + min s.bitWidth.val s.avail +
            min (s.bitWidth.val * left) (s.advance (min s.bitWidth.val s.avail)).avail := by
        simp only [State.avail, State.advance]
        generalize s.bitWidth.val * left = q
        omega
      simp only [State.advance, List.append_assoc] at this
      rw [e] at this
      rw [e3]
      simpa [State.advance, State.avail, -List.drop_drop] using this

end Sys2Proof.Machine
end

