-- ==== Sys2Proof/Tests/Slice0.lean ====
section
/-! SUPPORT. The model's own tests. Expected values are those of spec/95_test_vectors.md (named in each test)
or worked out by hand from the rule named; after them, for each statement with hypotheses, a witness that meets
them together, one for each of its clauses. -/

namespace Sys2Proof.Tests
open Sys2Proof Sys2Proof.Machine

/-! ## Small states -/

/-- Parameters of a small block. -/
def params : Params where
  domainWidth := 64
  dict := [(0, 100), (1, 101), (2, 102), (5, 105), (6, 106), (0x2A, 1700000000000)]
  dictRetained := 1000
  instanceOverhead := 48
  bufCapGroups := 4
  outSize := 8

/-- The block after reset. -/
def blk : State := State.resetWith params

/-- A stream instance at the first byte of a stream. -/
def stream (kind : Kind) (w : Fin 33) (bytes : List Byte) : State :=
  { blk with kind := kind, bitWidth := w, constOnly := false, input := bytes }

/-- A constant-only instance. -/
def fixed (value count : Word) : State := { blk with currentValue := value, currentCount := count }

/-- A run of three 5s, at the end of its stream. -/
def inRun : State := { stream .generic 8 [] with currentValue := 5, currentCount := 3 }

/-- A packed record of which five slots are left, the third of them a code the dictionary lacks. -/
def inGroup : State :=
  { stream .generic 3 [] with mode := .packed, buf := [5, 6, 2, 5, 1, 7, 1, 0], currentCount := 5 }

/-- A block that holds a fault. -/
def faulted : State := { inRun with fault := .streamUnderrun }

/-- A block to which one thing is offered. -/
def offered (s : State) (x : HostInput) : State := { s with pending := [x] }

/-- The words of `OUT` from an index on. -/
def words (s : State) (i n : Nat) : List (Option Nat) := (List.range n).map fun k => s.out.read (i + k)

/-- The state notation of spec/95_test_vectors.md, with the last response. -/
structure Look where
  mode : Mode
  currentValue : Word
  currentCount : Word
  bufLen : Nat
  pos : Nat
  fault : FaultCode
  rsp : Option Response
deriving DecidableEq, Repr

def look (s : State) : Look := ⟨s.mode, s.currentValue, s.currentCount, s.bufLen, s.pos, s.fault, s.rsp⟩

/-- The state an instruction leaves; none where it stops. -/
def after (i : Instr) (s : State) : Option State :=
  match exec i s with
  | .next t => some t
  | .fault _ => none
  | .refused _ => none

/-! ## What the syntax admits -/

theorem test_wf_refuses_runval : [Instr.runval 0 0, .runval 5 0, .runval 1 256, .runval 3 0x1000000].map
    Instr.wellFormed = [false, false, false, false] := by decide

theorem test_wf_refuses_unpack8 : [Instr.unpack8 0 [], .unpack8 33 (List.replicate 33 0), .unpack8 3 [1, 2]].map
    Instr.wellFormed = [false, false, false] := by decide

theorem test_wf_refuses_records :
    (Record.run 1 256).wellFormed .generic 8 = false ∧ (Record.run 1 1).wellFormed .singleBit 1 = false ∧
      (Record.packed 1 [0, 0, 0, 0, 0, 0, 0, 8]).wellFormed .generic 3 = false ∧
      (Record.packed 1 [0]).wellFormed .generic 3 = false ∧ (Record.brun 1 1).wellFormed .generic 1 = false := by
  decide

/-! ## Decoding, from words written out from the formats of spec/30_encoding.md -/

/-- R51: `1ppppppp`. -/
theorem test_decode_varint_cont : decode (.vbyte 0b10101100#8) = .ok (.varintCont 0b0101100) := by decide

/-- R51: `0ppppppp`. -/
theorem test_decode_varint_last : decode (.vbyte 0b00000010#8) = .ok (.varintLast 2) := by decide

/-- R52: header 400 is `RUN 200`. -/
theorem test_decode_hdr_run :
    decode (.hdr .generic 0b00000000000000000000000110010000#32) = .ok (.hdrRun 200) := by decide

/-- R52: header 3 is one group. -/
theorem test_decode_hdr_packed :
    decode (.hdr .generic 0b00000000000000000000000000000011#32) = .ok (.hdrPacked 1) := by decide

/-- R52: the same bits, read by a SingleBit instance; and the largest header. -/
theorem test_decode_hdr_brun :
    decode (.hdr .singleBit 0b00000000000000000000000000000011#32) = .ok (.hdrBrun 1 1) ∧
      decode (.hdr .singleBit 0b11111111111111111111111111111110#32) = .ok (.hdrBrun 0x7FFFFFFF 0) := by decide

/-- R53: little-endian, 1 to 4 bytes. -/
theorem test_decode_runval :
    decode (.runval [0b00110100, 0b00010010]) = .ok (.runval 2 0x1234) ∧
      decode (.runval []) = .error (.runValueLength 0) ∧
      decode (.runval [0, 0, 0, 0, 0]) = .error (.runValueLength 5) := by decide

/-- R54: any bytes, 1 to 32 of them. -/
theorem test_decode_unpack8 :
    decode (.pgroup [0b10110101, 0b11001010, 0b00000111]) = .ok (.unpack8 3 [0xB5, 0xCA, 0x07]) ∧
      decode (.pgroup []) = .error (.groupLength 0) := by decide

/-- R58, R61: the commands, by opcode. -/
theorem test_decode_commands :
    let c : CmdPort := ⟨0, 1, 1, 9, 7, 3, 4, 5, [0xFF]⟩
    decode (.cmd c) = .ok (.init .singleBit true 9 7 3 [0xFF]) ∧
      decode (.cmd { c with op := 1 }) = .ok .decode ∧
      decode (.cmd { c with op := 2 }) = .ok (.readnext 4 5) ∧
      decode (.cmd { c with op := 3 }) = .ok (.skip 5) ∧
      decode (.cmd { c with op := 4 }) = .ok .retained ∧
      decode (.cmd { c with op := 5 }) = .error (.reservedOpcode 5) ∧
      decode (.cmd { c with op := 7 }) = .error (.reservedOpcode 7) := by decide

/-- R62: the assembly of program P3 of spec/95_test_vectors.md. -/
theorem test_assemble_p3 :
    assembleStream 9 [.run 200 0x107, .packed 1 [0x1FF, 0, 0x155, 0xAA, 1, 2, 3, 0x100], .run 3 2] =
      [0x90, 0x03, 0x07, 0x01, 0x03, 0xFF, 0x01, 0x54, 0x55, 0x15, 0x40, 0xC0, 0x00, 0x80, 0x06, 0x02, 0x00] := by
  decide

/-! ## The instructions -/

/-- VR9 `E5 8E 26`: the second byte, after `0x65`. -/
theorem test_varint_cont : (after (.varintCont 0x0E) { blk with acc := 0x65, shift := 7 }).map
    (fun s => (s.acc, s.shift, s.header)) = some (0x765, 14, none) := by decide

/-- VR14: the sixth byte of an overlong header contributes nothing. -/
theorem test_varint_overlong : (after (.varintCont 1) { blk with acc := 3, shift := 35 }).map
    (fun s => (s.acc, s.shift)) = some (3, 42) := by decide

/-- VR11 and VR12: of a fifth byte only the low four bits count. -/
theorem test_varint_last : [0x0F, 0x7F].map (fun p => (after (.varintLast p)
    { blk with acc := 0x0FFFFFFF, shift := 28 }).map fun s => (s.header, s.acc, s.shift)) =
      [some (some 0xFFFFFFFF, 0, 0), some (some 0xFFFFFFFF, 0, 0)] := by decide

/-- RS4: the value is the two bytes, least significant first; RS11: it is not there. -/
theorem test_hdr_run : (after (.hdrRun 2) (stream .generic 16 [0x34, 0x12])).map look =
      some ⟨.run, 0x1234, 2, 0, 2, .none, none⟩ ∧
    (after (.hdrRun 2) (stream .generic 16 [9])).map look =
      some ⟨.run, 0, 0, 0, 0, .truncatedStream, some (.fault .truncatedStream)⟩ := by decide

/-- RS9: the bytes after `D1 58 1F 77` read as zero. -/
theorem test_hdr_packed_zero_fill :
    (after (.hdrPacked 2) (stream .generic 3 [0xD1, 0x58, 0x1F, 0x77])).map (fun s => (look s, s.buf)) =
      some (⟨.packed, 0, 16, 16, 4, .none, none⟩, [1, 2, 3, 4, 5, 6, 7, 0, 7, 6, 1, 0, 0, 0, 0, 0]) := by decide

/-- RS13: one group more than the buffer holds. -/
theorem test_hdr_packed_capacity : (after (.hdrPacked 5) (stream .generic 1 [1, 2, 3, 4, 5])).map look =
    some ⟨.run, 0, 0, 0, 0, .capacity, some (.fault .capacity)⟩ := by decide

/-- RS18: `4D` under the kind SingleBit. -/
theorem test_hdr_brun : (after (.hdrBrun 38 1) (stream .singleBit 1 [0x2A])).map look =
    some ⟨.run, 1, 38, 0, 0, .none, none⟩ := by decide

/-- RS6: not masked to three bits. -/
theorem test_runval : (after (.runval 1 0xFF) (stream .generic 3 [])).map (·.currentValue) = some 0xFF := by
  decide

/-- UP3, and UP11: nine-bit fields that straddle bytes. -/
theorem test_unpack8 : (after (.unpack8 3 [0xB5, 0xCA, 0x07]) blk).map (·.fill) =
      some [5, 6, 2, 5, 4, 7, 1, 0] ∧
    (after (.unpack8 9 [0xFF, 0x01, 0x54, 0x55, 0x15, 0x40, 0xC0, 0x00, 0x80]) { blk with fill := [9] }).map
      (·.fill) = some [9, 511, 0, 341, 170, 1, 2, 3, 256] := by decide

/-- UP14: the mask of width 32. -/
theorem test_unpack8_width_32 : (after (.unpack8 32 [0xFF, 0xFF, 0xFF, 0xFF, 0, 0, 0, 0, 0, 0, 0, 0x80, 1, 0, 0, 0,
    0xEF, 0xBE, 0xAD, 0xDE, 2, 0, 0, 0, 3, 0, 0, 0, 0xFF, 0xFF, 0xFF, 0x7F]) blk).map (·.fill) =
      some [0xFFFFFFFF, 0, 0x80000000, 1, 0xDEADBEEF, 2, 3, 0x7FFFFFFF] := by decide

/-- P6 step 1 (`in` ignored), over a block that was in the middle of something. -/
theorem test_init_constant : (after (.init .generic false 0 7 5 [0xFF]) faulted).map
    (fun s => (look s, s.constOnly, s.input)) = some (⟨.run, 7, 5, 0, 0, .none, some .ok⟩, true, []) := by decide

/-- TR1: width 33. -/
theorem test_init_width : (after (.init .generic false 33 0 0 [0x0A, 0x2A]) inRun).map look =
    some ⟨.run, 0, 0, 0, 0, .argument, some (.fault .argument)⟩ := by decide

/-- RS12: the byte stays consumed; RS5: `0xDEADBEEF`, bit 31 set. -/
theorem test_decode : (after .decode (stream .generic 8 [0x80])).map look =
      some ⟨.run, 0, 0, 0, 1, .truncatedStream, some (.fault .truncatedStream)⟩ ∧
    (after .decode (stream .generic 32 [0x04, 0xEF, 0xBE, 0xAD, 0xDE])).map look =
      some ⟨.run, 0xDEADBEEF, 2, 0, 5, .none, some (.decoded true 2)⟩ := by decide

/-- RS20: pending values are dropped at the end of the stream. -/
theorem test_decode_at_end : (after .decode inRun).map look =
    some ⟨.run, 5, 0, 0, 0, .none, some (.decoded false 0)⟩ := by decide

/-- TR7: two slots are written before the missing code; none is consumed. -/
theorem test_readnext_miss :
    (after (.readnext 0 8) { stream .generic 3 [0x03, 0xB5, 0xCA, 0x07] with
      params := { params with dict := [(5, 50), (6, 60)] } }).map (fun s => (look s, words s 0 3)) =
      some (⟨.packed, 0, 8, 8, 4, .dictionaryMiss, some (.fault .dictionaryMiss)⟩,
        [some 50, some 60, none]) := by decide

/-- TR4 (with P1's dictionary), and TR3: the request does not fit `OUT_SIZE`. -/
theorem test_readnext :
    (after (.readnext 3 5) (stream .generic 8 [0x0A, 0x2A])).map (fun s => (look s, words s 2 6)) =
      some (⟨.run, 0x2A, 0, 0, 2, .none, some .ok⟩, none :: List.replicate 5 (some 1700000000000)) ∧
    (after (.readnext 4 5) (stream .generic 8 [0x0A, 0x2A])).map (fun s => (look s, s.out)) =
      some (⟨.run, 0, 0, 0, 0, .argument, some (.fault .argument)⟩, []) := by decide

/-- P3 step 4: four slots of a group and one value of the next run. -/
theorem test_skip : (after (.skip 5) { stream .generic 9 [0x06, 0x02, 0x00] with
    mode := .packed, buf := [511, 0, 341, 170, 1, 2, 3, 256], currentCount := 4 }).map look =
      some ⟨.run, 2, 2, 0, 3, .none, some .ok⟩ := by decide

/-- TR2: a negative length. -/
theorem test_skip_negative : (after (.skip 0xFFFFFFFF) (stream .generic 8 [0x0A, 0x2A])).map look =
    some ⟨.run, 0, 0, 0, 0, .argument, some (.fault .argument)⟩ := by decide

/-- SZ2, and SZ6: with a fault stored. -/
theorem test_retained : [inGroup, { inGroup with fault := .argument }].map (fun s => (after .retained s).map (·.rsp)) =
    [some (some (.bytes (48 + 32 + 1000))), some (some (.bytes (48 + 32 + 1000)))] := by decide

/-! ## The step -/

/-- FT3: opcode 6. -/
theorem test_step_reserved : step (offered blk (.command (CmdPort.bare 6))) =
    .next { blk with fault := .argument, rsp := some (.fault .argument) } := rfl

/-- R170, with no command in flight. -/
theorem test_step_reset : step (offered faulted (.reset none)) = .next blk := rfl

/-- R170, D26: reset when two of three words of a READNEXT were written. -/
theorem test_step_reset_in_flight :
    step (offered inRun (.reset (some ({ CmdPort.bare 2 with length := 3 }, 2)))) =
      .next { blk with out := [(0, 105), (1, 105)] } := rfl

/-- U9: another dictionary inside the life of an instance, to which a READNEXT that reset interrupts belongs,
is outside the model; before INIT it is not. -/
theorem test_step_dictionary :
    step (offered inRun (.attachDictionary [] 0)) = .refused .dictionaryChange ∧
      step { inRun with
        pending := [.attachDictionary [(5, 1)] 0, .reset (some ({ CmdPort.bare 2 with length := 3 }, 2))] } =
          .refused .dictionaryChange ∧
      step { inRun with pending := [.attachDictionary [(0, 1)] 0, .command (CmdPort.bare 0)] } =
        .next { inRun with
          params := { params with dict := [(0, 1)], dictRetained := 0 }
          pending := [.command (CmdPort.bare 0)] } := ⟨rfl, rfl, rfl⟩

/-- The opcode table's words, placed where the next step runs them (log entry 9). -/
theorem test_table_words :
    decodeTableWord 8 0x80 = some (.varintCont 0) ∧ decodeTableWord 32 0 = some (.hdrRun 0) ∧
      decodeTableWord 32 1 = some (.hdrPacked 0) ∧ decodeTableWord 3 4 = some .retained ∧
      (match step (State.reset.withFetchWord 32 10) with
        | .next t => t.rsp = some (.decoded true 5)
        | .fault _ => False
        | .refused _ => False) := ⟨rfl, rfl, rfl, rfl, rfl⟩

/-- The sequencer on RS9 ends as `Decode()` does. -/
theorem test_sequencer : (seqRun 12 ⟨.check, stream .generic 3 [0x05, 0xD1, 0x58, 0x1F, 0x77]⟩).phase =
    .finished true := by decide

/-- R75: `V_ACCUM` with no byte goes to `V_IDLE`. -/
theorem test_sequencer_cut : seqStep ⟨.hdr, { stream .generic 8 [] with acc := 5, shift := 7 }⟩ =
    ⟨.faulted .truncatedStream, stream .generic 8 []⟩ := rfl

/-! ## Witnesses: the hypotheses of each statement, met together -/

/-- The invariant, checked by evaluation. -/
def invCheck (s : State) : Bool :=
  decide (s.mode = .packed →
    s.buf.length % 8 = 0 ∧ s.buf.length ≤ 8 * s.params.bufCapGroups ∧ s.currentCount.toNat ≤ s.buf.length) &&
  decide (s.mode = .run → s.buf = []) && decide (s.pos ≤ s.input.length) &&
  decide (s.constOnly = true → s.pos = 0 ∧ s.buf = [] ∧ s.mode = .run) &&
  decide (s.kind = .singleBit →
    s.mode = .run ∧ s.buf = [] ∧ (s.constOnly = false → s.currentValue = 0 ∨ s.currentValue = 1)) &&
  (s.buf.all fun v => decide (v.toNat < 2 ^ s.bitWidth.val)) && decide s.params.Wf &&
  decide (s.constOnly = false → s.bitWidth ≠ 0) && s.out.wf &&
  decide (∀ e ∈ s.out, e.1 < s.params.outSize ∧ e.2 < 2 ^ s.params.domainWidth) &&
  decide (s.acc = 0 ∧ s.shift = 0 ∧ s.header = none ∧ s.unpackAcc = 0 ∧ s.fill = [])

theorem inv_of_check {s : State} (h : invCheck s = true) : s.Inv := by
  simp only [invCheck, Bool.and_eq_true, decide_eq_true_eq, List.all_eq_true] at h
  obtain ⟨⟨⟨⟨⟨⟨⟨⟨⟨⟨h1, h2⟩, h3⟩, h4⟩, h5⟩, h6⟩, h7⟩, h8⟩, h9⟩, h10⟩, h11, h12, h13, h14, h15⟩ := h
  exact ⟨h1, h2, h3, h4, h5, h6, h7, h8, ⟨h9, h10⟩, ⟨h11, h12, h13, h14, h15⟩⟩

theorem idle_blk : blk.UnitsIdle := ⟨rfl, rfl, rfl, rfl, rfl⟩

theorem inv_inRun : inRun.Inv := inv_of_check (by decide +kernel)

theorem inv_inGroup : inGroup.Inv := inv_of_check (by decide +kernel)

theorem varint_one {b : Byte} (h : b.getLsbD 7 = false) : IsVarint [b] := ⟨[], b, rfl, by simp, h⟩

theorem varint_two {a b : Byte} (h : a.getLsbD 7 = true) (k : b.getLsbD 7 = false) : IsVarint [a, b] :=
  ⟨[a], b, rfl, by simpa using h, k⟩

theorem witness_DecodeReadsBackEncode : (Instr.runval 4 0xFFFFFFFF).wellFormed = true ∧
    (Instr.unpack8 32 (List.replicate 32 0xFF)).wellFormed = true := by decide

theorem witness_DecodedWordsReEncode : decode (.vbyte 0x80) = .ok (.varintCont 0) ∧
    decode (.runval [0xFF, 0xFF, 0xFF, 0xFF]) = .ok (.runval 4 0xFFFFFFFF) ∧
    (∀ c, Fetched.vbyte 0x80 ≠ .cmd c) := ⟨rfl, rfl, nofun⟩

theorem witness_CommandFormat : (CmdPort.bare 0).kind = 0 ∧ { CmdPort.bare 0 with kind := 1 }.kind = 1 ∧
    (CmdPort.bare 1).op = 1 ∧ (CmdPort.bare 2).op = 2 ∧ (CmdPort.bare 3).op = 3 ∧ (CmdPort.bare 4).op = 4 ∧
    5 ≤ (CmdPort.bare 5).op.toNat ∧ 5 ≤ (CmdPort.bare 7).op.toNat := by decide

theorem witness_ReservedCommandIsArgumentError :
    (offered blk (.command (CmdPort.bare 5))).UnitsIdle ∧ (offered faulted (.command (CmdPort.bare 7))).UnitsIdle ∧
      blk.fault = .none ∧ faulted.fault ≠ .none ∧ 32 < (33 : BitVec 6).toNat ∧ 32 < (63 : BitVec 6).toNat :=
  ⟨⟨rfl, rfl, rfl, rfl, rfl⟩, ⟨rfl, rfl, rfl, rfl, rfl⟩, rfl, nofun, by decide, by decide⟩

theorem witness_StepRunsTheDecodedCommand :
    (offered inRun (.command { CmdPort.bare 3 with length := 2 })).pending =
      .command { CmdPort.bare 3 with length := 2 } :: [] ∧
    decodeCommand { CmdPort.bare 3 with length := 2 } = .ok (.skip 2) := ⟨rfl, rfl⟩

theorem witness_IdleBlockKeepsItsState : inRun.pending = [] := rfl

/-- A record that runs, one that faults, and one of an instance of width 0, which no run reaches. -/
theorem witness_DecodeRunsTheStreamOperations : IsVarint [0x0A] ∧
    ((stream .generic 8 [0x0A, 0x2A]).input.drop 0 = [0x0A] ++ [0x2A] ∧
      (after (.hdrRun 5) { stream .generic 8 [0x0A, 0x2A] with pos := 1, header := some 10 }).map (·.fault) =
        some .none) ∧
    ((stream .generic 8 [0x0A]).input.drop 0 = [0x0A] ++ [] ∧
      (after (.hdrRun 5) { stream .generic 8 [0x0A] with pos := 1, header := some 10 }).map (·.fault) =
        some .truncatedStream) ∧
    ((stream .generic 0 [0x0A]).input.drop 0 = [0x0A] ++ [] ∧
      exec (.hdrRun 5) { stream .generic 0 [0x0A] with pos := 1, header := some 10 } =
        .refused .runValueFormat) :=
  ⟨varint_one rfl, by decide, by decide, rfl, rfl⟩

theorem witness_HeadersRunTheirPayloads :
    ((stream .generic 9 [7, 1]).bitWidth ≠ 0 ∧ ((9 + 7) / 8 ≤ (stream .generic 9 [7, 1]).avail)) ∧
    (stream .generic 3 []).bitWidth ≠ 0 ∧ (4 : BitVec 31).toNat ≤ params.bufCapGroups := by decide

theorem witness_VarintContAccumulates :
    (stream .generic 8 [0x80]).input[0]? = some (1#1 ++ 0#7) ∧
      (after (.varintCont 0) ((stream .generic 8 [0x80]).advance 1)).map (·.avail) = some 0 := by decide

theorem witness_VarintLastEmitsTheValue :
    (stream .generic 8 [0x7F]).input[0]? = some (0#1 ++ 0x7F#7) ∧
      (after (.varintLast 0x7F) ((stream .generic 8 [0x7F]).advance 1)).isSome = true ∧
      blk.acc = 0 ∧ blk.shift = 0 ∧ (after (.varintLast 0x7F) blk).isSome = true := by decide

theorem witness_VarintReadsThePayloadSum : IsVarint [0x80, 0x01] ∧
    (stream .generic 8 [0x80, 0x01, 0x2A]).input.drop 0 = [0x80, 0x01] ++ [0x2A] :=
  ⟨varint_two rfl rfl, rfl⟩

theorem witness_HeaderCutShortFaults :
    ((stream .generic 8 [0xFF, 0xFF]).UnitsIdle ∧ (stream .generic 8 [0xFF, 0xFF]).avail ≠ 0 ∧
      ∀ c ∈ (stream .generic 8 [0xFF, 0xFF]).input.drop 0, c.getLsbD 7 = true) ∧
    (stream .generic 8 []).avail = 0 := ⟨⟨⟨rfl, rfl, rfl, rfl, rfl⟩, by decide, by decide⟩, rfl⟩

theorem witness_MinimalVarintReadsBack :
    (stream .generic 8 [0xFF, 0xFF, 0xFF, 0xFF, 0x0F, 0x2A]).input.drop 0 = varintBytes 0xFFFFFFFF ++ [0x2A] ∧
      (stream .generic 8 [0]).input.drop 0 = varintBytes 0 ++ [] := by decide

theorem witness_Unpack8ExtractsEightFields : 1 ≤ 32 ∧ (List.replicate 32 (0xFF : Byte)).length = 32 ∧
    ([0x4D] : List Byte).length = 1 := by decide

theorem witness_Unpack8HasNoOtherWidths : 32 < 33 ∧ ([0, 0] : List Byte).length ≠ 3 := by decide

theorem witness_Unpack8ValuesAreInRange : (after (.unpack8 5 (List.replicate 5 0xFF)) blk).isSome = true := by
  decide

theorem witness_PackThenDecodeReproduces :
    (stream .generic 3 [0x03, 0x88, 0xC6, 0xFA, 0x01]).Inv ∧ (1 : BitVec 31).toNat ≤ params.bufCapGroups ∧
      ([0, 1, 2, 3, 4, 5, 6, 7] : List Word).length = 8 * (1 : BitVec 31).toNat ∧
      (∀ v ∈ ([0, 1, 2, 3, 4, 5, 6, 7] : List Word), v.toNat < 2 ^ 3) ∧
      (stream .generic 3 [0x03, 0x88, 0xC6, 0xFA, 0x01]).input.drop 0 =
        (Record.packed 1 [0, 1, 2, 3, 4, 5, 6, 7]).assemble 3 ++ [0x01] :=
  ⟨inv_of_check (by decide +kernel), by decide, rfl, by simp, by decide⟩

theorem witness_HdrRunReadsOneValue : (stream .generic 9 [7, 1]).bitWidth ≠ 0 ∧
    (9 + 7) / 8 ≤ (stream .generic 9 [7, 1]).avail ∧ (stream .generic 9 [7]).avail < (9 + 7) / 8 := by decide

theorem witness_RunvalWritesCurrentValue : (0xFFFFFFFF : Word).toNat < 2 ^ (8 * 4) ∧
    (0xFF : Word).toNat < 2 ^ (8 * 1) := by decide

theorem witness_HdrPackedFillsTheBuffer : (stream .generic 3 [1]).bitWidth ≠ 0 ∧
    (stream .generic 3 [1]).unpackAcc = 0 ∧ (4 : BitVec 31).toNat ≤ params.bufCapGroups ∧
    params.bufCapGroups < (5 : BitVec 31).toNat := by decide

theorem witness_DecodeConstantOnly : (fixed 7 3).fault = .none ∧ (fixed 7 3).constOnly = true := ⟨rfl, rfl⟩

theorem witness_DecodeCleanEndOfStream : inRun.fault = .none ∧ inRun.constOnly = false ∧ inRun.avail = 0 :=
  ⟨rfl, rfl, rfl⟩

theorem witness_DecodeRunRecord : IsVarint [0x0A] ∧ varintValue [0x0A] % 2 = 0 ∧
    (stream .generic 9 [0x0A, 7, 1]).Inv ∧
    ((stream .generic 9 [0x0A, 7, 1]).input.drop 0 = [0x0A] ++ [7, 1] ∧ (9 + 7) / 8 ≤ [7, 1].length) ∧
    (stream .generic 9 [0x0A, 7]).Inv ∧
    (stream .generic 9 [0x0A, 7]).input.drop 0 = [0x0A] ++ [7] ∧ [7].length < (9 + 7) / 8 :=
  ⟨varint_one rfl, rfl, inv_of_check (by decide +kernel), by decide, inv_of_check (by decide +kernel), by decide, by decide⟩

theorem witness_DecodePackedRecord : IsVarint [0x09] ∧ IsVarint [0x0B] ∧
    varintValue [0x09] / 2 ≤ params.bufCapGroups ∧ params.bufCapGroups < varintValue [0x0B] / 2 ∧
    varintValue [0x09] % 2 = 1 ∧ varintValue [0x0B] % 2 = 1 ∧ (stream .generic 3 [0x09, 0xD1]).Inv ∧
    (stream .generic 3 [0x0B, 0xD1]).Inv ∧ (stream .generic 3 [0x09, 0xD1]).input.drop 0 = [0x09] ++ [0xD1] ∧
    (stream .generic 3 [0x0B, 0xD1]).input.drop 0 = [0x0B] ++ [0xD1] :=
  ⟨varint_one rfl, varint_one rfl, by decide, by decide, rfl, rfl, inv_of_check (by decide +kernel),
    inv_of_check (by decide +kernel), rfl, rfl⟩

theorem witness_DecodeSingleBitRecord : (stream .singleBit 1 [0xAC, 0x02, 0x2A]).Inv ∧
    (IsVarint [0xAC, 0x02] ∧ (stream .singleBit 1 [0xAC, 0x02, 0x2A]).input.drop 0 = [0xAC, 0x02] ++ [0x2A]) ∧
    (stream .singleBit 1 [0xAC]).Inv ∧ ((stream .singleBit 1 [0xAC]).input.drop 0 = [0xAC] ++ [] ∧
      ∀ c ∈ ([0xAC] : List Byte), c.getLsbD 7 = true) :=
  ⟨inv_of_check (by decide +kernel), ⟨varint_two rfl rfl, rfl⟩, inv_of_check (by decide +kernel), rfl, by decide⟩

theorem witness_DecodeAnswersOrLeavesTheRunState : inGroup.Inv ∧ inGroup.fault = .none := ⟨inv_inGroup, rfl⟩

theorem witness_InitBuildsTheInstance : (32 : BitVec 6).toNat ≤ 32 ∧ (32 : BitVec 6).toNat ≠ 0 ∧
    (0 : BitVec 6).toNat = 0 ∧ 32 < (33 : BitVec 6).toNat := by decide

theorem witness_ArgumentErrorCauses : inRun.UnitsIdle ∧ inRun.fault = .none ∧ 32 < (33 : BitVec 6).toNat ∧
    (0x80000000 : Word).toInt < 0 ∧ (0xFFFFFFFF : Word).toInt < 0 ∧
    (params.outSize : Int) < (4 : Word).toInt + (5 : Word).toInt ∧ 5 ≤ (CmdPort.bare 5).op.toNat :=
  ⟨inv_inRun.units, rfl, by decide, by decide, by decide, by decide, by decide⟩

theorem witness_ReadnextWithinARun : inRun.fault = .none ∧ inRun.mode = .run ∧
    (5 : Word).toInt + (3 : Word).toInt ≤ (params.outSize : Int) ∧ (3 : Word).toNat ≤ inRun.currentCount.toNat ∧
    dictResolve params.dict inRun.currentValue = some 105 := by decide

theorem witness_ReadnextWithinAPackedRecord : inGroup.Inv ∧ inGroup.fault = .none ∧ inGroup.mode = .packed ∧
    (6 : Word).toInt + (2 : Word).toInt ≤ (params.outSize : Int) ∧ (2 : Word).toNat ≤ inGroup.currentCount.toNat ∧
    (∀ k (h : k < [105, 101].length), ∃ c, inGroup.buf[8 - 5 + k]? = some c ∧
      dictResolve params.dict c = some [105, 101][k]) := by
  refine ⟨inv_inGroup, by decide, by decide, by decide, by decide, fun k h => ?_⟩
  have hk : k = 0 ∨ k = 1 := by simp at h; omega
  rcases hk with rfl | rfl
  · exact ⟨5, rfl, rfl⟩
  · exact ⟨1, rfl, rfl⟩

theorem witness_ReadnextMissingCode :
    (0 < (1 : Word).toInt ∧ ({ inRun with currentValue := 3 } : State).Inv ∧ inRun.currentCount ≠ 0 ∧
      dictResolve params.dict 3 = none) ∧
    (inGroup.Inv ∧ [105, 101].length < (3 : Word).toNat ∧ [105, 101].length < inGroup.currentCount.toNat ∧
      inGroup.buf[8 - 5 + [105, 101].length]? = some 7 ∧ dictResolve params.dict 7 = none) :=
  ⟨⟨by decide, inv_of_check (by decide +kernel), by decide, by decide⟩, inv_inGroup, by decide, by decide, by decide,
    by decide⟩

/-- A record that faults, none, one whose code is missing, one that serves. -/
theorem witness_ReadnextDecodesWhenEmpty : (stream .generic 8 [0x04]).Inv ∧ (stream .generic 8 []).Inv ∧
    (stream .generic 8 [0x04, 3]).Inv ∧ (stream .generic 8 [0x04, 5]).Inv ∧
    (after .decode (stream .generic 8 [0x04])).map (·.fault) = some .truncatedStream ∧
    (after .decode (stream .generic 8 [])).map (·.rsp) = some (some (.decoded false 0)) ∧
    (after .decode (stream .generic 8 [0x04, 3])).map (fun u => (u.rsp, u.mode, dictResolve u.params.dict u.currentValue)) =
      some (some (.decoded true 2), .run, none) ∧
    (after .decode (stream .generic 8 [0x04, 5])).map (fun u => (u.rsp, u.currentCount)) =
      some (some (.decoded true 2), 2) :=
  ⟨inv_of_check (by decide +kernel), inv_of_check (by decide +kernel), inv_of_check (by decide +kernel), inv_of_check (by decide +kernel),
    by decide, by decide, by decide, by decide⟩

theorem witness_SkipAdvancesTheCount : inRun.Inv ∧ (3 : Word).toNat ≤ inRun.currentCount.toNat ∧
    inRun.currentCount ≠ 0 ∧ inRun.currentCount.toNat < (4 : Word).toNat ∧ (stream .generic 8 [0x04, 5]).Inv ∧
    (after .decode (stream .generic 8 [0x04])).map (·.fault) = some .truncatedStream ∧
    (after .decode (stream .generic 8 [])).map (·.rsp) = some (some (.decoded false 0)) ∧
    (after .decode (stream .generic 8 [0x04, 5])).map (·.rsp) = some (some (.decoded true 2)) :=
  ⟨inv_inRun, by decide, by decide, by decide, inv_of_check (by decide +kernel), by decide, by decide, by decide⟩

theorem witness_ZeroLengthRequestsDoNothing : inRun.fault = .none ∧ 0 ≤ (8 : Word).toInt ∧
    (8 : Word).toInt ≤ (params.outSize : Int) := by decide

theorem witness_UnderrunMeansExhausted :
    (after (.skip 4) inRun).map (·.fault) = some .streamUnderrun ∧
      (after (.readnext 0 4) inRun).map (·.fault) = some .streamUnderrun ∧
      (fixed 7 0).Inv ∧ (fixed 7 0).exhausted ∧ (fixed 7 0).currentCount.toNat < (1 : Word).toNat :=
  ⟨by decide, by decide, inv_of_check (by decide +kernel), .inl rfl, by decide⟩

/-- A request split where it can be served, and where the second part meets a missing code. -/
theorem witness_ReadnextSplitsAnywhere : inGroup.Inv ∧
    (after (.readnext 0 1) inGroup).map (·.rsp) = some (some .ok) ∧
    ((after (.readnext 0 1) inGroup).bind (after (.readnext 1 1))).map (·.fault) = some .none ∧
    ((after (.readnext 0 1) inGroup).bind (after (.readnext 1 2))).map (·.fault) = some .dictionaryMiss :=
  ⟨inv_inGroup, by decide, by decide, by decide⟩

/-- One value skipped, and then one that is there, and two of which the second is a missing code. -/
theorem witness_SkipAndReadAreInterchangeable : inGroup.Inv ∧
    (1 : Word).toInt + (7 : Word).toInt ≤ (params.outSize : Int) ∧
    (after (.readnext 0 1) inGroup).map (·.rsp) = some (some .ok) ∧
    ((after (.skip 1) inGroup).bind (after (.readnext 4 1))).map (fun t => (t.rsp, t.out.read 4)) =
      some (some .ok, some 101) ∧
    ((after (.skip 1) inGroup).bind (after (.readnext 4 2))).map (·.fault) = some .dictionaryMiss :=
  ⟨inv_inGroup, by decide, by decide, by decide, by decide⟩

theorem witness_ConstantInstanceServesAnyChunks : (fixed 5 3).Inv ∧ (fixed 5 3).constOnly = true ∧
    dictResolve params.dict (fixed 5 3).currentValue = some 105 ∧
    (∀ c ∈ ([(0, 1), (6, 2)] : List (Word × Word)),
      0 ≤ c.1.toInt ∧ 0 ≤ c.2.toInt ∧ c.1.toInt + c.2.toInt ≤ (params.outSize : Int)) ∧
    (([(0, 1), (6, 2)] : List (Word × Word)).map fun c => c.2.toNat).sum = (fixed 5 3).currentCount.toNat ∧
    0 < (1 : Word).toInt ∧ (7 : Word).toInt + (1 : Word).toInt ≤ (params.outSize : Int) :=
  ⟨inv_of_check (by decide +kernel), rfl, rfl, by simp [params], by decide, by decide, by decide⟩

/-- Three records, one of them of length 0. -/
def records : List Record := [.run 2 5, .run 0 1, .run 3 6]

theorem records_wf : ∀ r ∈ records, r.wellFormed .generic 8 = true := by decide

theorem witness_StreamReadsBackItsRecords : blk.Inv ∧ (∀ r ∈ records, r.wellFormed .generic 8 = true) ∧
    (∀ g vs, Record.packed g vs ∈ records → g.toNat ≤ params.bufCapGroups) ∧
    (∀ r ∈ records, ∀ c ∈ recordLookups r, dictResolve params.dict c = some (100 + c.toNat)) ∧
    (3 : Word).toInt + (5 : Word).toInt ≤ (params.outSize : Int) ∧
    (5 : Word).toNat = (streamCodes records).length :=
  ⟨inv_of_check (by decide +kernel), records_wf, by simp [records],
    by simp [records, recordLookups, dictResolve, params, List.lookup], by decide, by decide⟩

theorem witness_SkipCountsTheStream : blk.Inv ∧ (∀ r ∈ records, r.wellFormed .generic 8 = true) ∧
    (5 : Word).toNat ≤ (streamCodes records).length ∧ (streamCodes records).length < (6 : Word).toNat ∧
    (5 : Word).toNat = (streamCodes records).length ∧ (∀ r, records.getLast? = some r → r.codes ≠ []) := by
  refine ⟨inv_of_check (by decide +kernel), records_wf, by decide, by decide, by decide, ?_⟩
  intro r h
  cases h
  decide

theorem witness_ReadnextFrame : inRun.Inv ∧ (after (.readnext 5 3) inRun).isSome = true ∧
    (after (.readnext 0xFFFFFFFF 3) inRun).isSome = true := ⟨inv_inRun, by decide, by decide⟩

theorem witness_SkipAndDecodeFrame : inGroup.Inv ∧ (after .decode inGroup).isSome = true ∧
    (after (.skip 3) inGroup).isSome = true := ⟨inv_inGroup, by decide, by decide⟩

theorem witness_StreamOperationsFrame :
    [Instr.varintCont 1, .varintLast 1, .unpack8 1 [0x4D], .hdrRun 2, .hdrPacked 1, .hdrPacked 5, .hdrBrun 1 1,
      .runval 1 0xFF].map (fun i => (after i (stream .generic 8 [0x2A])).isSome) = List.replicate 8 true := by
  decide

theorem witness_RetainedAnswersTheExactSum : inGroup.Inv ∧ inRun.Inv ∧ inRun.mode = .run :=
  ⟨inv_inGroup, inv_inRun, rfl⟩

theorem witness_FaultIsSticky : faulted.fault ≠ .none ∧ 5 ≤ (CmdPort.bare 7).op.toNat ∧
    (32 : BitVec 6).toNat ≤ 32 ∧ (offered faulted (.reset none)).pending = [.reset none] ∧
    step (offered faulted (.reset none)) = .next blk ∧ blk.fault ≠ faulted.fault :=
  ⟨nofun, by decide, by decide, rfl, rfl, nofun⟩

/-- The hypothesis is met only where the fault is stored already, which no run reaches (R143). -/
theorem witness_NoStepRaisesDecodeModeFault :
    step { blk with fault := .decodeMode } = .next { blk with fault := .decodeMode } := rfl

theorem witness_ResetRestoresTheResetState : (offered inRun (.reset none)).pending = [.reset none] ∧
    (offered inRun (.reset (some ({ CmdPort.bare 2 with length := 3 }, 2)))).pending =
      [.reset (some ({ CmdPort.bare 2 with length := 3 }, 2))] ∧
    (CmdPort.bare 3).op ≠ 2 ∧ { CmdPort.bare 2 with length := 3 }.op = 2 ∧
    (after (.readnext 0 3) inRun).isSome = true ∧
    (after (.readnext 0xFFFFFFFF 3) inRun).map (·.out) = some inRun.out :=
  ⟨rfl, rfl, by decide, rfl, by decide, by decide⟩

theorem witness_ResetSatisfiesTheInvariant : params.Wf ∧ Params.initial.Wf := by decide

theorem witness_StepKeepsTheInvariant : (offered inGroup (.command (CmdPort.bare 1))).Inv ∧
    ∃ t, step (offered inGroup (.command (CmdPort.bare 1))) = .next t :=
  ⟨inv_of_check (by decide +kernel), _, rfl⟩

theorem witness_EveryCommandIsAnswered : (offered inGroup (.command (CmdPort.bare 7))).Inv :=
  inv_of_check (by decide +kernel)

theorem witness_LoopBoundAlwaysSuffices : (stream .generic 8 [0x00, 0x09]).avail + 2 ≤ 4 := by decide

theorem witness_SequencerDoesWhatDecodeDoes : (stream .generic 3 [0x03, 0xB5, 0xCA]).Inv :=
  inv_of_check (by decide +kernel)

theorem witness_InterleavingIsInvisible : ([offered inRun (.command (CmdPort.bare 1)), inGroup] : System)[1]? = some inGroup ∧
    ∃ t, systemRun [0, 1, 0] [offered inRun (.command (CmdPort.bare 1)), inGroup] = .next t := ⟨rfl, _, rfl⟩

theorem witness_RunHasEndedWhenDecodeFindsNothing : (fixed 7 0).Inv ∧ (fixed 7 0).runSucceeded ∧
    ¬inRun.runSucceeded := by
  refine ⟨inv_of_check (by decide +kernel), ⟨rfl, rfl, .inl rfl⟩, ?_⟩
  rintro ⟨-, h, -⟩
  exact absurd h (by decide)

theorem witness_OutsideActsBetweenCommands : (offered inRun (.writeOut 7 9)).pending = [.writeOut 7 9] ∧
    9 < 2 ^ params.domainWidth ∧ 7 < params.outSize ∧ params.outSize ≤ 8 ∧
    Params.Wf { params with dict := [(5, 1)], dictRetained := 0 } ∧
    ∃ t, step { inRun with pending := [.attachDictionary [(5, 1)] 0, .reset none] } = .next t ∧
      t.params ≠ inRun.params :=
  ⟨rfl, by decide, by decide, by decide, by decide, _, rfl, by decide⟩

end Sys2Proof.Tests
end

/-! Proofs about the command port's format (spec/30_encoding.md R58, R61): what each opcode decodes to, what the
response wires carry, and how the reserved opcodes and a width out of range are answered. -/

namespace Sys2Proof.Machine

/-! ### The opcodes and the operand fields of their rows (R58) -/

section Opcodes
variable {c : CmdPort}

theorem decodeCommand_init (h : c.op = 0) : decodeCommand c =
    .ok (.init (decodeKind c.kind) (decide (c.fixed = 1)) c.bw c.value c.count c.cursor) := by
  simp [decodeCommand, h]

theorem decodeCommand_decode (h : c.op = 1) : decodeCommand c = .ok .decode := by
  simp [decodeCommand, h]

theorem decodeCommand_readnext (h : c.op = 2) : decodeCommand c = .ok (.readnext c.offset c.length) := by
  simp [decodeCommand, h]

theorem decodeCommand_skip (h : c.op = 3) : decodeCommand c = .ok (.skip c.length) := by
  simp [decodeCommand, h]

theorem decodeCommand_retained (h : c.op = 4) : decodeCommand c = .ok .retained := by
  simp [decodeCommand, h]

end Opcodes

/-! ### The response wires (R58) -/

/-- `more` in bit 32 and `count` below it do not overlap, so the wires read as their sum. -/
theorem Response.data_decoded_toNat (more : Bool) (count : Word) :
    (Response.decoded more count).data.toNat = (if more then 2 ^ 32 else 0) + count.toNat := by
  have hwires : (BitVec.ofBool more ++ count).toNat = (if more then 2 ^ 32 else 0) + count.toNat := by
    rw [BitVec.toNat_append, ← Nat.shiftLeft_add_eq_or_of_lt count.isLt]
    cases more <;> rfl
  have hfits : (BitVec.ofBool more ++ count).toNat < 2 ^ 64 :=
    (BitVec.isLt _).trans (by decide)
  rw [Response.data, BitVec.toNat_setWidth, Nat.mod_eq_of_lt hfits, hwires]

/-- Settles O4: one decoding lemma per opcode, and the wires of each form of response. -/
theorem commandFormat : Obligations.CommandFormat := by
  refine ⟨fun c hop hkind => ?_, fun c hop hkind => ?_, fun _ => decodeCommand_decode,
    fun _ => decodeCommand_readnext, fun _ => decodeCommand_skip, fun _ => decodeCommand_retained,
    fun _ => decodeCommand_reserved, ⟨rfl, rfl⟩, fun _ => ⟨rfl, rfl⟩,
    fun more count => ⟨rfl, Response.data_decoded_toNat more count⟩, fun _ => rfl, rfl, rfl, rfl, rfl, rfl, rfl⟩
  · rw [decodeCommand_init hop, hkind]
    rfl
  · rw [decodeCommand_init hop, hkind]
    rfl

/-! ### Reserved opcodes and a width out of range (R61) -/

/-- A command first in line is taken from the queue and answered at the port. -/
theorem step_command {s : State} {c : CmdPort} {rest : List HostInput} (h : s.pending = .command c :: rest) :
    step s = hostCommand c { s with pending := rest } := by
  rw [step, h]

/-- INIT drops the old instance before it looks at the width, so a bad width leaves no instance (R111). -/
theorem exec_init_bad_width {kind : Kind} {fixed : Bool} {bw : BitVec 6} {value count : Word}
    {stream : List Byte} {s : State} (h : 32 < bw.toNat) :
    exec (.init kind fixed bw value count stream) s = .next (s.dropInstance.raiseFault .argument) := by
  rw [exec, execInit, if_pos h]

/-- Settles O5: a step on a reserved opcode is the reserved command's answer on the rest of the queue, with or
without a stored fault; INIT of a bad width raises over the dropped instance. -/
theorem reservedCommandIsArgumentError : Obligations.ReservedCommandIsArgumentError := by
  refine ⟨fun s c rest hidle hpending hop => ?_, fun s kind fixed bw value count stream hbw => ?_⟩
  · rw [step_command hpending, hostCommand_reserved hop]
    have hidle' : State.UnitsIdle { s with pending := rest } := hidle.of_eq rfl rfl rfl rfl rfl
    exact ⟨fun hf => execReserved_runs hidle' hf, fun hf => execReserved_sticky hf⟩
  · exact ⟨_, exec_init_bad_width hbw, rfl, rfl⟩

end Sys2Proof.Machine

/-! Proofs about a stream that ends inside a header (spec/40_varint.md R74): what the empty cursor leaves to the
reader, and how DECODE takes the fault. -/

namespace Sys2Proof.Machine

/-! ### The end of the stream -/

/-- With an empty cursor there is no byte to come, also where `pos` lies beyond the end of the stream. -/
theorem State.drop_eq_nil_of_avail {s : State} (h : s.avail = 0) : s.input.drop s.pos = [] :=
  List.drop_eq_nil_of_le (Nat.sub_eq_zero_iff_le.1 h)

/-- With a byte left, consuming all that is left puts `pos` at the end of the stream. -/
theorem State.pos_add_avail {s : State} (h : s.avail ≠ 0) : s.pos + s.avail = s.input.length := by
  rw [State.avail] at h ⊢
  omega

/-- `ReadVarint()` entered with an empty cursor: a header of no bytes cut short (D29). -/
theorem readVarint_empty {s : State} (h : s.avail = 0) :
    readVarint s = .raised .truncatedStream { s with acc := 0, shift := 0 } := by
  have hcut := readVarint_cut (s := s) (by simp [State.drop_eq_nil_of_avail h])
  simpa only [h, Nat.add_zero] using hcut

/-! ### DECODE takes the fault -/

/-- A fault raised inside `Decode()` is taken by DECODE (R150). -/
theorem exec_decode_raised {s t : State} {f : FaultCode} (hf : s.fault = .none)
    (h : decodeRecord s = .raised f t) : exec .decode s = .next (t.raiseFault f) := by
  simp only [exec, execDecode, whenNoFault, if_pos hf, h]

/-- Settles O13: `Decode()` raises where the header is cut short, and taking the fault finds the units already
idle; the empty cursor is the cut header of no bytes. -/
theorem headerCutShortFaults : Obligations.HeaderCutShortFaults := by
  refine ⟨fun s hidle hf hc ha hcs => ?_, fun s => readVarint_empty⟩
  have hcut := decodeRecord_cut hc ha hcs
  have hidle' : State.UnitsIdle { s with pos := s.pos + s.avail, acc := 0, shift := 0 } :=
    hidle.of_eq hidle.acc.symm hidle.shift.symm rfl rfl rfl
  rw [exec_decode_raised hf hcut, State.raiseFault_idle hidle', State.pos_add_avail ha]
  simp only [hidle.acc, hidle.shift]

end Sys2Proof.Machine

/-! Proofs about DECODE where it reads no record and where it reads a run (spec/42_run_state_machine.md R90, R92,
R94, R98): how DECODE answers what `Decode()` comes to, what a header value is read as, and the run records. -/

namespace Sys2Proof.Machine

/-! ### DECODE answers what `Decode()` comes to -/

/-- What `Decode()` goes on with is DECODE's response (R99). -/
theorem exec_decode_answered {s t : State} {more : Bool} (hf : s.fault = .none)
    (h : decodeRecord s = .ok more t) : exec .decode s = .next (t.respond (.decoded more t.currentCount)) := by
  rw [exec_decode hf, h]

/-- Settles O23: `Decode()` answers false with the state it was given. -/
theorem decodeConstantOnly : Obligations.DecodeConstantOnly :=
  fun _ hf hc => exec_decode_answered hf (decodeRecord_const hc)

/-- Settles O24: `Decode()` answers false with only `currentCount` cleared, and that is the count answered. -/
theorem decodeCleanEndOfStream : Obligations.DecodeCleanEndOfStream :=
  fun _ hf hc ha => exec_decode_answered hf (decodeRecord_end hc ha)

/-- Taking the header leaves of a read header only its bytes consumed. -/
theorem State.takeHeader_withHeader {s : State} (hidle : s.UnitsIdle) (m : Nat) (h : Word) :
    (s.withHeader m h).takeHeader = s.advance m := by
  simp only [State.withHeader, State.takeHeader, State.advance, hidle.acc, hidle.shift, hidle.header]

section CompleteHeader
variable {s t : State} {bytes rest : List Byte} {h : Word}

/-- The header register holds a varint's value whole. -/
theorem exists_word_of_varintValue (bytes : List Byte) : ∃ h : Word, h.toNat = varintValue bytes :=
  ⟨BitVec.ofNat 32 (payloadSum bytes), BitVec.toNat_ofNat ..⟩

/-- `Decode()` of a complete header, `h` being the header's value. -/
theorem decodeRecord_headerWord (hc : s.constOnly = false) (hv : IsVarint bytes)
    (hd : s.input.drop s.pos = bytes ++ rest) (hh : h.toNat = varintValue bytes) :
    decodeRecord s =
      (headerRecord (decodeHeader s.kind h) (s.withHeader bytes.length h)).bind fun _ t => .ok true t := by
  rw [decodeRecord_varint hc hv hd, ← hh, BitVec.ofNat_toNat, BitVec.setWidth_eq]

/-- DECODE of a record whose header's decoder goes on (R93, R99). -/
theorem exec_decode_record (hf : s.fault = .none) (hc : s.constOnly = false) (hv : IsVarint bytes)
    (hd : s.input.drop s.pos = bytes ++ rest) (hh : h.toNat = varintValue bytes)
    (hrec : headerRecord (decodeHeader s.kind h) (s.withHeader bytes.length h) = .ok () t) :
    exec .decode s = .next (t.respond (.decoded true t.currentCount)) :=
  exec_decode_answered hf (by rw [decodeRecord_headerWord hc hv hd hh, hrec, Res.bind_ok])

/-- DECODE of a record whose header's decoder raises with nothing written: only the header is consumed (R150). -/
theorem exec_decode_record_raised {f : FaultCode} (hidle : s.UnitsIdle) (hf : s.fault = .none)
    (hc : s.constOnly = false) (hv : IsVarint bytes) (hd : s.input.drop s.pos = bytes ++ rest)
    (hh : h.toNat = varintValue bytes)
    (hrec : headerRecord (decodeHeader s.kind h) (s.withHeader bytes.length h) =
      .raised f (s.withHeader bytes.length h).takeHeader) :
    exec .decode s = .next { s with pos := s.pos + bytes.length, fault := f, rsp := some (.fault f) } := by
  have hraised : decodeRecord s = .raised f (s.advance bytes.length) := by
    rw [decodeRecord_headerWord hc hv hd hh, hrec, State.takeHeader_withHeader hidle]
    rfl
  have hidle' : (s.advance bytes.length).UnitsIdle := hidle.of_eq rfl rfl rfl rfl rfl
  rw [exec_decode_raised hf hraised, State.raiseFault_idle hidle']
  rfl

end CompleteHeader

/-! ### What a header value is read as (R52, R57) -/

/-- An even header of a Generic instance is a run's. -/
theorem decodeHeader_even {h : Word} (he : h.toNat % 2 = 0) :
    decodeHeader .generic h = .run (h.extractLsb' 1 31) := by
  have hbit : h.getLsbD 0 = false := by simpa [he] using header_getLsbD h
  rw [decodeHeader, hbit]
  rfl

/-- The count of a run is half its header. -/
theorem runCount_header (h : Word) : runCount (h.extractLsb' 1 31) = BitVec.ofNat 32 (h.toNat / 2) := by
  rw [runCount, ← header_count, BitVec.ofNat_toNat]

/-- The value of a SingleBit run is its header's parity. -/
theorem bitValue_header (h : Word) : bitValue (h.extractLsb' 0 1) = BitVec.ofNat 32 (h.toNat % 2) := by
  rw [bitValue, ← header_bit, BitVec.ofNat_toNat]

/-! ### DECODE of a run -/

/-- Settles O25: an even header is a run's, and past the header the cursor holds just `rest`, which has the run's
value or is too short for it. -/
theorem decodeRunRecord : Obligations.DecodeRunRecord := by
  intro s bytes rest hi hf hc hkind hv hd heven
  obtain ⟨h, hh⟩ := exists_word_of_varintValue bytes
  rw [← hh] at heven ⊢
  have hrun : headerRecord (decodeHeader s.kind h) = runRecord (h.extractLsb' 1 31) := by
    rw [hkind, decodeHeader_even heven]
    rfl
  have hrest : (s.withHeader bytes.length h).input.drop (s.withHeader bytes.length h).pos = rest :=
    drop_after hd rfl
  have havail := State.avail_of_drop hrest
  refine ⟨fun hlen => ?_, fun hlen => ?_⟩
  · have hvalue := runRecord_eq (n := h.extractLsb' 1 31) (s := s.withHeader bytes.length h) (hi.width hc)
      (havail.symm ▸ hlen)
    rw [State.window, hrest, runCount_header, ← hrun] at hvalue
    rw [exec_decode_record hf hc hv hd hh hvalue]
    simp only [State.withHeader, State.respond, runValueBytes, hi.units.acc, hi.units.shift, hi.units.header]
  · have hcut := runRecord_cut (n := h.extractLsb' 1 31) (s := s.withHeader bytes.length h)
      (havail.symm ▸ hlen)
    exact exec_decode_record_raised hi.units hf hc hv hd hh (hrun ▸ hcut)

/-- Settles O27: every header of a SingleBit instance is a run's of its low bit and takes no payload; a stream
that is continuation bytes to its end is a header cut short, whatever the kind. -/
theorem decodeSingleBitRecord : Obligations.DecodeSingleBitRecord := by
  intro s bytes rest hi hf hc hkind hd
  refine ⟨fun hv => ?_, fun hne hrest hcs => ?_⟩
  · obtain ⟨h, hh⟩ := exists_word_of_varintValue bytes
    have hrun := brunRecord_eq (h.extractLsb' 1 31) (h.extractLsb' 0 1) (s.withHeader bytes.length h)
    rw [runCount_header, bitValue_header, hh] at hrun
    rw [exec_decode_record hf hc hv hd hh (by rw [hkind]; exact hrun)]
    simp only [State.withHeader, State.respond, hi.units.acc, hi.units.shift, hi.units.header]
  · rw [hrest, List.append_nil] at hd
    have havail := State.avail_of_drop hd
    have ha : s.avail ≠ 0 := by rwa [havail, Ne, List.length_eq_zero_iff]
    rw [headerCutShortFaults.1 s hi.units hf hc ha (by rwa [hd]), ← State.pos_add_avail ha, havail]

end Sys2Proof.Machine

/-! Proofs about INIT and about constant-only instances (spec/43_typed_reader.md R111, R116, R119): what INIT
leaves of the block, what READNEXT does within a run, and what is asked of a constant-only instance after its last
value. -/

namespace Sys2Proof.Machine

/-! ### INIT (R111) -/

/-- Step 1 of INIT: the block as after reset, but for what no instance owns. -/
theorem State.dropInstance_eq (s : State) :
    s.dropInstance = { State.resetWith s.params with out := s.out, pending := s.pending, rsp := s.rsp } := rfl

section NewInstance
variable {kind : Kind} {fixed : Bool} {bw : BitVec 6} {value count : Word} {stream : List Byte} {s : State}

/-- INIT of a width in range builds the instance over the dropped one. -/
theorem exec_init_good_width (h : bw.toNat ≤ 32) :
    exec (.init kind fixed bw value count stream) s =
      .next ((s.dropInstance.buildInstance kind fixed bw value count stream).respond .ok) := by
  rw [exec, execInit, if_neg (Nat.not_lt.2 h)]

/-- The register `bitWidth` holds a width in range as it is. -/
theorem bitWidth_ofNat (h : bw.toNat ≤ 32) : Fin.ofNat 33 bw.toNat = ⟨bw.toNat, Nat.lt_succ_of_le h⟩ :=
  Fin.ext (Nat.mod_eq_of_lt (Nat.lt_succ_of_le h))

/-- A constant-only instance ignores `in`. -/
theorem State.buildInstance_constant (h : bw.toNat ≤ 32) (hconst : fixed = true ∨ bw.toNat = 0) :
    s.buildInstance kind fixed bw value count stream = { s with
      kind := kind, bitWidth := ⟨bw.toNat, Nat.lt_succ_of_le h⟩, constOnly := true,
      currentValue := value, currentCount := count } := by
  rw [State.buildInstance, if_pos (hconst.imp_right fun h0 => BitVec.eq_of_toNat_eq h0), bitWidth_ofNat h]

/-- A stream instance ignores `value` and `count`. -/
theorem State.buildInstance_stream (h : bw.toNat ≤ 32) (hfixed : fixed = false) (h0 : bw.toNat ≠ 0) :
    s.buildInstance kind fixed bw value count stream = { s with
      kind := kind, bitWidth := ⟨bw.toNat, Nat.lt_succ_of_le h⟩, constOnly := false, input := stream } := by
  have hstream : ¬(fixed = true ∨ bw = 0) := by
    rintro (hf | rfl)
    · simp [hfixed] at hf
    · exact h0 rfl
  rw [State.buildInstance, if_neg hstream, bitWidth_ofNat h]

end NewInstance

/-- Settles O29: a width in range builds a constant-only or a stream instance over the dropped one, a width out of
range raises over it. -/
theorem initBuildsTheInstance : Obligations.InitBuildsTheInstance := by
  refine fun s kind fixed bw value count stream => ⟨fun h hconst => ?_, fun h hfixed h0 => ?_, fun h => ?_⟩
  · rw [exec_init_good_width h, State.buildInstance_constant h hconst, State.dropInstance_eq]
    rfl
  · rw [exec_init_good_width h, State.buildInstance_stream h hfixed h0, State.dropInstance_eq]
    rfl
  · rw [exec_init_bad_width h, State.dropInstance_eq]
    rfl

/-! ### READNEXT within a run (R116) -/

/-- What a request leaves that the current run serves, `v` being the domain value of the run's code. -/
def State.serveFromRun (v : Nat) (offset length : Word) (s : State) : State :=
  { s with
    out := OutMem.writeWords (List.replicate length.toNat v) offset.toNat s.out
    currentCount := s.currentCount - length
    rsp := some .ok }

theorem exec_readnext_run {s : State} {offset length : Word} {v : Nat} (hf : s.fault = .none)
    (hm : s.mode = .run) (hv : dictResolve s.params.dict s.currentValue = some v) (ho : 0 ≤ offset.toInt)
    (hl : 0 ≤ length.toInt) (hb : offset.toInt + length.toInt ≤ s.params.outSize)
    (hn : length.toNat ≤ s.currentCount.toNat) :
    exec (.readnext offset length) s = .next (s.serveFromRun v offset length) := by
  rw [exec_readnext hf ho hl hb]
  by_cases h0 : length.toNat = 0
  · have hzero : length = 0 := BitVec.eq_of_toNat_eq h0
    rw [h0, drain_zero, State.serveFromRun, hzero, sub_zero]
    rfl
  · rw [drain_within lawful_copyOut hn h0 (copyOut_run hm hv), State.consume_word]
    rfl

/-- Copies of one value at any places, in the order of the requests. -/
def OutMem.writeChunks (v : Nat) : List (Word × Word) → OutMem → OutMem
  | [], m => m
  | c :: cs, m => OutMem.writeChunks v cs (OutMem.writeWords (List.replicate c.2.toNat v) c.1.toNat m)

/-- Where places overlap, a later request writes the value that is there already. -/
theorem OutMem.read_writeChunks_kept {v j : Nat} (cs : List (Word × Word)) {m : OutMem}
    (h : m.read j = some v) : (OutMem.writeChunks v cs m).read j = some v := by
  induction cs generalizing m with
  | nil => exact h
  | cons c cs ih =>
    refine ih ?_
    rw [OutMem.read_writeWords, List.length_replicate]
    split
    · rw [List.getElem?_replicate, if_pos (by omega)]
    · exact h

theorem OutMem.read_writeChunks {v i : Nat} {c : Word × Word} {cs : List (Word × Word)} (hc : c ∈ cs)
    (hi : i < c.2.toNat) (m : OutMem) : (OutMem.writeChunks v cs m).read (c.1.toNat + i) = some v := by
  induction cs generalizing m with
  | nil => cases hc
  | cons d cs ih =>
    rcases List.mem_cons.1 hc with rfl | hc
    · refine OutMem.read_writeChunks_kept cs ?_
      rw [OutMem.read_writeWords, List.length_replicate, if_pos (by omega), Nat.add_sub_cancel_left,
        List.getElem?_replicate, if_pos hi]
    · exact ih hc _

/-- One instruction that goes on, then the others. -/
theorem execAll_cons {i : Instr} {s t : State} (is : List Instr) (h : exec i s = .next t) :
    execAll (i :: is) s = execAll is t := by
  rw [execAll, h]

/-- Requests that the current run can serve all together. -/
theorem execAll_readnext_run {v : Nat} (cs : List (Word × Word)) (s : State) (hf : s.fault = .none)
    (hm : s.mode = .run) (hv : dictResolve s.params.dict s.currentValue = some v)
    (hargs : ∀ c ∈ cs, 0 ≤ c.1.toInt ∧ 0 ≤ c.2.toInt ∧ c.1.toInt + c.2.toInt ≤ s.params.outSize)
    (hsum : (cs.map fun c => c.2.toNat).sum ≤ s.currentCount.toNat) :
    ∃ rsp, execAll (cs.map fun c => .readnext c.1 c.2) s = .next { s with
      out := OutMem.writeChunks v cs s.out,
      currentCount := s.currentCount - BitVec.ofNat 32 (cs.map fun c => c.2.toNat).sum, rsp := rsp } := by
  induction cs generalizing s with
  | nil => exact ⟨s.rsp, by simp [execAll, OutMem.writeChunks]⟩
  | cons c cs ih =>
    obtain ⟨ho, hl, hb⟩ := hargs c List.mem_cons_self
    rw [List.map_cons, List.sum_cons] at hsum
    have hfirst := exec_readnext_run hf hm hv ho hl hb (by omega)
    have hcount : (s.serveFromRun v c.1 c.2).currentCount.toNat = s.currentCount.toNat - c.2.toNat :=
      BitVec.toNat_sub_of_le (BitVec.le_def.2 (by omega))
    obtain ⟨rsp, hrest⟩ := ih (s.serveFromRun v c.1 c.2) hf hm hv (fun d hd => hargs d (List.mem_cons_of_mem c hd))
      (by rw [hcount]; omega)
    refine ⟨rsp, ?_⟩
    rw [List.map_cons, execAll_cons _ hfirst, hrest, List.map_cons, List.sum_cons, BitVec.ofNat_add,
      BitVec.ofNat_toNat, BitVec.setWidth_eq, ← sub_sub]
    rfl

/-! ### After the last value of a constant-only instance (R90, R119) -/

theorem toNat_ne_zero_of_toInt_pos {x : Word} (h : 0 < x.toInt) : x.toNat ≠ 0 := by
  have := (toInt_of_nonneg h.le).1
  omega

section Underrun
variable {s : State} {offset length : Word}

/-- With no value left and no record to decode, the loop serves nothing. -/
theorem drain_constant_exhausted {copy : Nat → Nat → State → Res Unit} (hcopy : LawfulCopy copy) {n : Nat}
    (idx : Nat) (hc : s.constOnly = true) (hz : s.currentCount = 0) (hn : n ≠ 0) :
    drain copy n idx s = .ok n s := by
  rw [drain_eq hcopy idx s hn, refill_empty hz, decodeRecord_const hc]
  rfl

/-- Values still wanted at the end of the loop are an underrun (R112, R141). -/
theorem answerLoop_underrun {n : Nat} (hidle : s.UnitsIdle) (hn : n ≠ 0) :
    answerLoop (.ok n s) = .next { s with fault := .streamUnderrun, rsp := some (.fault .streamUnderrun) } := by
  rw [answerLoop, if_neg hn, State.raiseFault_idle hidle]

theorem exec_skip_constant_exhausted (hidle : s.UnitsIdle) (hf : s.fault = .none) (hc : s.constOnly = true)
    (hz : s.currentCount = 0) (hl : 0 < length.toInt) :
    exec (.skip length) s =
      .next { s with fault := .streamUnderrun, rsp := some (.fault .streamUnderrun) } := by
  have hn := toNat_ne_zero_of_toInt_pos hl
  rw [exec_skip hf hl.le, drain_constant_exhausted lawful_copyNothing 0 hc hz hn, answerLoop_underrun hidle hn]

theorem exec_readnext_constant_exhausted (hidle : s.UnitsIdle) (hf : s.fault = .none)
    (hc : s.constOnly = true) (hz : s.currentCount = 0) (hl : 0 < length.toInt) (ho : 0 ≤ offset.toInt)
    (hb : offset.toInt + length.toInt ≤ s.params.outSize) :
    exec (.readnext offset length) s =
      .next { s with fault := .streamUnderrun, rsp := some (.fault .streamUnderrun) } := by
  have hn := toNat_ne_zero_of_toInt_pos hl
  rw [exec_readnext hf ho hl.le hb, drain_constant_exhausted lawful_copyOut offset.toNat hc hz hn,
    answerLoop_underrun hidle hn]

end Underrun

/-- Settles O40: the value of a constant-only instance is one run, which serves the requests one after another
(induction on their list); they use it up, and then there is no record to decode. -/
theorem constantInstanceServesAnyChunks : Obligations.ConstantInstanceServesAnyChunks := by
  intro chunks s v hi hf hc hv hargs hsum
  obtain ⟨-, -, hm⟩ := hi.constOnly hc
  obtain ⟨rsp, hrun⟩ := execAll_readnext_run chunks s hf hm hv hargs hsum.le
  have hempty : s.currentCount - BitVec.ofNat 32 (chunks.map fun c => c.2.toNat).sum = 0 := by
    rw [hsum, BitVec.ofNat_toNat, BitVec.setWidth_eq, BitVec.sub_self]
    rfl
  rw [hempty] at hrun
  have hidle : State.UnitsIdle { s with
      out := OutMem.writeChunks v chunks s.out, currentCount := 0, rsp := rsp } :=
    hi.units.of_eq rfl rfl rfl rfl rfl
  exact ⟨_, hrun, hf, rfl, rfl, rfl, fun c hmem i hlt => OutMem.read_writeChunks hmem hlt s.out,
    fun offset length hl => ⟨exec_skip_constant_exhausted hidle hf hc rfl hl,
      exec_readnext_constant_exhausted hidle hf hc rfl hl⟩⟩

end Sys2Proof.Machine

/-! Proofs about the register `fault` (spec/60_exceptions.md R143, R144, R151): what raises ArgumentError, and what
each command and each interaction of the outside leaves in the register. -/

namespace Sys2Proof.Machine

/-! ### The causes of ArgumentError (R144) -/

/-- Settles O30: INIT of a bad width raises over the dropped instance, and each of the other four causes over the
state as it is, whose units are idle. -/
theorem argumentErrorCauses : Obligations.ArgumentErrorCauses := by
  refine fun s hidle => ⟨fun kind fixed bw value count stream hbw => ?_, fun hf =>
    ⟨fun length hneg => ?_, fun offset length hbad => ?_, fun c hop => ?_⟩⟩
  · rw [exec_init_bad_width hbw, State.dropInstance_eq]
    rfl
  · rw [exec_skip_bad hf (Int.not_le.2 hneg), State.raiseFault_idle hidle]
  · rw [exec_readnext_bad hf (by omega), State.raiseFault_idle hidle]
  · rw [hostCommand_reserved hop, execReserved_runs hidle hf]

/-! ### What a command leaves in the register `fault` -/

section CommandFault
variable {s t : State}

@[simp] theorem State.buildInstance_fault (kind : Kind) (fixed : Bool) (bw : BitVec 6) (value count : Word)
    (stream : List Byte) (s : State) :
    (s.buildInstance kind fixed bw value count stream).fault = s.fault := by
  rw [State.buildInstance]
  split <;> rfl

/-- INIT of a width in range clears the fault (R151). -/
theorem exec_init_clears_fault {kind : Kind} {fixed : Bool} {bw : BitVec 6} {value count : Word}
    {stream : List Byte} (hbw : bw.toNat ≤ 32) :
    ∃ t, exec (.init kind fixed bw value count stream) s = .next t ∧ t.fault = .none :=
  ⟨_, exec_init_good_width hbw, by simp⟩

theorem exec_init_fault {kind : Kind} {fixed : Bool} {bw : BitVec 6} {value count : Word} {stream : List Byte}
    (h : exec (.init kind fixed bw value count stream) s = .next t) : t.fault = .none ∨ t.fault = .argument := by
  by_cases hbw : bw.toNat ≤ 32
  · obtain ⟨u, hu, hclear⟩ := exec_init_clears_fault (s := s) hbw
    cases hu.symm.trans h
    exact .inl hclear
  · rw [exec_init_bad_width (Nat.lt_of_not_le hbw)] at h
    cases h
    exact .inr rfl

/-- `Decode()` raises TruncatedStreamError and CapacityFault only (R101). -/
theorem exec_decode_fault_ne_decodeMode (hf : s.fault = .none) (h : exec .decode s = .next t) :
    t.fault ≠ .decodeMode := by
  rw [exec_decode hf] at h
  rcases hd : decodeRecord s with ⟨more, u⟩ | ⟨f, u⟩ | r
  · rw [hd] at h
    cases h
    rw [State.respond_fault, (decodeRecord_ok hd).1.fault, hf]
    nofun
  · rw [hd] at h
    cases h
    rcases (decodeRecord_raised hd).1 with rfl | rfl <;> nofun
  · rw [hd] at h
    cases h

/-- The loop of READNEXT and SKIP raises its underrun and what its records and lookups raise. -/
theorem answerLoop_fault_ne_decodeMode {copy : Nat → Nat → State → Res Unit} (hcopy : LawfulCopy copy) {n i : Nat}
    (hf : s.fault = .none) (h : answerLoop (drain copy n i s) = .next t) : t.fault ≠ .decodeMode := by
  rcases answerLoop_fault hcopy h with hfault | hfault | hfault | hfault | hfault
  · rw [hfault, hf]
    nofun
  all_goals
    rw [hfault]
    nofun

theorem exec_skip_fault_ne_decodeMode {length : Word} (hf : s.fault = .none) (h : exec (.skip length) s = .next t) :
    t.fault ≠ .decodeMode := by
  by_cases harg : 0 ≤ length.toInt
  · rw [exec_skip hf harg] at h
    exact answerLoop_fault_ne_decodeMode lawful_copyNothing hf h
  · rw [exec_skip_bad hf harg] at h
    cases h
    nofun

theorem exec_readnext_fault_ne_decodeMode {offset length : Word} (hf : s.fault = .none)
    (h : exec (.readnext offset length) s = .next t) : t.fault ≠ .decodeMode := by
  by_cases hargs : 0 ≤ length.toInt ∧ 0 ≤ offset.toInt ∧ offset.toInt + length.toInt ≤ s.params.outSize
  · obtain ⟨hlength, hoffset, hbound⟩ := hargs
    rw [exec_readnext hf hoffset hlength hbound] at h
    exact answerLoop_fault_ne_decodeMode lawful_copyOut hf h
  · rw [exec_readnext_bad hf hargs] at h
    cases h
    nofun

/-- DECODE, SKIP and READNEXT keep a stored code, and raise no DecodeModeFault without one. -/
theorem exec_sticky_fault {i : Instr}
    (hi : i = .decode ∨ (∃ length, i = .skip length) ∨ ∃ offset length, i = .readnext offset length)
    (h : exec i s = .next t) : t.fault = s.fault ∨ (s.fault = .none ∧ t.fault ≠ .decodeMode) := by
  by_cases hf : s.fault = .none
  · refine .inr ⟨hf, ?_⟩
    rcases hi with rfl | ⟨length, rfl⟩ | ⟨offset, length, rfl⟩
    · exact exec_decode_fault_ne_decodeMode hf h
    · exact exec_skip_fault_ne_decodeMode hf h
    · exact exec_readnext_fault_ne_decodeMode hf h
  · rw [exec_sticky hf hi] at h
    cases h
    exact .inl rfl

theorem exec_retained_fault (h : exec .retained s = .next t) : t.fault = s.fault := by
  cases h
  rfl

theorem execReserved_fault (h : execReserved s = .next t) :
    t.fault = s.fault ∨ (s.fault = .none ∧ t.fault ≠ .decodeMode) := by
  by_cases hf : s.fault = .none
  · rw [execReserved, whenNoFault, if_pos hf] at h
    cases h
    exact .inr ⟨hf, nofun⟩
  · rw [execReserved_sticky hf] at h
    cases h
    exact .inl rfl

/-- A command keeps a stored code unless it has the opcode of INIT, and none raises DecodeModeFault. -/
theorem hostCommand_fault {c : CmdPort} (h : hostCommand c s = .next t) :
    t.fault = s.fault ∨ (s.fault = .none ∧ t.fault ≠ .decodeMode) ∨ (c.op = 0 ∧ t.fault ≠ .decodeMode) := by
  suffices hkept : c.op ≠ 0 → t.fault = s.fault ∨ (s.fault = .none ∧ t.fault ≠ .decodeMode) by
    by_cases hop : c.op = 0
    · rw [hostCommand, decodeCommand_init hop] at h
      refine .inr (.inr ⟨hop, ?_⟩)
      rcases exec_init_fault h with hfault | hfault <;>
      · rw [hfault]
        nofun
    · exact (hkept hop).imp_right .inl
  intro hop
  rcases decodeCommand_cases c with ⟨h0, -⟩ | ⟨-, hd | ⟨-, hd⟩ | hd | hd | hres⟩
  · exact absurd h0 hop
  · rw [hostCommand, hd] at h
    exact exec_sticky_fault (.inl rfl) h
  · rw [hostCommand, hd] at h
    exact exec_sticky_fault (.inr (.inr ⟨_, _, rfl⟩)) h
  · rw [hostCommand, hd] at h
    exact exec_sticky_fault (.inr (.inl ⟨_, rfl⟩)) h
  · rw [hostCommand, hd] at h
    exact .inl (exec_retained_fault h)
  · rw [hostCommand_reserved hres] at h
    exact execReserved_fault h

end CommandFault

/-! ### What a step leaves in the register `fault` -/

section StepFault
variable {s t : State} {rest : List HostInput}

@[simp] theorem hostReset_fault (inFlight : Option (CmdPort × Nat)) (s : State) :
    (hostReset inFlight s).fault = .none := by
  cases inFlight <;> rfl

theorem step_reset {inFlight : Option (CmdPort × Nat)} (h : s.pending = .reset inFlight :: rest) :
    step s = .next (hostReset inFlight { s with pending := rest }) := by
  rw [step, h]

theorem step_writeOut {index value : Nat} (h : s.pending = .writeOut index value :: rest) :
    step s = hostWriteOut index value { s with pending := rest } := by
  rw [step, h]

theorem step_attachDictionary {dict : Dict} {retained : BitVec 64}
    (h : s.pending = .attachDictionary dict retained :: rest) :
    step s = hostAttachDictionary dict retained { s with pending := rest } := by
  rw [step, h]

theorem hostWriteOut_fault {index value : Nat} (h : hostWriteOut index value s = .next t) :
    t.fault = s.fault := by
  rw [hostWriteOut] at h
  split at h <;> cases h
  rfl

theorem hostAttachDictionary_fault {dict : Dict} {retained : BitVec 64}
    (h : hostAttachDictionary dict retained s = .next t) : t.fault = s.fault := by
  rw [hostAttachDictionary] at h
  split at h <;> cases h
  rfl

/-- All a step can do to the register `fault`: keep it, take a code where none is stored, or start anew by a reset
or a command with the opcode of INIT; the code DecodeModeFault is only ever kept. -/
theorem step_fault_cases (h : step s = .next t) :
    t.fault = s.fault ∨ (s.fault = .none ∧ t.fault ≠ .decodeMode) ∨
      (t.fault ≠ .decodeMode ∧ ∃ rest, (∃ inFlight, s.pending = .reset inFlight :: rest) ∨
        ∃ c, c.op = 0 ∧ s.pending = .command c :: rest) := by
  rcases hp : s.pending with _ | ⟨input, rest⟩
  · rw [step, hp] at h
    cases h
    exact .inl rfl
  · cases input with
    | command c =>
      rw [step_command hp] at h
      exact (hostCommand_fault h).imp_right (.imp_right fun ⟨hop, hne⟩ => ⟨hne, rest, .inr ⟨c, hop, rfl⟩⟩)
    | reset inFlight =>
      cases (step_reset hp).symm.trans h
      exact .inr (.inr ⟨by simp, rest, .inl ⟨inFlight, rfl⟩⟩)
    | writeOut index value =>
      rw [step_writeOut hp] at h
      have hkept := hostWriteOut_fault h
      exact .inl hkept
    | attachDictionary dict retained =>
      rw [step_attachDictionary hp] at h
      have hkept := hostAttachDictionary_fault h
      exact .inl hkept

end StepFault

/-- Settles O47: the sticky answer of each command and what clears the code, and of the three things a step can do
to the register only the new start changes a stored code. -/
theorem faultIsSticky : Obligations.FaultIsSticky := by
  refine fun s hf => ⟨fun i hi => exec_sticky hf hi, fun c hop => ?_, ⟨_, rfl⟩,
    fun kind fixed bw value count stream hbw => exec_init_clears_fault hbw,
    fun inFlight rest hp => ⟨_, step_reset hp, hostReset_fault inFlight _⟩, fun t hstep hne => ?_⟩
  · rw [hostCommand_reserved hop, execReserved_sticky hf]
  · rcases step_fault_cases hstep with hkept | ⟨hnone, -⟩ | ⟨-, hrestart⟩
    · exact absurd hkept hne
    · exact absurd hnone hf
    · exact hrestart

/-- Settles O48: of the three things a step can do to the register only keeping it leaves DecodeModeFault. -/
theorem noStepRaisesDecodeModeFault : Obligations.NoStepRaisesDecodeModeFault := by
  intro s t hstep hmode
  rcases step_fault_cases hstep with hkept | ⟨-, hne⟩ | ⟨hne, -⟩
  · exact hkept.symm.trans hmode
  · exact absurd hmode hne
  · exact absurd hmode hne

end Sys2Proof.Machine

/-! Proofs about the encodings (spec/30_encoding.md R50 to R58): what is encoded is read back, and what is read
lost nothing but the operand fields a command does not list. -/

namespace Sys2Proof.Machine

/-! ### The formats, one lemma each -/

/-- The byte of format VBYTE: `c` in bit 7, the payload below it (R51). -/
theorem vbyteWord_toNat (c : BitVec 1) (p : BitVec 7) : BitVec.toNat (c ++ p) = 128 * c.toNat + p.toNat := by
  rw [BitVec.toNat_append, ← Nat.shiftLeft_add_eq_or_of_lt p.isLt, Nat.shiftLeft_eq, Nat.mul_comm]

/-- A byte is its control bit and its payload. -/
theorem decodeVByte_append (c : BitVec 1) (p : BitVec 7) :
    decodeVByte (c ++ p) = if c = 1#1 then .cont p else .last p := by
  have hp := p.isLt
  have hword := vbyteWord_toNat c p
  have hpayload : BitVec.extractLsb' (n := 8) 0 7 (c ++ p) = p := by
    apply BitVec.eq_of_toNat_eq
    rw [payload_toNat, hword]
    omega
  have hbit : BitVec.getLsbD (w := 8) (c ++ p) 7 = decide (c = 1#1) := by
    rw [getLsbD_seven, hword, decide_eq_decide, ← BitVec.toNat_inj]
    have hc := c.isLt
    change _ ↔ c.toNat = 1
    omega
  simp only [decodeVByte, hpayload, hbit, decide_eq_true_eq]

theorem decode_encode_varintCont (p : BitVec 7) : decode (encode (.varintCont p)) = .ok (.varintCont p) := by
  rw [encode, decode, decodeVByte_append]
  rfl

theorem decode_encode_varintLast (p : BitVec 7) : decode (encode (.varintLast p)) = .ok (.varintLast p) := by
  rw [encode, decode, decodeVByte_append]
  rfl

theorem decode_encode_hdrRun (n : BitVec 31) : decode (encode (.hdrRun n)) = .ok (.hdrRun n) := by
  rw [encode, decode, header_run]
  rfl

theorem decode_encode_hdrPacked (g : BitVec 31) : decode (encode (.hdrPacked g)) = .ok (.hdrPacked g) := by
  rw [encode, decode, header_packed]
  rfl

theorem decode_encode_hdrBrun (n : BitVec 31) (b : BitVec 1) :
    decode (encode (.hdrBrun n b)) = .ok (.hdrBrun n b) := by
  rw [encode, decode, header_brun]
  rfl

theorem decode_encode_runval {k : Nat} {value : Word} (hk : 1 ≤ k ∧ k ≤ 4) (hv : value.toNat < 2 ^ (8 * k)) :
    decode (encode (.runval k value)) = .ok (.runval k value) := by
  rw [encode, decode, decodeRunVal, leBytes_length, if_pos hk, leNat_leBytes, Nat.mod_eq_of_lt hv,
    BitVec.ofNat_toNat, BitVec.setWidth_eq]

theorem decode_encode_unpack8 {w : Nat} {group : List Byte} (hw : 1 ≤ w ∧ w ≤ 32) (hl : group.length = w) :
    decode (encode (.unpack8 w group)) = .ok (.unpack8 w group) := by
  subst hl
  rw [encode, decode, decodeGroup, if_pos hw]

@[simp] theorem decodeKind_encodeKind (kind : Kind) : decodeKind (encodeKind kind) = kind := by
  cases kind <;> rfl

theorem decode_encode_init (kind : Kind) (fixed : Bool) (bw : BitVec 6) (value count : Word)
    (stream : List Byte) : decode (encode (.init kind fixed bw value count stream)) =
      .ok (.init kind fixed bw value count stream) := by
  have hfixed : decide (BitVec.ofBool fixed = 1#1) = fixed := by cases fixed <;> rfl
  rw [encode, decode, decodeCommand_init rfl, decodeKind_encodeKind]
  exact congrArg (fun b => Except.ok (Instr.init kind b bw value count stream)) hfixed

/-- Settles O1: format by format, the command's being a matter of its opcode. -/
theorem decodeReadsBackEncode : Obligations.DecodeReadsBackEncode := by
  intro i hwf
  cases i with
  | varintCont p => exact decode_encode_varintCont p
  | varintLast p => exact decode_encode_varintLast p
  | hdrRun n => exact decode_encode_hdrRun n
  | hdrPacked g => exact decode_encode_hdrPacked g
  | hdrBrun n b => exact decode_encode_hdrBrun n b
  | runval k value =>
    obtain ⟨hk, hv⟩ := of_decide_eq_true hwf
    exact decode_encode_runval hk hv
  | unpack8 w group =>
    obtain ⟨hw, hl⟩ := of_decide_eq_true hwf
    exact decode_encode_unpack8 hw hl
  | init kind fixed bw value count stream => exact decode_encode_init kind fixed bw value count stream
  | decode => rfl
  | readnext offset length => rfl
  | skip length => rfl
  | retained => rfl

/-! ### What is read lost nothing -/

theorem decodeCommand_wellFormed {c : CmdPort} {i : Instr} (h : decodeCommand c = .ok i) :
    i.wellFormed = true := by
  rw [decodeCommand] at h
  split at h <;> cases h <;> rfl

theorem encode_decodeVByte (b : Byte) : encode (decodeVByte b).toInstr = .vbyte b := by
  have hb := b.isLt
  have hseven := getLsbD_seven b
  have hbyte (c : BitVec 1) (hc : c.toNat = b.toNat / 128) : c ++ b.extractLsb' 0 7 = b := by
    apply BitVec.eq_of_toNat_eq
    rw [vbyteWord_toNat, payload_toNat]
    omega
  cases h7 : b.getLsbD 7 with
  | true =>
    have h128 := of_decide_eq_true (hseven.symm.trans h7)
    rw [decodeVByte_cont h7]
    exact congrArg Fetched.vbyte (hbyte 1#1 (by change 1 = _; omega))
  | false =>
    have h128 := of_decide_eq_false (hseven.symm.trans h7)
    rw [decodeVByte_last h7]
    exact congrArg Fetched.vbyte (hbyte 0#1 (by change 0 = _; omega))

/-- A header value is its count and its low bit. -/
theorem header_split {h : Word} {b : BitVec 1} (hb : b.toNat = h.toNat % 2) : h.extractLsb' 1 31 ++ b = h := by
  apply BitVec.eq_of_toNat_eq
  rw [headerWord_toNat, header_count, hb]
  omega

theorem encode_decodeHeader (kind : Kind) (h : Word) :
    encode (decodeHeader kind h).toInstr = .hdr kind h := by
  cases kind with
  | singleBit => exact congrArg (Fetched.hdr .singleBit) (header_split (header_bit h))
  | generic =>
    have hbit := header_getLsbD h
    cases h0 : h.getLsbD 0 with
    | true =>
      have hodd := of_decide_eq_true (hbit.symm.trans h0)
      rw [decodeHeader, h0]
      exact congrArg (Fetched.hdr .generic) (header_split (b := 1#1) hodd.symm)
    | false =>
      have heven := of_decide_eq_false (hbit.symm.trans h0)
      rw [decodeHeader, h0]
      exact congrArg (Fetched.hdr .generic) (header_split (b := 0#1) (by change 0 = _; omega))

/-- The bytes of a RUN value, 1 to 4 of them, fit a word. -/
theorem leNat_word_toNat {bytes : List Byte} (h : bytes.length ≤ 4) :
    (BitVec.ofNat 32 (leNat bytes)).toNat = leNat bytes := by
  have hlt := leNat_lt bytes
  have hfits : 2 ^ (8 * bytes.length) ≤ 2 ^ 32 := Nat.pow_le_pow_right (by decide) (by omega)
  exact Nat.mod_eq_of_lt (by omega)

theorem decodeRunVal_ok {bytes : List Byte} {i : Instr} (h : decodeRunVal bytes = .ok i) :
    i.wellFormed = true ∧ encode i = .runval bytes := by
  rw [decodeRunVal] at h
  split at h
  · rename_i hlen
    cases h
    have hword := leNat_word_toNat hlen.2
    exact ⟨decide_eq_true ⟨hlen, hword.trans_lt (leNat_lt bytes)⟩, by rw [encode, hword, leBytes_leNat]⟩
  · cases h

theorem decodeGroup_ok {bytes : List Byte} {i : Instr} (h : decodeGroup bytes = .ok i) :
    i.wellFormed = true ∧ encode i = .pgroup bytes := by
  rw [decodeGroup] at h
  split at h
  · rename_i hlen
    cases h
    exact ⟨decide_eq_true ⟨hlen, rfl⟩, rfl⟩
  · cases h

theorem decode_wellFormed {f : Fetched} {i : Instr} (h : decode f = .ok i) : i.wellFormed = true := by
  cases f with
  | vbyte b =>
    cases h
    cases decodeVByte b <;> rfl
  | hdr kind w =>
    cases h
    cases decodeHeader kind w <;> rfl
  | runval bytes => exact (decodeRunVal_ok h).1
  | pgroup bytes => exact (decodeGroup_ok h).1
  | cmd c => exact decodeCommand_wellFormed h

/-- The four stream formats have no bit that is ignored. -/
theorem encode_of_decode {f : Fetched} {i : Instr} (h : decode f = .ok i) (hstream : ∀ c, f ≠ .cmd c) :
    encode i = f := by
  cases f with
  | vbyte b =>
    cases h
    exact encode_decodeVByte b
  | hdr kind w =>
    cases h
    exact encode_decodeHeader kind w
  | runval bytes => exact (decodeRunVal_ok h).2
  | pgroup bytes => exact (decodeGroup_ok h).2
  | cmd c => exact absurd rfl (hstream c)

/-- Settles O2: what is read is well-formed, so that O1 reads it back. -/
theorem decodedWordsReEncode : Obligations.DecodedWordsReEncode := fun _ i h =>
  ⟨decode_wellFormed h, decodeReadsBackEncode i (decode_wellFormed h), encode_of_decode h⟩

/-- Settles O3: each word is decoded. -/
theorem writtenOutWordsDecode : Obligations.WrittenOutWordsDecode :=
  ⟨rfl, rfl, rfl, rfl, rfl, rfl, rfl, rfl⟩

end Sys2Proof.Machine

/-! Proofs about the Varint Reader (spec/40_varint.md): what one header byte does, the value of a complete varint of
any length, and the minimal encoding of a value. -/

namespace Sys2Proof.Machine

/-! ### One header byte (R71, R72) -/

/-- The accumulator after a byte, as a number: bits at position 32 and above are lost (R70, R73). -/
theorem accumulated_eq_ofNat (p : BitVec 7) (s : State) :
    accumulated p s = BitVec.ofNat 32 (s.acc.toNat ||| p.toNat <<< s.shift) := by
  apply BitVec.eq_of_toNat_eq
  have hp : p.toNat % 2 ^ 32 = p.toNat := Nat.mod_eq_of_lt (p.isLt.trans (by decide))
  rw [accumulated, BitVec.toNat_or, BitVec.toNat_shiftLeft, BitVec.toNat_setWidth, BitVec.toNat_ofNat,
    Nat.or_mod_two_pow, hp, Nat.mod_eq_of_lt s.acc.isLt]

theorem exec_varintCont (p : BitVec 7) (s : State) : exec (.varintCont p) s = .next (continueVarint p s) := rfl

theorem exec_varintLast (p : BitVec 7) (s : State) : exec (.varintLast p) s = .next (emitVarint p s) := rfl

/-- With an empty cursor the reader raises wherever it stands in a header (R74). -/
theorem readVarintFrom_empty {s : State} (left : Nat) (h : s.avail = 0) :
    readVarintFrom left s = .raised .truncatedStream { s with acc := 0, shift := 0 } :=
  readVarintFrom_cut [] (by simp) left s (State.drop_eq_nil_of_avail h) (Nat.zero_le _)

/-- Settles O10: the byte is decoded, and the loop goes on where the instruction ends. -/
theorem varintContAccumulates : Obligations.VarintContAccumulates := by
  refine ⟨fun p s => ?_, fun p s t left hbyte hexec => ?_⟩
  · rw [exec_varintCont, continueVarint, accumulated_eq_ofNat]
  · cases (exec_varintCont p _).symm.trans hexec
    refine ⟨?_, readVarintFrom_empty left⟩
    simp only [readVarintFrom, hbyte, decodeVByte_append, if_true]

/-- Settles O11: the byte is decoded, and the loop ends where the instruction ends. -/
theorem varintLastEmitsTheValue : Obligations.VarintLastEmitsTheValue := by
  refine ⟨fun p s => ?_, fun p s t left hbyte hexec => ?_, fun p s t hacc hshift hexec => ?_⟩
  · rw [exec_varintLast, emitVarint, accumulated_eq_ofNat]
  · cases (exec_varintLast p _).symm.trans hexec
    have hlast : decodeVByte (0#1 ++ p) = .last p := decodeVByte_append 0#1 p
    simp only [readVarintFrom, hbyte, hlast, accumulated_eq_ofNat, State.advance_acc, State.advance_shift]
  · cases (exec_varintLast p _).symm.trans hexec
    rw [emitVarint_header, accumulated, hacc, hshift, BitVec.shiftLeft_zero]
    exact congrArg some BitVec.zero_or

/-! ### A complete varint (R70, R73) -/

theorem ofNat_varintValue (bytes : List Byte) :
    BitVec.ofNat 32 (varintValue bytes) = BitVec.ofNat 32 (payloadSum bytes) :=
  BitVec.eq_of_toNat_eq (by simp [varintValue])

/-- Settles O12: the loop's induction along the continuation bytes, from a cleared reader. -/
theorem varintReadsThePayloadSum : Obligations.VarintReadsThePayloadSum := by
  rintro s bytes rest ⟨cs, b, rfl, hcs, hb⟩ hd
  rw [List.append_assoc] at hd
  rw [readVarint_complete hd hcs hb, ofNat_varintValue, List.length_append, List.length_singleton]

/-! ### The minimal encoding (R62, R76) -/

theorem varintBytesFrom_length_pos (fuel x : Nat) : 1 ≤ (varintBytesFrom fuel x).length := by
  cases fuel with
  | zero => exact Nat.le_refl 1
  | succ fuel =>
    rw [varintBytesFrom]
    split <;> simp

/-- Seven bits a byte: so many bytes are enough exactly for the values of so many bits. -/
theorem varintBytesFrom_length_le_iff {fuel n x : Nat} (hn : 1 ≤ n) (hfuel : n ≤ fuel + 1)
    (hx : x < 2 ^ (7 * (fuel + 1))) : (varintBytesFrom fuel x).length ≤ n ↔ x < 2 ^ (7 * n) := by
  induction fuel generalizing n x with
  | zero =>
    obtain rfl : n = 1 := by omega
    exact ⟨fun _ => hx, fun _ => Nat.le_refl 1⟩
  | succ fuel ih =>
    obtain ⟨m, rfl⟩ : ∃ m, n = m + 1 := ⟨n - 1, by omega⟩
    have hpow (k : Nat) : x < 2 ^ (7 * (k + 1)) ↔ x / 128 < 2 ^ (7 * k) := by
      rw [Nat.mul_succ, Nat.pow_add]
      exact (Nat.div_lt_iff_lt_mul (by decide)).symm
    rw [varintBytesFrom, hpow]
    split
    · rename_i hsmall
      rw [hsmall]
      exact ⟨fun _ => Nat.two_pow_pos _, fun _ => Nat.le_add_left 1 m⟩
    · rename_i hlarge
      rw [List.length_cons, Nat.add_le_add_iff_right]
      by_cases hm : 1 ≤ m
      · exact ih hm (by omega) ((hpow _).1 hx)
      · have hpos := varintBytesFrom_length_pos fuel (x / 128)
        obtain rfl : m = 0 := by omega
        rw [Nat.mul_zero, Nat.pow_zero]
        omega

/-- Settles O14: the encoding is a complete varint of the value, and its length is that of its seven-bit digits. -/
theorem minimalVarintReadsBack : Obligations.MinimalVarintReadsBack := by
  refine fun x => ⟨fun s rest hd => ?_, fun n hn h5 =>
    varintBytesFrom_length_le_iff hn h5 (x.isLt.trans (by decide))⟩
  have hread := varintReadsThePayloadSum s (varintBytes x) rest (varintBytes_spec x).1 hd
  rw [varintBytes_value, BitVec.ofNat_toNat, BitVec.setWidth_eq] at hread
  exact ⟨_, hread, drop_after hd rfl, rfl⟩

end Sys2Proof.Machine

/-! Proofs about the Bit-Unpacker (spec/41_unpack.md R80 to R85): UNPACK8 run by itself. -/

namespace Sys2Proof.Machine

/-- Settles O15: the fields of the group's number. -/
theorem unpack8ExtractsEightFields : Obligations.Unpack8ExtractsEightFields :=
  fun _ _ s hw1 hw32 hl => exec_unpack8 s ⟨hw1, hw32⟩ hl

/-- Outside its widths UNPACK8 is refused (R82). -/
theorem exec_unpack8_refused {w : Nat} {group : List Byte} (s : State)
    (h : ¬((1 ≤ w ∧ w ≤ 32) ∧ group.length = w)) : exec (.unpack8 w group) s = .refused .unpackWidth := by
  rw [exec, execUnpack8, unpackGroup_refused s h, Res.settle_refused]

/-- Settles O16: the three ways to miss the widths; an INIT of width 0 builds a constant-only instance. -/
theorem unpack8HasNoOtherWidths : Obligations.Unpack8HasNoOtherWidths := by
  refine ⟨fun w group s h => exec_unpack8_refused s (by omega), fun s kind fixed value count stream => ?_⟩
  have hinit := exec_init_good_width (kind := kind) (fixed := fixed) (value := value) (count := count)
    (stream := stream) (s := s) (bw := 0) (by decide)
  rw [State.buildInstance_constant (by decide) (.inr rfl)] at hinit
  exact ⟨_, _, hinit, decodeConstantOnly _ rfl rfl, rfl, rfl⟩

/-- UNPACK8 that goes on has a legal width and has filled slots of the transient buffer only (R80, R82). -/
theorem exec_unpack8_next {w : Nat} {group : List Byte} {s t : State} (h : exec (.unpack8 w group) s = .next t) :
    w ≤ 32 ∧ t = { s with fill := s.fill ++ fieldsOf w 8 group, unpackAcc := 0 } := by
  by_cases hw : (1 ≤ w ∧ w ≤ 32) ∧ group.length = w
  · cases (exec_unpack8 s hw.1 hw.2).symm.trans h
    exact ⟨hw.1.2, rfl⟩
  · cases (exec_unpack8_refused s hw).symm.trans h

/-- Settles O17: the slots appended are fields of a legal width. -/
theorem unpack8ValuesAreInRange : Obligations.Unpack8ValuesAreInRange := by
  intro w group s t hexec
  obtain ⟨hw, rfl⟩ := exec_unpack8_next hexec
  refine ⟨by simp, fun v hv => ?_⟩
  rw [List.drop_left] at hv
  exact Nat.le_sub_one_of_lt (fieldsOf_lt hw v hv)

end Sys2Proof.Machine

/-! Proofs about the record decoders and DECODE of a record (spec/42_run_state_machine.md R91 to R101): the header
operations run by themselves, the payloads they run, and DECODE as the run of what the stream decodes to. -/

namespace Sys2Proof.Machine

/-! ### The header operations run by themselves -/

/-- A header value runs as its record decoder (R93). -/
theorem exec_headerForm (h : HeaderForm) (s : State) : exec h.toInstr s = (headerRecord h s).settle := by
  cases h <;> rfl

theorem runCount_eq_ofNat (n : BitVec 31) : runCount n = BitVec.ofNat 32 n.toNat := (BitVec.ofNat_toNat ..).symm

theorem bitValue_eq_ofNat (b : BitVec 1) : bitValue b = BitVec.ofNat 32 b.toNat := (BitVec.ofNat_toNat ..).symm

theorem exec_hdrRun {n : BitVec 31} {s t : State} (h : runRecord n s = .ok () t) :
    exec (.hdrRun n) s = .next t := by
  rw [exec, execHdrRun, h, Res.settle_ok]

theorem exec_hdrPacked {g : BitVec 31} {s t : State} (h : packedRecord g s = .ok () t) :
    exec (.hdrPacked g) s = .next t := by
  rw [exec, execHdrPacked, h, Res.settle_ok]

/-- Settles O19: with the payload there, and with too few bytes left. -/
theorem hdrRunReadsOneValue : Obligations.HdrRunReadsOneValue := by
  refine fun n s hw => ⟨fun hk => ?_, fun hk => ?_⟩
  · rw [exec_hdrRun (runRecord_eq hw hk), runCount_eq_ofNat]
    rfl
  · rw [exec, execHdrRun, runRecord_cut hk]
    rfl

theorem exec_runval {k : Nat} {value : Word} (s : State) (hk : 1 ≤ k ∧ k ≤ 4) (hv : value.toNat < 2 ^ (8 * k)) :
    exec (.runval k value) s = .next { s with currentValue := value } := by
  rw [exec, execRunval, takeRunValue, if_pos ⟨hk, hv⟩, Res.settle_ok]

/-- Settles O20: the value has a RUN payload's format. -/
theorem runvalWritesCurrentValue : Obligations.RunvalWritesCurrentValue :=
  fun _ _ s h1 h4 hv => exec_runval s ⟨h1, h4⟩ hv

/-- Settles O22: a run of the bit, without a payload. -/
theorem hdrBrunIsARunOfTheBit : Obligations.HdrBrunIsARunOfTheBit := by
  intro n b s
  rw [exec, execHdrBrun, brunRecord_eq, bitValue_eq_ofNat, runCount_eq_ofNat, Res.settle_ok]

/-- Zeros that stand for missing bytes add nothing to a payload's number (R96). -/
theorem leNat_zeroFilled (length : Nat) (bytes : List Byte) :
    leNat (zeroFilled length bytes) = leNat (bytes.take length) := leNat_append_zeros _ _

/-- Settles O21: with room in the buffer the fields are those of the zero-filled payload, and the zeros do not
count; without it the header is taken and nothing else. -/
theorem hdrPackedFillsTheBuffer : Obligations.HdrPackedFillsTheBuffer := by
  refine fun g s hw hacc => ⟨fun hg => ?_, fun hg => ?_⟩
  · rw [exec_hdrPacked (packedRecord_eq hw hg), paddedPayload_eq rfl, fieldsOf, leNat_zeroFilled, hacc, ite_self,
      ← hacc]
    rfl
  · rw [exec, execHdrPacked, packedRecord_capacity hg, Res.settle_raised, State.raiseFault, State.clearUnits]
    simp only [State.takeHeader, hacc]

/-! ### The payloads the header operations run -/

/-- HDR.RUN runs the RUNVAL of its payload (R94). -/
theorem hdrRun_runs_payload (n : BitVec 31) {s : State} (hw : s.bitWidth ≠ 0)
    (hk : runValueBytes s.bitWidth.val ≤ s.avail) :
    ∃ i u, decode (.runval (s.window (runValueBytes s.bitWidth.val))) = .ok i ∧ exec i s = .next u ∧
      exec (.hdrRun n) s = .next { u with
        header := none, pos := s.pos + runValueBytes s.bitWidth.val, currentCount := n.setWidth 32, mode := .run,
        buf := [] } := by
  have hlen : (s.window (runValueBytes s.bitWidth.val)).length = runValueBytes s.bitWidth.val := by
    rw [State.window_length, Nat.min_eq_left hk]
  have hrange : 1 ≤ (s.window (runValueBytes s.bitWidth.val)).length ∧
      (s.window (runValueBytes s.bitWidth.val)).length ≤ 4 := by
    rw [hlen]
    exact runValueBytes_range (Fin.val_ne_iff.2 hw) (Nat.le_of_lt_succ s.bitWidth.isLt)
  refine ⟨_, _, if_pos hrange, exec_runval s hrange ?_, exec_hdrRun (runRecord_eq hw hk)⟩
  exact (leNat_word_toNat hrange.2).trans_lt (leNat_lt _)

/-- HDR.PACKED runs one UNPACK8 for each group of its zero-filled payload (R86, R95). -/
theorem hdrPacked_runs_payload {g : BitVec 31} {s : State} (hw : s.bitWidth ≠ 0)
    (hg : g.toNat ≤ s.params.bufCapGroups) :
    ∃ u, execAll ((List.range g.toNat).map fun j => .unpack8 s.bitWidth.val
        (((zeroFilled (s.bitWidth.val * g.toNat) (s.input.drop s.pos)).drop (j * s.bitWidth.val)).take
          s.bitWidth.val)) { s with fill := [] } = .next u ∧
      exec (.hdrPacked g) s = .next { u with
        header := none, pos := s.pos + min (s.bitWidth.val * g.toNat) s.avail,
        currentCount := BitVec.ofNat 32 (8 * g.toNat), mode := .packed, buf := u.fill, fill := [] } := by
  have hrange := State.bitWidth_range hw
  have hlen := zeroFilled_length (s.bitWidth.val * g.toNat) (s.input.drop s.pos)
  refine ⟨_, execAll_groups hrange _ _ _ _ hlen (unpackGroups_eq hrange _ _ hlen _), ?_⟩
  rw [exec_hdrPacked (packedRecord_eq hw hg), paddedPayload_eq rfl]
  rfl

/-- Settles O9: the payload of each header operation. -/
theorem headersRunTheirPayloads : Obligations.HeadersRunTheirPayloads :=
  ⟨fun n _ hw hk => hdrRun_runs_payload n hw hk, fun _ _ hw hg => hdrPacked_runs_payload hw hg⟩

/-! ### DECODE as the run of what the stream decodes to -/

/-- Settles O8: the header bytes leave the state in which `Decode()` runs the header's record decoder, and DECODE
ends as that one ends. -/
theorem decodeRunsTheStreamOperations : Obligations.DecodeRunsTheStreamOperations := by
  intro s bytes rest hf hc hv hd
  obtain ⟨h, hh⟩ := exists_word_of_varintValue bytes
  have hrecord := decodeRecord_headerWord hc hv hd hh
  refine ⟨s.withHeader bytes.length h, h, _, ?_, rfl, rfl, ?_⟩
  · obtain ⟨cs, b, rfl, hcs, hb⟩ := hv
    have hword : h = BitVec.ofNat 32 (payloadSum (cs ++ [b])) := by
      rw [← ofNat_varintValue, ← hh, BitVec.ofNat_toNat, BitVec.setWidth_eq]
    rw [execAll_header cs b hcs hb
      { s with acc := 0, shift := 0, pos := s.pos + (cs ++ [b]).length } 0 rfl Nat.one_pos, hword]
    simp [State.withHeader]
  · rw [exec_headerForm, exec_decode hf, hrecord]
    have hf' : (s.withHeader bytes.length h).fault = .none := hf
    generalize s.withHeader bytes.length h = u at hf'
    generalize decodeHeader s.kind h = form
    rcases headerRecord_cases form u with ⟨v, hend, hframe, -⟩ | ⟨f, hend, hcode⟩ | ⟨⟨r, hend⟩, -⟩ <;> rw [hend]
    · refine ⟨fun t hexec _ => ?_, fun t hexec hraised => ?_, fun r hexec => ?_⟩
      · cases hexec
        rfl
      · cases hexec
        exact absurd (hframe.fault.trans hf') hraised
      · cases hexec
    · refine ⟨fun t hexec hnone => ?_, fun t hexec _ => ?_, fun r hexec => ?_⟩
      · cases hexec
        rcases hcode with rfl | rfl <;> cases hnone
      · cases hexec
        rfl
      · cases hexec
    · refine ⟨fun t hexec => ?_, fun t hexec => ?_, fun _ hexec => ?_⟩ <;> cases hexec
      rfl

/-! ### DECODE of a packed record (R95, R96, R87) -/

/-- An odd header of a Generic instance is a packed record's. -/
theorem decodeHeader_odd {h : Word} (ho : h.toNat % 2 = 1) :
    decodeHeader .generic h = .packed (h.extractLsb' 1 31) := by
  have hbit : h.getLsbD 0 = true := (header_getLsbD h).trans (decide_eq_true ho)
  rw [decodeHeader, hbit]
  rfl

/-- Settles O26: an odd header is a packed record's, and past the header the cursor holds just `rest`, of which the
payload is taken, zero-filled; or the buffer has no room for it. -/
theorem decodePackedRecord : Obligations.DecodePackedRecord := by
  intro s bytes rest hi hf hc hkind hv hd hodd
  obtain ⟨h, hh⟩ := exists_word_of_varintValue bytes
  rw [← hh] at hodd ⊢
  have hpacked : headerRecord (decodeHeader s.kind h) = packedRecord (h.extractLsb' 1 31) := by
    rw [hkind, decodeHeader_odd hodd]
    rfl
  have hrest : (s.withHeader bytes.length h).input.drop (s.withHeader bytes.length h).pos = rest :=
    drop_after hd rfl
  refine ⟨fun hg => ?_, fun hg => ?_⟩
  · have hfill := packedRecord_eq (g := h.extractLsb' 1 31) (s := s.withHeader bytes.length h) (hi.width hc)
      (header_count h ▸ hg)
    rw [paddedPayload_eq hrest, requiredBytes, State.avail_of_drop hrest, packedCount, header_count, ← hpacked]
      at hfill
    rw [exec_decode_record hf hc hv hd hh hfill]
    simp only [State.withHeader, State.respond, fieldsOf, hi.units.acc, hi.units.shift, hi.units.header,
      hi.units.unpackAcc, hi.units.fill, ite_self]
    rfl
  · have hcap := packedRecord_capacity (g := h.extractLsb' 1 31) (s := s.withHeader bytes.length h)
      (header_count h ▸ hg)
    exact exec_decode_record_raised hi.units hf hc hv hd hh (hpacked ▸ hcap)

/-- Settles O18: `Decode()` of an assembled packed record holds its values. -/
theorem packThenDecodeReproduces : Obligations.PackThenDecodeReproduces := by
  intro s g vs rest hi hf hc hkind hg hl hv hd
  have hwf : (Record.packed g vs).wellFormed s.kind s.bitWidth.val = true := by
    simpa [Record.wellFormed, hkind, hl] using hv
  obtain ⟨t, hdec, -, hrest, -, hcount, -, -, hfault, -, hbuf⟩ :=
    decodeRecord_assemble hi.params (hi.ready hc) (State.bitWidth_range (hi.width hc)).1 hwf
      (by rintro g' vs' ⟨⟩; exact hg) hd
  obtain ⟨hmode, hvalues⟩ := hbuf g vs rfl
  exact ⟨_, exec_decode_answered hf hdec, hfault.trans hf, hmode, hvalues, hcount, hrest⟩

/-! ### Every way DECODE ends (R99, R101, R150) -/

theorem InnerFrame.sameInstance {s t : State} (h : InnerFrame s t) : s.SameInstance t :=
  ⟨h.params, h.kind, h.bitWidth, h.constOnly, h.input, h.pending⟩

/-- The response port and the register `fault` are no part of the instance. -/
theorem State.SameInstance.respond {s t : State} (h : s.SameInstance t) (r : Response) :
    s.SameInstance (t.respond r) := ⟨h.params, h.kind, h.bitWidth, h.constOnly, h.input, h.pending⟩

theorem State.SameInstance.raiseFault {s t : State} (h : s.SameInstance t) (f : FaultCode) :
    s.SameInstance (t.raiseFault f) := ⟨h.params, h.kind, h.bitWidth, h.constOnly, h.input, h.pending⟩

theorem State.UnitsIdle.respond {s : State} (h : s.UnitsIdle) (r : Response) : (s.respond r).UnitsIdle :=
  h.of_eq rfl rfl rfl rfl rfl

theorem State.raiseFault_unitsIdle (f : FaultCode) (s : State) : (s.raiseFault f).UnitsIdle :=
  ⟨rfl, rfl, rfl, rfl, rfl⟩

/-- A byte has been consumed only where there was one. -/
theorem not_exhausted_of_pos_lt {s : State} {p : Nat} (hc : s.constOnly = false) (h : s.pos < p)
    (hp : p ≤ s.pos + s.avail) : ¬ s.exhausted := by
  rintro (hconst | hempty)
  · simp [hc] at hconst
  · omega

/-- Where `Decode()` raises: in a header cut short, or after a header and before anything else is consumed. -/
theorem decodeRecord_raised_cases {s t : State} {f : FaultCode} (h : decodeRecord s = .raised f t) :
    (s.avail ≠ 0 ∧ t = { s with pos := s.pos + s.avail, acc := 0, shift := 0 }) ∨
      ∃ m w, 0 < m ∧ t = (s.withHeader m w).takeHeader := by
  rcases decodeRecord_cases s with ⟨-, e⟩ | ⟨-, -, e⟩ | ⟨hc, e⟩ | ⟨-, m, w, hm, -, e⟩
  · cases e.symm.trans h
  · cases e.symm.trans h
  · cases e.symm.trans h
    refine .inl ⟨fun hempty => ?_, rfl⟩
    cases (decodeRecord_end hc hempty).symm.trans h
  · rcases headerRecord_cases (decodeHeader s.kind w) (s.withHeader m w) with
      ⟨u, hu, -⟩ | ⟨code, hu, -⟩ | ⟨⟨r, hu⟩, -⟩ <;> rw [hu] at e <;> cases e.symm.trans h
    exact .inr ⟨m, w, hm, rfl⟩

/-- A fault inside `Decode()` comes after a byte of the header. -/
theorem decodeRecord_raised_pos_lt {s t : State} {f : FaultCode} (h : decodeRecord s = .raised f t) :
    s.pos < t.pos := by
  rcases decodeRecord_raised_cases h with ⟨ha, rfl⟩ | ⟨m, w, hm, rfl⟩
  · exact Nat.lt_add_of_pos_right (Nat.pos_of_ne_zero ha)
  · exact Nat.lt_add_of_pos_right hm

theorem State.exhausted_iff_of_same {s t : State} (h : s.SameInstance t) (hp : t.pos = s.pos) :
    t.exhausted ↔ s.exhausted := by
  rw [State.exhausted, State.exhausted, State.avail, State.avail, h.constOnly, h.input, hp]

/-- Settles O28: `Decode()` goes on or raises, as it has a meaning in every state of the invariant. -/
theorem decodeAnswersOrLeavesTheRunState : Obligations.DecodeAnswersOrLeavesTheRunState := by
  intro s hi hf
  rcases hdec : decodeRecord s with ⟨more, t⟩ | ⟨f, t⟩ | r
  · obtain ⟨hframe, hpos, hend, hmore, hnone, hidle⟩ := decodeRecord_ok hdec
    refine ⟨_, exec_decode_answered hf hdec, hframe.sameInstance.respond _, hframe.out, (hidle hi.units).respond _,
      hpos, ?_⟩
    cases more with
    | true =>
      obtain ⟨hc, hlt⟩ := hmore rfl
      exact .inl ⟨hframe.fault.trans hf, not_exhausted_of_pos_lt hc hlt hend, hlt, rfl⟩
    | false =>
      obtain ⟨hsame, hex, -⟩ := hnone rfl
      exact .inr (.inl ⟨hframe.fault.trans hf, (State.exhausted_iff_of_same hframe.sameInstance hsame).1 hex,
        hsame, rfl⟩)
  · obtain ⟨hcode, hframe, hrun, hpos, hend, hc⟩ := decodeRecord_raised hdec
    have hlt := decodeRecord_raised_pos_lt hdec
    exact ⟨_, exec_decode_raised hf hdec, hframe.sameInstance.raiseFault f, hframe.out,
      State.raiseFault_unitsIdle f t, hpos,
      .inr (.inr ⟨hcode, ⟨hrun.currentValue, hrun.currentCount, hrun.mode, hrun.buf⟩,
        not_exhausted_of_pos_lt hc hlt hend, hlt, rfl⟩)⟩
  · exact absurd hdec (decodeRecord_not_refused hi.width r)

end Sys2Proof.Machine

/-! Proofs about an instance over an assembled stream (spec/30_encoding.md R55, R62; spec/43_typed_reader.md R112,
R113, R120): READNEXT of all its values, and SKIP of some. -/

namespace Sys2Proof.Machine

/-! ### How READNEXT and SKIP answer what the loop comes to -/

theorem answerLoop_served (s : State) : answerLoop (.ok 0 s) = .next (s.respond .ok) := rfl

theorem answerLoop_wanting {left : Nat} (h : left ≠ 0) (s : State) :
    answerLoop (.ok left s) = .next (s.raiseFault .streamUnderrun) := if_neg h

/-- The three ways READNEXT and SKIP answer what the loop comes to (R112, R141, R150). -/
theorem answerLoop_next {r : Res Nat} {t : State} (h : answerLoop r = .next t) :
    (∃ q, r = .ok 0 q ∧ t = q.respond .ok) ∨
      (∃ left q, left ≠ 0 ∧ r = .ok left q ∧ t = q.raiseFault .streamUnderrun) ∨
      ∃ f q, r = .raised f q ∧ t = q.raiseFault f := by
  rcases r with ⟨left, q⟩ | ⟨f, q⟩ | x
  · by_cases hleft : left = 0
    · subst hleft
      cases h
      exact .inl ⟨q, rfl, rfl⟩
    · cases (answerLoop_wanting hleft q).symm.trans h
      exact .inr (.inl ⟨left, q, hleft, rfl, rfl⟩)
  · cases h
    exact .inr (.inr ⟨f, q, rfl, rfl⟩)
  · cases h

/-- Settles O41: the loop over the stream's records (induction on their list) writes the value of each code. -/
theorem streamReadsBackItsRecords : Obligations.StreamReadsBackItsRecords := by
  intro s kind bw rs offset length f hi hbw1 hbw32 hwf hcap hlookup ho hl hb hcount
  obtain ⟨u, hinit, -, hfu, hparams, hempty, -, -, hready, hout, hstream⟩ :=
    init_stream s kind bw (assembleStream bw.toNat rs) hi hbw1 hbw32
  obtain ⟨t, hloop, houtt, -, -, -, hend⟩ :=
    serve_fresh hi.params hbw1 (copiesBy_out f s.params kind bw.toNat) rs hwf hcap hlookup u length.toNat
      offset.toNat hready hstream hempty
  rw [hcount, Nat.sub_self, ← hcount] at hloop
  refine ⟨u, t.respond .ok, hinit, ?_, rfl, (hend hcount.ge).1, fun i => ?_⟩
  · rw [exec_readnext hfu ho hl (by rwa [hparams]), hloop, answerLoop_served]
  · rw [State.respond_out, houtt, List.take_of_length_le hcount.ge, OutMem.read_writeWords, List.length_map, hout,
      hcount]

/-- Settles O42: the loop serves as many values as the records hold; what is still wanted is an underrun; and at the
end of the last record that holds a value the cursor is empty. -/
theorem skipCountsTheStream : Obligations.SkipCountsTheStream := by
  intro s kind bw rs length hi hbw1 hbw32 hwf hcap hl
  obtain ⟨u, hinit, -, hfu, -, hempty, -, -, hready, -, hstream⟩ :=
    init_stream s kind bw (assembleStream bw.toNat rs) hi hbw1 hbw32
  obtain ⟨t, hloop, -, hreadyt, hft, -, hend⟩ :=
    serve_fresh hi.params hbw1 (copiesBy_nothing s.params kind bw.toNat) rs hwf hcap (fun _ _ _ _ => trivial) u
      length.toNat 0 hready hstream hempty
  have hskip := exec_skip hfu hl
  rw [hloop] at hskip
  by_cases hle : length.toNat ≤ (streamCodes rs).length
  · rw [Nat.sub_eq_zero_of_le hle, answerLoop_served] at hskip
    refine ⟨u, _, hinit, hskip, fun _ => rfl, fun hlt => absurd hle (by omega), fun heq hlast => ?_⟩
    have havail : t.avail = 0 := (hend heq.ge).2 (.inr hlast)
    exact ⟨_, decodeCleanEndOfStream (t.respond .ok) (hft.trans hfu) hreadyt.stream havail, rfl⟩
  · rw [answerLoop_wanting (by omega)] at hskip
    exact ⟨u, _, hinit, hskip, fun h => absurd h hle, fun _ => rfl, fun h => absurd h.le hle⟩

end Sys2Proof.Machine

/-! Proofs about READNEXT and SKIP served by the current run or packed buffer (spec/43_typed_reader.md R112, R113,
R115 to R117, R145): the values taken, and a missing code. -/

namespace Sys2Proof.Machine

section Slots
variable {s : State} {vs : List Nat}

/-- The dictionary's value of a code; 0 stands for a miss. -/
def State.valueOf (s : State) (c : Word) : Nat := (dictResolve s.params.dict c).getD 0

theorem State.valueOf_eq {c : Word} {v : Nat} (h : dictResolve s.params.dict c = some v) : s.valueOf c = v := by
  rw [State.valueOf, h, Option.getD_some]

/-- The next slots, counted from the first that is not consumed. -/
theorem State.nextSlots_getElem? {n k : Nat} (hk : k < n) (s : State) :
    (s.nextSlots n)[k]? = s.buf[s.buf.length - s.currentCount.toNat + k]? := by
  rw [State.nextSlots, List.getElem?_take_of_lt hk, List.getElem?_drop, State.bufLen]

/-- The next slots hold codes with these values in the dictionary. -/
def State.SlotsResolveTo (s : State) (vs : List Nat) : Prop :=
  ∀ k (h : k < vs.length), ∃ c, s.buf[s.buf.length - s.currentCount.toNat + k]? = some c ∧
    dictResolve s.params.dict c = some vs[k]

theorem State.SlotsResolveTo.nextSlots_length (h : s.SlotsResolveTo vs) :
    (s.nextSlots vs.length).length = vs.length := by
  refine Nat.le_antisymm (List.length_take_le _ _) (Nat.le_of_not_lt fun hshort => ?_)
  obtain ⟨c, hc, -⟩ := h _ hshort
  rw [← State.nextSlots_getElem? hshort, List.getElem?_eq_none (Nat.le_refl _)] at hc
  cases hc

theorem State.SlotsResolveTo.map_valueOf (h : s.SlotsResolveTo vs) :
    (s.nextSlots vs.length).map s.valueOf = vs := by
  refine List.ext_getElem? fun k => ?_
  rw [List.getElem?_map]
  by_cases hk : k < vs.length
  · obtain ⟨c, hc, hv⟩ := h k hk
    rw [State.nextSlots_getElem? hk, hc, Option.map_some, State.valueOf_eq hv, List.getElem?_eq_getElem hk]
  · rw [List.getElem?_eq_none (by rw [h.nextSlots_length]; omega), List.getElem?_eq_none (by omega), Option.map_none]

theorem State.SlotsResolveTo.hits (h : s.SlotsResolveTo vs) :
    ∀ c ∈ s.nextSlots vs.length, dictResolve s.params.dict c = some (s.valueOf c) := by
  intro c hmem
  obtain ⟨k, hlt, rfl⟩ := List.mem_iff_getElem.1 hmem
  have hk : k < vs.length := by rwa [h.nextSlots_length] at hlt
  obtain ⟨c, hc, hv⟩ := h k hk
  rw [← State.nextSlots_getElem? hk, List.getElem?_eq_getElem hlt, Option.some_inj] at hc
  rw [hc, hv, State.valueOf_eq hv]

/-- The slots past those that resolve, the first of them given. -/
theorem State.nextSlots_split_at {c : Word} {m n : Nat} (hn : m < n)
    (hc : s.buf[s.buf.length - s.currentCount.toNat + m]? = some c) :
    ∃ rest, s.nextSlots n = s.nextSlots m ++ c :: rest := by
  obtain ⟨k, rfl⟩ : ∃ k, n = m + (k + 1) := ⟨n - m - 1, by omega⟩
  obtain ⟨hlt, rfl⟩ := List.getElem?_eq_some_iff.1 hc
  exact ⟨_, by rw [State.nextSlots, State.nextSlots, List.take_add, List.drop_drop, State.bufLen,
    List.drop_eq_getElem_cons hlt, List.take_succ_cons]⟩

end Slots

/-- Settles O31: one lookup, and a copy of its value to each word. -/
theorem readnextWithinARun : Obligations.ReadnextWithinARun := by
  intro s offset length v hf hm ho hl hb hn hv
  refine ⟨_, exec_readnext_run hf hm hv ho hl hb hn, fun i => ?_⟩
  rw [OutMem.read_writeWords, List.length_replicate]
  split
  · rw [List.getElem?_replicate, if_pos (by omega)]
  · rfl

/-- Settles O32: the copy of slots whose codes are all in the dictionary. -/
theorem readnextWithinAPackedRecord : Obligations.ReadnextWithinAPackedRecord := by
  intro s offset length vs _ hf hm ho hl hb hn hlen hslots
  change s.SlotsResolveTo vs at hslots
  refine ⟨OutMem.writeWords vs offset.toNat s.out, ?_, fun i => by rw [OutMem.read_writeWords, hlen]⟩
  rw [exec_readnext hf ho hl hb]
  by_cases h0 : length.toNat = 0
  · have hzero : length = 0 := BitVec.eq_of_toNat_eq h0
    obtain rfl : vs = [] := List.length_eq_zero_iff.1 (hlen.trans h0)
    rw [h0, drain_zero, hzero, sub_zero]
    rfl
  · have hcopy := copyOut_packed (f := s.valueOf) (i := offset.toNat) hm hslots.hits
    rw [hslots.map_valueOf, hlen] at hcopy
    rw [drain_within lawful_copyOut hn h0 hcopy, State.consume_word, answerLoop_served]
    rfl

/-- Settles O33: in RUN mode the one lookup misses; in PACKED mode the copy stops at the first slot that does. -/
theorem readnextMissingCode : Obligations.ReadnextMissingCode := by
  intro s offset length hi hf ho hl hb hne
  have h0 := toNat_ne_zero_of_toInt_pos hl
  rw [exec_readnext hf ho hl.le hb]
  refine ⟨fun hm hmiss => ?_, fun hm vs c hlen hcount hslots hc hmiss => ?_⟩
  · rw [drain_within_miss h0 hne rfl (copyOut_run_miss hm hmiss), answerLoop_raised hi.units]
  · change s.SlotsResolveTo vs at hslots
    obtain ⟨rest, hsplit⟩ := State.nextSlots_split_at (n := takeNow length.toNat s)
      (by simp only [takeNow]; omega) hc
    have hcopy := copySlots_miss (s.nextSlots vs.length) rest offset.toNat s hslots.hits hmiss
    rw [← hsplit, ← copyOut_of_packed hm, hslots.map_valueOf] at hcopy
    have hidle : State.UnitsIdle { s with out := OutMem.writeWords vs offset.toNat s.out } :=
      hi.units.of_eq rfl rfl rfl rfl rfl
    rw [drain_within_miss h0 hne rfl hcopy, answerLoop_raised hidle]
    exact ⟨_, rfl, OutMem.read_writeWords vs _ _⟩

/-- Settles O36: the loop wants nothing. -/
theorem zeroLengthRequestsDoNothing : Obligations.ZeroLengthRequestsDoNothing := by
  refine fun s hf => ⟨?_, fun offset ho hb => ?_⟩
  · rw [exec_skip hf (by decide)]
    exact congrArg answerLoop (drain_zero copyNothing 0 s)
  · rw [exec_readnext hf ho (by decide) (by simpa using hb)]
    exact congrArg answerLoop (drain_zero copyOut offset.toNat s)

end Sys2Proof.Machine

/-! Proofs about READNEXT and SKIP where they decode (spec/43_typed_reader.md R112 to R114, R141): a record decoded
with no value left, and the underrun. -/

namespace Sys2Proof.Machine

/-! ### The loop with no value left -/

section Empty
variable {copy : Nat → Nat → State → Res Unit} {n idx : Nat} {s t : State}

theorem drain_decode_raised {f : FaultCode} (hcopy : LawfulCopy copy) (hempty : s.currentCount = 0) (hn : n ≠ 0)
    (h : decodeRecord s = .raised f t) : drain copy n idx s = .raised f t := by
  rw [drain_eq hcopy idx s hn, refill_empty hempty, h, Res.bind_raised]

theorem drain_no_record (hcopy : LawfulCopy copy) (hempty : s.currentCount = 0) (hn : n ≠ 0)
    (h : decodeRecord s = .ok false t) : drain copy n idx s = .ok n t := by
  rw [drain_eq hcopy idx s hn, refill_empty hempty, h]
  rfl

/-- The first iteration copies from the record decoded. -/
theorem drain_record (hcopy : LawfulCopy copy) (hempty : s.currentCount = 0) (hn : n ≠ 0)
    (h : decodeRecord s = .ok true t) :
    drain copy n idx s = (copy (takeNow n t) idx t).bind fun _ u =>
      drain copy (n - takeNow n t) (idx + takeNow n t) (u.consume (takeNow n t)) := by
  rw [drain_eq hcopy idx s hn, refill_empty hempty, h]
  rfl

/-- With a record decoded the loop goes on as from there; an empty record takes an iteration of its own, which must
be let through. -/
theorem drain_decoded (hcopy : LawfulCopy copy) (hempty : s.currentCount = 0) (hn : n ≠ 0)
    (h : decodeRecord s = .ok true t) (hskip : t.currentCount = 0 → copy 0 idx t = .ok () t) :
    drain copy n idx s = drain copy n idx t := by
  rw [drain_record hcopy hempty hn h]
  by_cases h0 : t.currentCount = 0
  · have hnone : takeNow n t = 0 := by rw [takeNow, h0]; exact Nat.min_zero n
    have hkeep : t.consume 0 = t := by simp [State.consume]
    rw [hnone, hskip h0, Res.bind_ok, hkeep]
    rfl
  · rw [drain_eq hcopy idx t hn, refill_pending h0]
    rfl

end Empty

/-! ### What DECODE answered, read back -/

section Answer
variable {s u : State}

/-- DECODE's state is that of `Decode()`, answered or with its fault taken (R99). -/
theorem exec_decode_next (hf : s.fault = .none) (h : exec .decode s = .next u) :
    (∃ more t, decodeRecord s = .ok more t ∧ u = t.respond (.decoded more t.currentCount)) ∨
      ∃ f t, decodeRecord s = .raised f t ∧ u = t.raiseFault f ∧ f ≠ .none := by
  rcases hdec : decodeRecord s with ⟨more, t⟩ | ⟨f, t⟩ | r
  · cases (exec_decode_answered hf hdec).symm.trans h
    exact .inl ⟨more, t, rfl, rfl⟩
  · cases (exec_decode_raised hf hdec).symm.trans h
    refine .inr ⟨f, t, rfl, rfl, ?_⟩
    rcases (decodeRecord_raised hdec).1 with rfl | rfl <;> nofun
  · rw [exec_decode hf, hdec] at h
    cases h

end Answer

/-! ### READNEXT with no value left -/

/-- An empty copy, of a packed record or of a run whose value is in the dictionary, writes nothing (R116, R117). -/
theorem copyOut_zero {idx : Nat} {s : State}
    (h : s.mode = .packed ∨ ∃ v, dictResolve s.params.dict s.currentValue = some v) :
    copyOut 0 idx s = .ok () s := by
  cases hm : s.mode with
  | run =>
    obtain ⟨v, hv⟩ := h.resolve_left (by simp [hm])
    exact copyOut_run hm hv
  | packed => exact (copyOut_of_packed hm 0 idx).trans rfl

/-- READNEXT does not see the last response. -/
theorem exec_readnext_respond {s : State} {offset k : Word} (hi : s.Inv) (hf : s.fault = .none)
    (ho : 0 ≤ offset.toInt) (hk : 0 ≤ k.toInt) (hb : offset.toInt + k.toInt ≤ s.params.outSize) (r : Response) :
    exec (.readnext offset k) (s.respond r) = answerLoop (drain copyOut k.toNat offset.toNat s) := by
  rw [exec_readnext (s := s.respond r) hf ho hk hb, State.respond, drain_out_rsp _ _ s hi, answerLoop_rsp]

/-- Settles O34: the loop's first iteration decodes as DECODE does, and the rest of it sees no response. -/
theorem readnextDecodesWhenEmpty : Obligations.ReadnextDecodesWhenEmpty := by
  intro s u offset length hi hf ho hl hb hempty hdecode
  have hn := toNat_ne_zero_of_toInt_pos hl
  rw [exec_readnext hf ho hl.le hb]
  rcases exec_decode_next hf hdecode with ⟨more, t, hdec, rfl⟩ | ⟨f, t, hdec, rfl, -⟩
  · obtain ⟨hframe, -, -, -, -, hidle⟩ := decodeRecord_ok hdec
    have hft : t.fault = .none := hframe.fault.trans hf
    refine ⟨fun hfault => absurd hft hfault, fun hrsp => ?_, fun hrsp => ⟨fun hm hmiss => ?_, fun hgo => ?_⟩⟩ <;>
      cases hrsp
    · rw [drain_no_record lawful_copyOut hempty hn hdec, answerLoop_underrun (hidle hi.units) hn]
      rfl
    · have hmiss' := copyOut_run_miss (n := takeNow length.toNat t) (i := offset.toNat) (s := t) hm hmiss
      rw [drain_record lawful_copyOut hempty hn hdec, hmiss', Res.bind_raised, answerLoop_raised (hidle hi.units)]
      rfl
    · have hskip (h0 : t.currentCount = 0) : copyOut 0 offset.toNat t = .ok () t :=
        copyOut_zero (hgo.imp_right fun h => h.resolve_left (absurd h0))
      have hbt : offset.toInt + length.toInt ≤ t.params.outSize := by rwa [hframe.params]
      rw [exec_readnext_respond (decodeRecord_inv hi hdec) hft ho hl.le hbt,
        drain_decoded lawful_copyOut hempty hn hdec hskip]
  · refine ⟨fun _ => ?_, nofun, nofun⟩
    rw [drain_decode_raised lawful_copyOut hempty hn hdec]
    rfl

/-! ### SKIP (R113) -/

section Skip
variable {s : State} {length : Word}

theorem exec_skip_within (hf : s.fault = .none) (hl : 0 ≤ length.toInt)
    (hle : length.toNat ≤ s.currentCount.toNat) :
    exec (.skip length) s = .next { s with currentCount := s.currentCount - length, rsp := some .ok } := by
  rw [exec_skip hf hl]
  by_cases h0 : length.toNat = 0
  · have hzero : length = 0 := BitVec.eq_of_toNat_eq h0
    rw [h0, drain_zero, hzero, sub_zero]
    rfl
  · rw [drain_within lawful_copyNothing hle h0 rfl, State.consume_word]
    rfl

/-- The operand less a count it covers is an operand too. -/
theorem operand_sub {count : Word} (hl : 0 ≤ length.toInt) (hle : count.toNat ≤ length.toNat) :
    (length - count).toNat = length.toNat - count.toNat ∧ 0 ≤ (length - count).toInt := by
  have hbound := (toInt_of_nonneg hl).2
  have hsub : (length - count).toNat = length.toNat - count.toNat :=
    BitVec.toNat_sub_of_le (BitVec.le_def.2 hle)
  refine ⟨hsub, ?_⟩
  rw [toInt_of_lt (by omega)]
  exact Int.natCast_nonneg _

/-- What is left of the current run or group is skipped in one iteration. -/
theorem exec_skip_beyond (hf : s.fault = .none) (hl : 0 ≤ length.toInt) (hpending : s.currentCount ≠ 0)
    (hlt : s.currentCount.toNat < length.toNat) :
    exec (.skip length) s = exec (.skip (length - s.currentCount)) { s with currentCount := 0 } := by
  have hall : takeNow length.toNat s = s.currentCount.toNat := Nat.min_eq_right hlt.le
  obtain ⟨hrest, hl'⟩ := operand_sub hl hlt.le
  rw [exec_skip hf hl, exec_skip (s := { s with currentCount := 0 }) hf hl',
    drain_eq lawful_copyNothing _ _ (by omega), refill_pending hpending, hrest,
    drain_skip_index _ 0 s.currentCount.toNat]
  simp only [Res.bind_ok, if_true, copyNothing, hall, State.consume_word, BitVec.sub_self, Nat.zero_add]
  rfl

/-- SKIP with no value left decodes a record and goes on from there. -/
theorem exec_skip_decodes (hi : s.Inv) (hf : s.fault = .none) (hl : 0 ≤ length.toInt) (hempty : s.currentCount = 0)
    (hne : length ≠ 0) {u : State} (hdecode : exec .decode s = .next u) :
    (u.fault ≠ .none → exec (.skip length) s = .next u) ∧
      (u.rsp = some (.decoded false u.currentCount) → exec (.skip length) s =
        .next { u with fault := .streamUnderrun, rsp := some (.fault .streamUnderrun) }) ∧
      (u.rsp = some (.decoded true u.currentCount) → exec (.skip length) s = exec (.skip length) u) := by
  have hn : length.toNat ≠ 0 := fun h => hne (BitVec.eq_of_toNat_eq h)
  rw [exec_skip hf hl]
  rcases exec_decode_next hf hdecode with ⟨more, t, hdec, rfl⟩ | ⟨f, t, hdec, rfl, -⟩
  · obtain ⟨hframe, -, -, -, -, hidle⟩ := decodeRecord_ok hdec
    have hft : t.fault = .none := hframe.fault.trans hf
    refine ⟨fun hfault => absurd hft hfault, fun hrsp => ?_, fun hrsp => ?_⟩ <;> cases hrsp
    · rw [drain_no_record lawful_copyNothing hempty hn hdec, answerLoop_underrun (hidle hi.units) hn]
      rfl
    · rw [exec_skip (s := t.respond _) hft hl, State.respond,
        drain_skip_rsp _ _ t (some (.decoded true t.currentCount)), answerLoop_rsp,
        drain_decoded lawful_copyNothing hempty hn hdec fun _ => rfl]
  · refine ⟨fun _ => ?_, nofun, nofun⟩
    rw [drain_decode_raised lawful_copyNothing hempty hn hdec]
    rfl

/-- Where nothing more can be decoded and no value is left, `Decode()` changes nothing (R90, R92). -/
theorem decodeRecord_exhausted (hex : s.exhausted) (hempty : s.currentCount = 0) :
    decodeRecord s = .ok false s := by
  by_cases hc : s.constOnly = true
  · exact decodeRecord_const hc
  · rw [decodeRecord_end (Bool.eq_false_iff.2 hc) (hex.resolve_left hc), ← hempty]

theorem exec_skip_exhausted (hidle : s.UnitsIdle) (hf : s.fault = .none) (hex : s.exhausted)
    (hempty : s.currentCount = 0) (hl : 0 ≤ length.toInt) (hn : length.toNat ≠ 0) :
    exec (.skip length) s = .next { s with fault := .streamUnderrun, rsp := some (.fault .streamUnderrun) } := by
  rw [exec_skip hf hl, drain_no_record lawful_copyNothing hempty hn (decodeRecord_exhausted hex hempty),
    answerLoop_underrun hidle hn]

end Skip

/-- Settles O35: within the values left, beyond them, and with none left. -/
theorem skipAdvancesTheCount : Obligations.SkipAdvancesTheCount := fun _ _ hi hf hl =>
  ⟨exec_skip_within hf hl, exec_skip_beyond hf hl, fun hempty hne _ => exec_skip_decodes hi hf hl hempty hne⟩

/-! ### StreamUnderrunError (R141) -/

/-- The loop of either command ends in an underrun only where it found no record. -/
theorem answerLoop_underrun_exhausted {copy : Nat → Nat → State → Res Unit} (hcopy : LawfulCopy copy) {n idx : Nat}
    {s t : State} (hf : s.fault = .none) (h : answerLoop (drain copy n idx s) = .next t)
    (hfault : t.fault = .streamUnderrun) :
    t.currentCount = 0 ∧ t.exhausted ∧ t.rsp = some (.fault .streamUnderrun) := by
  rcases answerLoop_next h with ⟨q, hq, rfl⟩ | ⟨left, q, hleft, hq, rfl⟩ | ⟨f, q, hq, rfl⟩
  · have hframe := (drain_ok hcopy _ _ _ hq).1
    cases (hframe.fault.trans hf).symm.trans hfault
  · obtain ⟨-, -, hend, -⟩ := drain_ok hcopy _ _ _ hq
    exact ⟨(hend hleft).1, (hend hleft).2, rfl⟩
  · rcases (drain_raised hcopy _ _ _ hq).2 with rfl | rfl | rfl <;> cases hfault

/-- Settles O37: a bad operand raises another fault, and the loop underruns only on an exhausted instance; there SKIP
lowers the count to 0 and then finds no record. -/
theorem underrunMeansExhausted : Obligations.UnderrunMeansExhausted := by
  refine ⟨fun s t i hf hi hexec hfault => ?_, fun s length hi hf hex hl hlt => ?_⟩
  · rcases hi with ⟨length, rfl⟩ | ⟨offset, length, rfl⟩
    · by_cases harg : 0 ≤ length.toInt
      · exact answerLoop_underrun_exhausted lawful_copyNothing hf ((exec_skip hf harg).symm.trans hexec) hfault
      · cases (exec_skip_bad hf harg).symm.trans hexec
        cases hfault
    · by_cases hargs : 0 ≤ length.toInt ∧ 0 ≤ offset.toInt ∧ offset.toInt + length.toInt ≤ s.params.outSize
      · obtain ⟨hl, ho, hb⟩ := hargs
        exact answerLoop_underrun_exhausted lawful_copyOut hf ((exec_readnext hf ho hl hb).symm.trans hexec) hfault
      · cases (exec_readnext_bad hf hargs).symm.trans hexec
        cases hfault
  · by_cases hempty : s.currentCount = 0
    · rw [exec_skip_exhausted hi.units hf hex hempty hl (by omega), hempty]
    · have hidle : State.UnitsIdle { s with currentCount := 0 } := hi.units.of_eq rfl rfl rfl rfl rfl
      obtain ⟨hrest, hl'⟩ := operand_sub hl hlt.le
      rw [exec_skip_beyond hf hl hempty hlt, exec_skip_exhausted hidle hf hex rfl hl' (by omega)]

end Sys2Proof.Machine

/-! Proofs about requests cut in two (spec/43_typed_reader.md R112, R118; spec/70_reset_and_hazards.md R187): a
READNEXT split anywhere, and SKIP in place of its first part. -/

namespace Sys2Proof.Machine

section Split
variable {s q : State} {offset m k : Word}

/-- A request inside the output space, as numbers of words. -/
theorem operands_within {x y : Word} {bound : Nat} (hx : 0 ≤ x.toInt) (hy : 0 ≤ y.toInt)
    (hle : x.toInt + y.toInt ≤ bound) : x.toNat + y.toNat ≤ bound := by
  have hxn := (toInt_of_nonneg hx).1
  have hyn := (toInt_of_nonneg hy).1
  omega

/-- Two operands whose sum stays below `2^31`, as indices into an output space do. -/
theorem operand_add {x y : Word} {bound : Nat} (hx : 0 ≤ x.toInt) (hy : 0 ≤ y.toInt)
    (hle : x.toInt + y.toInt ≤ bound) (hbound : bound ≤ 2 ^ 31 - 1) :
    (x + y).toNat = x.toNat + y.toNat ∧ (x + y).toInt = x.toInt + y.toInt := by
  have hwithin := operands_within hx hy hle
  exact add_of_lt (by omega)

/-- An output space has fewer than `2^31` words (R6). -/
theorem Params.Wf.outSize_le {p : Params} (h : p.Wf) : p.outSize ≤ 2 ^ 31 - 1 := by
  obtain ⟨-, -, -, hout, -, -⟩ := h
  exact hout

/-- The first part of a request answered `Ok`: its loop served everything, inside the output space. -/
theorem readnext_ok (hi : s.Inv) (hf : s.fault = .none) (ho : 0 ≤ offset.toInt) (hm : 0 ≤ m.toInt)
    (hb : offset.toInt + m.toInt ≤ s.params.outSize) {u : State} (h : exec (.readnext offset m) s = .next u)
    (hok : u.rsp = some .ok) :
    ∃ q, drain copyOut m.toNat offset.toNat s = .ok 0 q ∧ u = q.respond .ok ∧ q.Inv ∧ q.fault = .none ∧
      q.params = s.params := by
  rw [exec_readnext hf ho hm hb] at h
  obtain ⟨q, hq, rfl⟩ := answerLoop_ok h hok
  have hframe := (drain_ok lawful_copyOut _ _ _ hq).1
  exact ⟨q, hq, rfl, drain_out_inv hi (operands_within ho hm hb) hq, hframe.fault.trans hf, hframe.params⟩

end Split

/-- Settles O38: the loop split in two (`drain_split`), on the operands of the three requests. -/
theorem readnextSplitsAnywhere : Obligations.ReadnextSplitsAnywhere := by
  intro s u t offset m k hi hf ho hm hk hb hfirst hok hsecond
  have hsize := Params.Wf.outSize_le hi.params
  obtain ⟨hmk, hmkInt⟩ := operand_add hm hk (by omega) hsize
  obtain ⟨hom, homInt⟩ := operand_add ho hm (by omega) hsize
  obtain ⟨q, hq, rfl, hqi, hqf, hqp⟩ := readnext_ok hi hf ho hm (by omega) hfirst hok
  rw [exec_readnext_respond hqi hqf (by omega) hk (by rw [hqp]; omega), hom] at hsecond
  rw [exec_readnext hf ho (by omega) (by omega), hmk]
  have hbound : offset.toNat + m.toNat ≤ s.params.outSize := operands_within ho hm (by omega)
  obtain ⟨hserved, hraised, hmissed⟩ := drain_split m.toNat offset.toNat s hi hbound k.toNat q hq
  rcases hend : drain copyOut k.toNat (offset.toNat + m.toNat) q with ⟨left, v⟩ | ⟨f, v⟩ | x
  · rw [hserved left v hend, ← hend, hsecond]
    exact ⟨fun _ => rfl, fun _ => ⟨t.currentCount, rfl⟩⟩
  · cases (congrArg answerLoop hend).symm.trans hsecond
    refine ⟨fun hne => by rw [hraised f v hend hne]; rfl, fun hmiss => ?_⟩
    obtain rfl : f = .dictionaryMiss := hmiss
    obtain ⟨count, hwhole⟩ := hmissed v hend
    exact ⟨count, by rw [hwhole]; rfl⟩
  · cases (congrArg answerLoop hend).symm.trans hsecond

/-- Where READNEXT is served, SKIP of as many values comes to the same state but for the output space (R113, R118). -/
theorem drain_skip_of_read {n idx : Nat} {s q : State} (hi : s.Inv) (h : drain copyOut n idx s = .ok 0 q) :
    drain copyNothing n 0 s = .ok 0 { q with out := s.out } := by
  obtain ⟨r, ws, -, -, hread, hskip⟩ := drain_words n s hi
  have hr := hread s.rsp idx s.out
  rw [State.withPorts_self, h] at hr
  rcases r with ⟨left, v⟩ | _ | _
  · obtain ⟨rfl, rfl⟩ := Res.ok.inj hr
    exact (hskip 0 v rfl).2 s.rsp 0 s.out
  · cases hr
  · cases hr

/-- The words of one list of values, wherever they were written. -/
theorem OutMem.read_writeWords_at {ws : List Nat} {i : Nat} (h : i < ws.length) (idx : Nat) (m : OutMem) :
    (OutMem.writeWords ws idx m).read (idx + i) = some ws[i] := by
  rw [OutMem.read_writeWords, if_pos (by omega), Nat.add_sub_cancel_left, List.getElem?_eq_getElem h]

/-- A request is answered alike wherever it writes, and over whatever output space: with the same answer and state,
and the same words where it is served (R118). -/
theorem drain_out_alike {n : Nat} {s : State} (hi : s.Inv) (idx idx' : Nat) (out : OutMem)
    (hb : idx + n ≤ s.params.outSize) :
    ∃ t b, answerLoop (drain copyOut n idx s) = .next t ∧
      answerLoop (drain copyOut n idx' { s with out := out }) = .next b ∧ t = { b with out := t.out } ∧
      (t.rsp = some .ok → ∀ i, i < n → t.out.read (idx + i) = b.out.read (idx' + i)) := by
  obtain ⟨r, ws, -, -, hread, hserved⟩ := drain_words n s hi
  have hr := hread s.rsp idx s.out
  have hr' := hread s.rsp idx' out
  rw [State.withPorts_self] at hr
  rw [hr, show ({ s with out := out } : State) = s.withPorts s.rsp out from rfl, hr']
  rcases r with ⟨left, v⟩ | ⟨f, v⟩ | x
  · by_cases hleft : left = 0
    · subst hleft
      refine ⟨_, _, rfl, rfl, rfl, fun _ i hin => ?_⟩
      have hlen : i < ws.length := by
        have := (hserved 0 v rfl).1
        omega
      exact (OutMem.read_writeWords_at hlen idx _).trans (OutMem.read_writeWords_at hlen idx' _).symm
    · exact ⟨_, _, answerLoop_wanting hleft _, answerLoop_wanting hleft _, rfl, nofun⟩
  · exact ⟨_, _, rfl, rfl, rfl, nofun⟩
  · rcases drain_inv lawful_copyOut n idx s hi hb with ⟨left, t, h, -⟩ | ⟨f, t, h, -⟩ <;> cases hr.symm.trans h

/-- Settles O39: SKIP comes to the state of the first part but for the output space, from where both requests are
answered alike; and the split request is answered as the whole one. -/
theorem skipAndReadAreInterchangeable : Obligations.SkipAndReadAreInterchangeable := by
  intro s a off off' m k hi hf ho ho' hm hk hb hb' hfirst hok
  have hsize := Params.Wf.outSize_le hi.params
  obtain ⟨hom, homInt⟩ := operand_add ho' hm (by omega) hsize
  obtain ⟨q, hq, rfl, hqi, hqf, hqp⟩ := readnext_ok hi hf ho' hm (by omega) hfirst hok
  have hskip := drain_skip_of_read hi hq
  have hpi : State.Inv { q with out := s.out } := by
    rcases drain_skip_inv (n := m.toNat) (i := 0) hi with ⟨_, _, h, hinv⟩ | ⟨_, _, h, -⟩
    · cases hskip.symm.trans h
      exact hinv
    · cases hskip.symm.trans h
  obtain ⟨t, b, ht, hb2, heq, hwords⟩ :=
    drain_out_alike hpi off.toNat (off'.toNat + m.toNat) q.out (operands_within ho hk (by rwa [← hqp] at hb))
  have hread : exec (.readnext off k) (State.respond .ok { q with out := s.out }) = .next t := by
    rw [exec_readnext_respond hpi hqf ho hk (by rwa [← hqp] at hb), ht]
  have hrest : exec (.readnext (off' + m) k) (q.respond .ok) = .next b := by
    rw [exec_readnext_respond hqi hqf (by omega) hk (by rw [hqp]; omega), hom]
    exact hb2
  obtain ⟨hsame, hmiss⟩ := readnextSplitsAnywhere s _ b off' m k hi hf ho' hm hk hb' hfirst hok hrest
  have hu : exec (.skip m) s = .next (State.respond .ok { q with out := s.out }) := by
    rw [exec_skip hf hm, hskip, answerLoop_served]
  have hfault : t.fault = b.fault := by rw [heq]
  have hrsp : t.rsp = b.rsp := by rw [heq]
  by_cases hmissed : b.fault = .dictionaryMiss
  · obtain ⟨count, hwhole⟩ := hmiss hmissed
    exact ⟨_, t, _, hu, rfl, hread, hwhole, hrsp, fun h => absurd (hfault.trans hmissed) h, hwords⟩
  · exact ⟨_, t, b, hu, rfl, hread, hsame hmissed, hrsp, fun _ => heq, hwords⟩

end Sys2Proof.Machine

/-! Proofs about what the instructions leave alone (spec/10_state.md R28): the frame of the commands, of the words
READNEXT writes, and of the stream operations. -/

namespace Sys2Proof.Machine

/-! ### The frame of a command -/

theorem State.SameInstance.refl (s : State) : s.SameInstance s := ⟨rfl, rfl, rfl, rfl, rfl, rfl⟩

theorem LoopFrame.sameInstance {idx n : Nat} {s t : State} (h : LoopFrame idx n s t) : s.SameInstance t :=
  ⟨h.params, h.kind, h.bitWidth, h.constOnly, h.input, h.pending⟩

/-- What no command but INIT writes, and how it moves the cursor and leaves the transient units (R28). -/
structure CommandFrame (s t : State) : Prop where
  same : s.SameInstance t
  pos : s.pos ≤ t.pos
  idle : s.UnitsIdle → t.UnitsIdle

theorem CommandFrame.respond {s t : State} (h : CommandFrame s t) (r : Response) : CommandFrame s (t.respond r) :=
  ⟨h.same.respond r, h.pos, fun hidle => (h.idle hidle).respond r⟩

/-- Taking a fault leaves the units idle whatever they held (R150). -/
theorem CommandFrame.raiseFault {s t : State} (hsame : s.SameInstance t) (hpos : s.pos ≤ t.pos) (f : FaultCode) :
    CommandFrame s (t.raiseFault f) :=
  ⟨hsame.raiseFault f, hpos, fun _ => State.raiseFault_unitsIdle f t⟩

section Frames
variable {s t : State}

/-- A command that only answers. -/
theorem CommandFrame.answered (s : State) (r : Response) : CommandFrame s (s.respond r) :=
  CommandFrame.respond ⟨.refl s, Nat.le_refl _, id⟩ r

/-- A command that only raises. -/
theorem CommandFrame.raised (s : State) (f : FaultCode) : CommandFrame s (s.raiseFault f) :=
  .raiseFault (.refl s) (Nat.le_refl _) f

theorem exec_decode_frame (h : exec .decode s = .next t) : CommandFrame s t ∧ t.out = s.out := by
  by_cases hf : s.fault = .none
  · rcases exec_decode_next hf h with ⟨more, q, hdec, rfl⟩ | ⟨f, q, hdec, rfl, -⟩
    · obtain ⟨hframe, hpos, -, -, -, hidle⟩ := decodeRecord_ok hdec
      exact ⟨CommandFrame.respond ⟨hframe.sameInstance, hpos, hidle⟩ _, hframe.out⟩
    · obtain ⟨-, hframe, -, hpos, -⟩ := decodeRecord_raised hdec
      exact ⟨.raiseFault hframe.sameInstance hpos f, hframe.out⟩
  · cases (exec_sticky hf (.inl rfl)).symm.trans h
    exact ⟨.answered s _, rfl⟩

theorem answerLoop_frame {copy : Nat → Nat → State → Res Unit} (hcopy : LawfulCopy copy) {n idx : Nat}
    (h : answerLoop (drain copy n idx s) = .next t) : CommandFrame s t := by
  rcases answerLoop_next h with ⟨q, hq, rfl⟩ | ⟨left, q, -, hq, rfl⟩ | ⟨f, q, hq, rfl⟩
  · obtain ⟨hframe, -, -, hidle⟩ := drain_ok hcopy _ _ _ hq
    exact CommandFrame.respond ⟨hframe.sameInstance, hframe.pos.1, hidle⟩ _
  · obtain ⟨hframe, -⟩ := drain_ok hcopy _ _ _ hq
    exact .raiseFault hframe.sameInstance hframe.pos.1 _
  · obtain ⟨hframe, -⟩ := drain_raised hcopy _ _ _ hq
    exact .raiseFault hframe.sameInstance hframe.pos.1 f

theorem exec_skip_frame {length : Word} (h : exec (.skip length) s = .next t) :
    CommandFrame s t ∧ t.out = s.out := by
  by_cases hf : s.fault = .none
  · by_cases hl : 0 ≤ length.toInt
    · rw [exec_skip hf hl] at h
      refine ⟨answerLoop_frame lawful_copyNothing h, ?_⟩
      rcases answerLoop_next h with ⟨q, hq, rfl⟩ | ⟨left, q, -, hq, rfl⟩ | ⟨f, q, hq, rfl⟩
      · exact drain_skip_out.1 0 q hq
      · exact drain_skip_out.1 left q hq
      · exact drain_skip_out.2 f q hq
    · cases (exec_skip_bad hf hl).symm.trans h
      exact ⟨.raised s _, rfl⟩
  · cases (exec_sticky hf (.inr (.inl ⟨_, rfl⟩))).symm.trans h
    exact ⟨.answered s _, rfl⟩

/-- The two ways READNEXT ends: turned away with the output space as it was, or as its loop ends. -/
theorem exec_readnext_next {offset length : Word} (h : exec (.readnext offset length) s = .next t) :
    (CommandFrame s t ∧ t.out = s.out) ∨
      (0 ≤ offset.toInt ∧ 0 ≤ length.toInt ∧ offset.toInt + length.toInt ≤ s.params.outSize ∧
        answerLoop (drain copyOut length.toNat offset.toNat s) = .next t) := by
  by_cases hf : s.fault = .none
  · by_cases hargs : 0 ≤ length.toInt ∧ 0 ≤ offset.toInt ∧ offset.toInt + length.toInt ≤ s.params.outSize
    · obtain ⟨hl, ho, hb⟩ := hargs
      exact .inr ⟨ho, hl, hb, (exec_readnext hf ho hl hb).symm.trans h⟩
    · cases (exec_readnext_bad hf hargs).symm.trans h
      exact .inl ⟨.raised s _, rfl⟩
  · cases (exec_sticky hf (.inr (.inr ⟨_, _, rfl⟩))).symm.trans h
    exact .inl ⟨.answered s _, rfl⟩

theorem exec_readnext_frame {offset length : Word} (h : exec (.readnext offset length) s = .next t) :
    CommandFrame s t := by
  rcases exec_readnext_next h with ⟨hframe, -⟩ | ⟨-, -, -, hloop⟩
  · exact hframe
  · exact answerLoop_frame lawful_copyOut hloop

end Frames

/-- Settles O44: the frame of each of the two. -/
theorem skipAndDecodeFrame : Obligations.SkipAndDecodeFrame := by
  intro s t i hi hcase hexec
  obtain ⟨hframe, hout⟩ : CommandFrame s t ∧ t.out = s.out := by
    rcases hcase with rfl | ⟨length, rfl⟩
    · exact exec_decode_frame hexec
    · exact exec_skip_frame hexec
  exact ⟨hframe.same, hout, hframe.pos, hframe.idle hi.units⟩

/-! ### The words READNEXT writes (R38, R41) -/

/-- However the loop ends, it has written values of the dictionary to the first words of the request. -/
theorem answerLoop_words {n idx : Nat} {s t : State} (hi : s.Inv)
    (h : answerLoop (drain copyOut n idx s) = .next t) :
    ∃ ws : List Nat, (∀ v ∈ ws, ∃ c, dictResolve s.params.dict c = some v) ∧ ws.length ≤ n ∧
      t.out = OutMem.writeWords ws idx s.out := by
  obtain ⟨r, ws, hws, hlen, hread, -⟩ := drain_words n s hi
  have hr := hread s.rsp idx s.out
  rw [State.withPorts_self] at hr
  refine ⟨ws, hws, hlen, ?_⟩
  rw [hr] at h
  rcases r with ⟨left, v⟩ | ⟨f, v⟩ | x
  · by_cases hleft : left = 0
    · subst hleft
      cases h
      rfl
    · cases (answerLoop_wanting hleft _).symm.trans h
      rfl
  · cases h
    rfl
  · cases h

/-- Settles O43: the frame of READNEXT, and a word that changed is one of those its loop wrote. -/
theorem readnextFrame : Obligations.ReadnextFrame := by
  intro s t offset length hi hexec
  have hframe := exec_readnext_frame hexec
  refine ⟨hframe.same, hframe.pos, hframe.idle hi.units, fun i hne => ?_⟩
  rcases exec_readnext_next hexec with ⟨-, hout⟩ | ⟨ho, hl, -, hloop⟩
  · exact absurd (by rw [hout]) hne
  · obtain ⟨ws, hws, hlen, hout⟩ := answerLoop_words hi hloop
    rw [hout, OutMem.read_writeWords] at hne ⊢
    by_cases hin : offset.toNat ≤ i ∧ i < offset.toNat + ws.length
    · have hlt : i - offset.toNat < ws.length := by omega
      obtain ⟨c, hc⟩ := hws _ (List.getElem_mem hlt)
      exact ⟨ho, hl, hin.1, by omega, c, _, hc, by rw [if_pos hin, List.getElem?_eq_getElem hlt]⟩
    · exact absurd (if_neg hin) hne

/-! ### The stream operations -/

theorem exec_runval_next {k : Nat} {value : Word} {s t : State} (h : exec (.runval k value) s = .next t) :
    t = { s with currentValue := value } := by
  rw [exec, execRunval, takeRunValue] at h
  split at h <;> cases h
  rfl

/-- A header operation keeps the register `fault`, or raises one of two faults with the run-state as it was (R94,
R95, R150). -/
theorem exec_headerForm_frame {h : HeaderForm} {s t : State} (hexec : exec h.toInstr s = .next t) :
    s.SameInstance t ∧ t.out = s.out ∧ s.pos ≤ t.pos ∧
      (t.fault = s.fault ∨ (s.SameRunState t ∧ (t.fault = .truncatedStream ∨ t.fault = .capacity))) := by
  rw [exec_headerForm] at hexec
  rcases headerRecord_cases h s with ⟨u, hu, hframe, hpos, -⟩ | ⟨f, hu, hcode⟩ | ⟨⟨r, hu⟩, -⟩
  all_goals
    rw [hu] at hexec
    cases hexec
  · exact ⟨hframe.sameInstance, hframe.out, hpos, .inl hframe.fault⟩
  · exact ⟨⟨rfl, rfl, rfl, rfl, rfl, rfl⟩, rfl, Nat.le_refl _, .inr ⟨⟨rfl, rfl, rfl, rfl⟩, hcode⟩⟩

/-- Settles O45: the header bytes and UNPACK8 write transient units only, the headers and RUNVAL the run-state. -/
theorem streamOperationsFrame : Obligations.StreamOperationsFrame := by
  refine fun s t i hexec => ⟨?_, ?_⟩
  · rintro (⟨p, rfl⟩ | ⟨p, rfl⟩ | ⟨w, group, rfl⟩)
    · cases (exec_varintCont p s).symm.trans hexec
      exact ⟨⟨rfl, rfl, rfl, rfl, rfl, rfl⟩, ⟨rfl, rfl, rfl, rfl⟩, rfl, rfl, rfl⟩
    · cases (exec_varintLast p s).symm.trans hexec
      exact ⟨⟨rfl, rfl, rfl, rfl, rfl, rfl⟩, ⟨rfl, rfl, rfl, rfl⟩, rfl, rfl, rfl⟩
    · obtain ⟨-, rfl⟩ := exec_unpack8_next hexec
      exact ⟨⟨rfl, rfl, rfl, rfl, rfl, rfl⟩, ⟨rfl, rfl, rfl, rfl⟩, rfl, rfl, rfl⟩
  · rintro (⟨n, rfl⟩ | ⟨g, rfl⟩ | ⟨n, b, rfl⟩ | ⟨k, value, rfl⟩)
    · exact exec_headerForm_frame (h := .run n) hexec
    · exact exec_headerForm_frame (h := .packed g) hexec
    · exact exec_headerForm_frame (h := .brun n b) hexec
    · cases exec_runval_next hexec
      exact ⟨⟨rfl, rfl, rfl, rfl, rfl, rfl⟩, rfl, Nat.le_refl _, .inl rfl⟩

end Sys2Proof.Machine

/-! Proofs about one step (spec/10_state.md R29, spec/70_reset_and_hazards.md R170, R187): that every command is
answered and keeps the invariant, what a reset leaves, and what the outside does between commands. -/

namespace Sys2Proof.Machine

/-! ### What a command at the port runs -/

section Port
variable {c : CmdPort} {s t : State}

/-- What holds of every command's meaning holds of the command offered at the port (R58, R61). -/
theorem hostCommand_rule {P : Host.Outcome State Fault Refusal → Prop}
    (init : ∀ kind fixed bw value count stream, P (exec (.init kind fixed bw value count stream) s))
    (decode : P (exec .decode s)) (readnext : c.op = 2 → P (exec (.readnext c.offset c.length) s))
    (skip : P (exec (.skip c.length) s)) (retained : P (exec .retained s)) (reserved : P (execReserved s)) :
    P (hostCommand c s) := by
  rcases decodeCommand_cases c with
    ⟨-, kind, fixed, bw, value, count, stream, hd⟩ | ⟨-, hd | ⟨hop, hd⟩ | hd | hd | hop⟩
  · rw [hostCommand, hd]
    exact init kind fixed bw value count stream
  · rw [hostCommand, hd]
    exact decode
  · rw [hostCommand, hd]
    exact readnext hop
  · rw [hostCommand, hd]
    exact skip
  · rw [hostCommand, hd]
    exact retained
  · rw [hostCommand_reserved hop]
    exact reserved

@[simp] theorem State.buildInstance_params (kind : Kind) (fixed : Bool) (bw : BitVec 6) (value count : Word)
    (stream : List Byte) (s : State) :
    (s.buildInstance kind fixed bw value count stream).params = s.params := by
  rw [State.buildInstance]
  split <;> rfl

@[simp] theorem State.buildInstance_pending (kind : Kind) (fixed : Bool) (bw : BitVec 6) (value count : Word)
    (stream : List Byte) (s : State) :
    (s.buildInstance kind fixed bw value count stream).pending = s.pending := by
  rw [State.buildInstance]
  split <;> rfl

@[simp] theorem State.buildInstance_out (kind : Kind) (fixed : Bool) (bw : BitVec 6) (value count : Word)
    (stream : List Byte) (s : State) :
    (s.buildInstance kind fixed bw value count stream).out = s.out := by
  rw [State.buildInstance]
  split <;> rfl

/-- What no command writes: the parameters and what the outside will do. -/
def State.SameOutside (s t : State) : Prop := t.params = s.params ∧ t.pending = s.pending

theorem CommandFrame.sameOutside (h : CommandFrame s t) : s.SameOutside t := ⟨h.same.params, h.same.pending⟩

theorem exec_init_frame {kind : Kind} {fixed : Bool} {bw : BitVec 6} {value count : Word} {stream : List Byte}
    (h : exec (.init kind fixed bw value count stream) s = .next t) : s.SameOutside t ∧ t.out = s.out := by
  by_cases hbw : bw.toNat ≤ 32
  · cases (exec_init_good_width hbw).symm.trans h
    simp [State.SameOutside]
  · cases (exec_init_bad_width (Nat.lt_of_not_le hbw)).symm.trans h
    simp [State.SameOutside]

theorem execReserved_frame (h : execReserved s = .next t) : CommandFrame s t ∧ t.out = s.out := by
  by_cases hf : s.fault = .none
  · rw [execReserved, whenNoFault, if_pos hf] at h
    cases h
    exact ⟨.raised s _, rfl⟩
  · cases (execReserved_sticky hf).symm.trans h
    exact ⟨.answered s _, rfl⟩

theorem exec_retained_frame (h : exec .retained s = .next t) : CommandFrame s t ∧ t.out = s.out := by
  cases h
  exact ⟨.answered s _, rfl⟩

theorem hostCommand_sameOutside (h : hostCommand c s = .next t) : s.SameOutside t := by
  revert h
  refine hostCommand_rule (P := fun o => o = .next t → s.SameOutside t) ?_ ?_ ?_ ?_ ?_ ?_
  · exact fun _ _ _ _ _ _ h => (exec_init_frame h).1
  · exact fun h => (exec_decode_frame h).1.sameOutside
  · exact fun _ h => (exec_readnext_frame h).sameOutside
  · exact fun h => (exec_skip_frame h).1.sameOutside
  · exact fun h => (exec_retained_frame h).1.sameOutside
  · exact fun h => (execReserved_frame h).1.sameOutside

/-- Only READNEXT writes output words (R38, R41). -/
theorem hostCommand_out (hop : c.op ≠ 2) (h : hostCommand c s = .next t) : t.out = s.out := by
  revert h
  refine hostCommand_rule (P := fun o => o = .next t → t.out = s.out) ?_ ?_ ?_ ?_ ?_ ?_
  · exact fun _ _ _ _ _ _ h => (exec_init_frame h).2
  · exact fun h => (exec_decode_frame h).2
  · exact fun h => absurd h hop
  · exact fun h => (exec_skip_frame h).2
  · exact fun h => (exec_retained_frame h).2
  · exact fun h => (execReserved_frame h).2

end Port

/-! ### Every command is answered and keeps the invariant -/

/-- A command's outcome: answered, in a state of the invariant. -/
def Answered (o : Host.Outcome State Fault Refusal) : Prop := ∃ t r, o = .next t ∧ t.rsp = some r ∧ t.Inv

section Answers
variable {s : State}

theorem Answered.respond (hi : s.Inv) (r : Response) : Answered (.next (s.respond r)) :=
  ⟨_, r, rfl, rfl, State.respond_inv hi r⟩

theorem Answered.raiseFault (hi : s.clearUnits.Inv) (f : FaultCode) : Answered (.next (s.raiseFault f)) :=
  ⟨_, .fault f, rfl, rfl, State.raiseFault_inv hi f⟩

/-- The units of a state of the invariant are clear already. -/
theorem State.Inv.clearUnits (hi : s.Inv) : s.clearUnits.Inv := by
  rwa [State.clearUnits_eq hi.units]

theorem answered_init (hi : s.Inv) (kind : Kind) (fixed : Bool) (bw : BitVec 6) (value count : Word)
    (stream : List Byte) : Answered (exec (.init kind fixed bw value count stream) s) := by
  have hdropped := State.dropInstance_inv hi.params hi.out
  by_cases hbw : bw.toNat ≤ 32
  · rw [exec_init_good_width hbw]
    exact .respond (State.buildInstance_inv hdropped kind fixed bw value count stream hbw) .ok
  · rw [exec_init_bad_width (Nat.lt_of_not_le hbw)]
    exact .raiseFault hdropped.clearUnits .argument

/-- A stored fault is answered, and nothing else happens (R151). -/
theorem answered_sticky (hi : s.Inv) {i : Instr} (hf : s.fault ≠ .none)
    (h : i = .decode ∨ (∃ length, i = .skip length) ∨ ∃ offset length, i = .readnext offset length) :
    Answered (exec i s) := by
  rw [exec_sticky hf h]
  exact .respond hi (.fault s.fault)

theorem answered_decode (hi : s.Inv) : Answered (exec .decode s) := by
  by_cases hf : s.fault = .none
  · rcases hdec : decodeRecord s with ⟨more, t⟩ | ⟨f, t⟩ | r
    · rw [exec_decode_answered hf hdec]
      exact .respond (decodeRecord_inv hi hdec) _
    · rw [exec_decode_raised hf hdec]
      exact .raiseFault (decodeRecord_raised_inv hi hdec) f
    · exact absurd hdec (decodeRecord_not_refused hi.width r)
  · exact answered_sticky hi hf (.inl rfl)

theorem answered_answerLoop {r : Res Nat}
    (h : (∃ left t, r = .ok left t ∧ t.Inv) ∨ ∃ f t, r = .raised f t ∧ t.clearUnits.Inv) :
    Answered (answerLoop r) := by
  rcases h with ⟨left, t, rfl, hi⟩ | ⟨f, t, rfl, hi⟩
  · by_cases hleft : left = 0
    · rw [hleft, answerLoop_served]
      exact .respond hi .ok
    · rw [answerLoop_wanting hleft]
      exact .raiseFault hi.clearUnits .streamUnderrun
  · exact .raiseFault hi f

theorem answered_readnext (hi : s.Inv) (offset length : Word) : Answered (exec (.readnext offset length) s) := by
  by_cases hf : s.fault = .none
  · by_cases hargs : 0 ≤ length.toInt ∧ 0 ≤ offset.toInt ∧ offset.toInt + length.toInt ≤ s.params.outSize
    · obtain ⟨hl, ho, hb⟩ := hargs
      rw [exec_readnext hf ho hl hb]
      exact answered_answerLoop (drain_inv lawful_copyOut _ _ s hi (operands_within ho hl hb))
    · rw [exec_readnext_bad hf hargs]
      exact .raiseFault hi.clearUnits .argument
  · exact answered_sticky hi hf (.inr (.inr ⟨_, _, rfl⟩))

theorem answered_skip (hi : s.Inv) (length : Word) : Answered (exec (.skip length) s) := by
  by_cases hf : s.fault = .none
  · by_cases hl : 0 ≤ length.toInt
    · rw [exec_skip hf hl]
      exact answered_answerLoop (drain_skip_inv hi)
    · rw [exec_skip_bad hf hl]
      exact .raiseFault hi.clearUnits .argument
  · exact answered_sticky hi hf (.inr (.inl ⟨_, rfl⟩))

theorem answered_reserved (hi : s.Inv) : Answered (execReserved s) := by
  by_cases hf : s.fault = .none
  · rw [execReserved, whenNoFault, if_pos hf]
    exact .raiseFault hi.clearUnits .argument
  · rw [execReserved_sticky hf]
    exact .respond hi (.fault s.fault)

theorem answered_hostCommand (hi : s.Inv) (c : CmdPort) : Answered (hostCommand c s) :=
  hostCommand_rule (answered_init hi) (answered_decode hi) (fun _ => answered_readnext hi _ _) (answered_skip hi _)
    (Answered.respond hi _) (answered_reserved hi)

end Answers

/-- Taking an interaction from the queue keeps the invariant. -/
theorem State.Inv.taken {s : State} (hi : s.Inv) (rest : List HostInput) : State.Inv { s with pending := rest } :=
  hi.of_ports rfl

/-- Settles O55: the command at the port is answered and leaves the queue alone. -/
theorem everyCommandIsAnswered : Obligations.EveryCommandIsAnswered := by
  intro s c rest hi hp
  obtain ⟨t, r, hcommand, hr, -⟩ := answered_hostCommand (hi.taken rest) c
  exact ⟨t, r, (step_command hp).trans hcommand, hr, (hostCommand_sameOutside hcommand).2⟩

/-! ### Reset (R170) -/

/-- An abandoned command leaves the output space as it was, or its own first words in it (R41). -/
theorem abandonedOut_cases (c : CmdPort) (written : Nat) (s : State) :
    abandonedOut c written s = s.out ∨ ∃ t, hostCommand c s = .next t ∧
      abandonedOut c written s = OutMem.splice (countOperand c.offset + written) t.out s.out := by
  rw [abandonedOut, hostCommand]
  rcases decodeCommand c with e | i
  · exact .inl rfl
  · rcases hi : exec i s with t | f | r
    · exact .inr ⟨t, hi, by simp only [hi]⟩
    · exact .inl (by simp only [hi])
    · exact .inl (by simp only [hi])

/-- Settles O51: the dropped instance, and the output space as it was, spliced where READNEXT was in flight. -/
theorem resetRestoresTheResetState : Obligations.ResetRestoresTheResetState := by
  refine fun s rest => ⟨fun hp => ?_, fun c written hp => ⟨abandonedOut c written { s with pending := rest }, ?_,
    fun hop i => ?_, fun u hop hexec i => ?_⟩⟩
  · rw [step_reset hp, hostReset, State.dropInstance_eq]
    rfl
  · rw [step_reset hp, hostReset, State.dropInstance_eq]
    rfl
  · rcases abandonedOut_cases c written { s with pending := rest } with h | ⟨t, hcommand, h⟩
    · rw [h]
    · rw [h, OutMem.read_splice, hostCommand_out hop hcommand, ite_self]
  · have hout : abandonedOut c written { s with pending := rest } =
        OutMem.splice (countOperand c.offset + written) u.out s.out := by
      simp only [abandonedOut, decodeCommand_readnext hop, hexec]
    rw [hout, OutMem.read_splice]
    rcases exec_readnext_next hexec with ⟨-, hsame⟩ | ⟨ho, -⟩
    · rw [hsame, ite_self, ite_self]
    · rw [countOperand_eq ho]

/-! ### Every step keeps the invariant (R29) -/

theorem abandonedOut_inv {s : State} (hi : s.Inv) (c : CmdPort) (written : Nat) :
    (abandonedOut c written s).wf = true ∧
      ∀ e ∈ abandonedOut c written s, e.1 < s.params.outSize ∧ e.2 < 2 ^ s.params.domainWidth := by
  rcases abandonedOut_cases c written s with h | ⟨t, hcommand, h⟩
  · rw [h]
    exact hi.out
  · obtain ⟨t', -, hcommand', -, hit⟩ := answered_hostCommand hi c
    cases hcommand.symm.trans hcommand'
    have hout := hit.out
    rw [(hostCommand_sameOutside hcommand).1] at hout
    rw [h]
    refine ⟨OutMem.wf_splice hout.1 hi.out.1 _, fun e he => ?_⟩
    rcases OutMem.mem_splice he with ⟨hnew, -⟩ | ⟨hold, -⟩
    · exact hout.2 e hnew
    · exact hi.out.2 e hold

theorem hostReset_inv {s : State} (hi : s.Inv) (inFlight : Option (CmdPort × Nat)) : (hostReset inFlight s).Inv := by
  have hdropped : s.dropInstance.Inv := State.dropInstance_inv hi.params hi.out
  cases inFlight with
  | none => exact hdropped.of_ports rfl
  | some command =>
    have hout := abandonedOut_inv hi command.1 command.2
    exact { hdropped with out := hout, units := hdropped.units.of_eq rfl rfl rfl rfl rfl }

theorem hostWriteOut_inv {index value : Nat} {s t : State} (hi : s.Inv) (h : hostWriteOut index value s = .next t) :
    t.Inv := by
  rw [hostWriteOut] at h
  split at h
  · rename_i hindex
    cases h
    refine { hi with out := ⟨OutMem.wf_write hi.out.1 _ _, fun e he => ?_⟩
                     units := hi.units.of_eq rfl rfl rfl rfl rfl }
    rcases OutMem.mem_write he with rfl | hold
    · exact ⟨hindex, Nat.mod_lt _ (Nat.two_pow_pos _)⟩
    · exact hi.out.2 e hold
  · cases h

/-- What the environment supplies is within the ranges of R6, and nothing of the state depends on it. -/
theorem hostAttachDictionary_inv {dict : Dict} {retained : BitVec 64} {s t : State} (hi : s.Inv)
    (h : hostAttachDictionary dict retained s = .next t) : t.Inv := by
  rw [hostAttachDictionary] at h
  split at h
  · rename_i hallowed
    cases h
    exact { hi with params := hallowed.2, units := hi.units.of_eq rfl rfl rfl rfl rfl }
  · cases h

/-- Settles O54: interaction by interaction. -/
theorem stepKeepsTheInvariant : Obligations.StepKeepsTheInvariant := by
  intro s t hi hstep
  rcases hp : s.pending with _ | ⟨input, rest⟩
  · rw [step, hp] at hstep
    cases hstep
    exact hi
  · have hi' := hi.taken rest
    cases input with
    | command c =>
      obtain ⟨u, -, hcommand, -, hiu⟩ := answered_hostCommand hi' c
      cases ((step_command hp).trans hcommand).symm.trans hstep
      exact hiu
    | reset inFlight =>
      cases (step_reset hp).symm.trans hstep
      exact hostReset_inv hi' inFlight
    | writeOut index value => exact hostWriteOut_inv hi' ((step_writeOut hp).symm.trans hstep)
    | attachDictionary dict retained =>
      exact hostAttachDictionary_inv hi' ((step_attachDictionary hp).symm.trans hstep)

/-! ### The state after reset (R25, R171) -/

/-- Settles O50: as `State.resetWith` writes them. -/
theorem resetValues : Obligations.ResetValues := fun _ =>
  ⟨rfl, rfl, rfl, rfl, rfl, rfl, rfl, rfl, rfl, rfl, rfl, ⟨rfl, rfl, rfl, rfl, rfl⟩, rfl⟩

/-- Settles O52: the constant-only instance of no value is the dropped one. -/
theorem resetEqualsAnEmptyInit : Obligations.ResetEqualsAnEmptyInit := by
  intro s stream
  rw [exec_init_good_width (by decide), State.buildInstance_constant (by decide) (.inl rfl)]
  rfl

/-- The reset state is a dropped instance over an empty output space. -/
theorem State.resetWith_inv {p : Params} (hp : p.Wf) : (State.resetWith p).Inv := by
  have hdropped : (State.resetWith p).dropInstance.Inv := State.dropInstance_inv hp ⟨OutMem.wf_nil, nofun⟩
  exact hdropped

/-- Settles O53: the chosen parameter values are within R6's ranges. -/
theorem resetSatisfiesTheInvariant : Obligations.ResetSatisfiesTheInvariant :=
  ⟨fun _ hp => State.resetWith_inv hp, State.resetWith_inv (by decide)⟩

/-! ### Between commands (R159, R187) -/

/-- Settles O6: the port's command is what it decodes to. -/
theorem stepRunsTheDecodedCommand : Obligations.StepRunsTheDecodedCommand := by
  intro s c rest i hp hdec
  rw [step_command hp, hostCommand, hdec]

/-- Settles O7: a step takes what is first in the queue. -/
theorem idleBlockKeepsItsState : Obligations.IdleBlockKeepsItsState := by
  intro s hp
  rw [step, hp]

theorem step_keeps_params {s t : State} (hstep : step s = .next t) (hne : t.params ≠ s.params) :
    ∃ dict retained rest, s.pending = .attachDictionary dict retained :: rest ∧ endsInstance rest = true := by
  rcases hp : s.pending with _ | ⟨input, rest⟩
  · rw [idleBlockKeepsItsState s hp] at hstep
    cases hstep
    exact absurd rfl hne
  · cases input with
    | command c =>
      have hsame := (hostCommand_sameOutside ((step_command hp).symm.trans hstep)).1
      exact absurd hsame hne
    | reset inFlight =>
      cases (step_reset hp).symm.trans hstep
      cases inFlight <;> exact absurd rfl hne
    | writeOut index value =>
      rw [step_writeOut hp, hostWriteOut] at hstep
      split at hstep <;> cases hstep
      exact absurd rfl hne
    | attachDictionary dict retained =>
      rw [step_attachDictionary hp, hostAttachDictionary] at hstep
      split at hstep <;> cases hstep
      rename_i hallowed
      exact ⟨dict, retained, rest, rfl, hallowed.1⟩

/-- Settles O60: a write of the host, a dictionary supplied where an instance ends, and no other change of a
parameter. -/
theorem outsideActsBetweenCommands : Obligations.OutsideActsBetweenCommands := by
  refine ⟨fun s index value rest hp hvalue => ⟨fun hindex => ?_, fun hindex => ?_⟩,
    fun s dict retained next rest hp hnext hwf => ?_, fun s t hstep hne => ?_⟩
  · refine ⟨s.out.write index value, ?_, OutMem.read_write s.out index value⟩
    rw [step_writeOut hp, hostWriteOut, if_pos hindex, Nat.mod_eq_of_lt hvalue]
    rfl
  · rw [step_writeOut hp, hostWriteOut, if_neg (Nat.not_lt.2 hindex)]
  · have hends : endsInstance (next :: rest) = true := endsInstance_iff.2 ⟨next, rest, rfl, hnext⟩
    rw [step_attachDictionary hp, hostAttachDictionary, if_pos ⟨hends, hwf⟩]
    rfl
  · obtain ⟨dict, retained, queue, hp, hends⟩ := step_keeps_params hstep hne
    obtain ⟨next, rest, rfl, hnext⟩ := endsInstance_iff.1 hends
    exact ⟨dict, retained, next, rest, hp, hnext⟩

end Sys2Proof.Machine

/-! Proofs about RETAINED, faults, the loop's bound, the end of a run and several blocks (spec/44_sizing.md R130,
spec/60_exceptions.md R150, spec/43_typed_reader.md R114, spec/70_reset_and_hazards.md R186, R188). -/

namespace Sys2Proof.Machine

/-! ### RETAINED -/

/-- The packed buffer of a state of the invariant is within its bound in either mode. -/
theorem State.Inv.buf_length_le {s : State} (hi : s.Inv) : s.buf.length ≤ 8 * s.params.bufCapGroups := by
  cases hm : s.mode with
  | run => simp [hi.runBuf hm]
  | packed => exact (hi.packedBuf hm).2.1

/-- The sum does not wrap: the parameters are chosen so that it fits (R130). -/
theorem retainedBytes_toNat {s : State} (hi : s.Inv) : (retainedBytes s).toNat =
    s.params.instanceOverhead.toNat + 4 * s.buf.length + s.params.dictRetained.toNat := by
  obtain ⟨-, -, -, -, -, hsum⟩ := hi.params
  have hbuf := hi.buf_length_le
  simp only [retainedBytes, State.bufLen, BitVec.toNat_add, BitVec.toNat_ofNat]
  omega

/-- Settles O46: the answer is `retainedBytes`, in RUN mode of an empty buffer. -/
theorem retainedAnswersTheExactSum : Obligations.RetainedAnswersTheExactSum := by
  refine fun s hi => ⟨retainedBytes s, rfl, retainedBytes_toNat hi, fun hm => ?_⟩
  rw [retainedBytes_toNat hi, hi.runBuf hm]
  rfl

/-! ### Taking a fault -/

/-- Settles O49: as `State.raiseFault` writes it. -/
theorem raisingAFaultSavesNothing : Obligations.RaisingAFaultSavesNothing := fun _ _ => ⟨rfl, rfl, rfl⟩

/-! ### The bound of the loop (R114) -/

/-- Settles O56: each copy is lawful, and the loop then needs no more iterations than it is given. -/
theorem loopBoundAlwaysSuffices : Obligations.LoopBoundAlwaysSuffices := by
  intro bound remaining idx s hbound
  have hneed : loopNeed s ≤ bound := (loopNeed_le s).trans hbound
  exact ⟨consumeLoop_eq_drain lawful_copyOut remaining idx hneed,
    consumeLoop_eq_drain lawful_copyNothing remaining idx hneed⟩

/-! ### The end of a run (R188) -/

/-- Settles O59: of the ways DECODE ends, the one that answers false is the exhausted instance's. -/
theorem runHasEndedWhenDecodeFindsNothing : Obligations.RunHasEndedWhenDecodeFindsNothing := by
  refine fun s hi => ⟨fun ⟨hf, hempty, hex⟩ => ⟨hf, hempty, ?_⟩, fun ⟨hf, hempty, t, hexec, hrsp⟩ =>
    ⟨hf, hempty, ?_⟩⟩
  · refine ⟨_, exec_decode_answered hf (decodeRecord_exhausted hex hempty), ?_⟩
    rw [State.respond_rsp, hempty]
  · obtain ⟨u, hu, -, -, -, -, hends⟩ := decodeAnswersOrLeavesTheRunState s hi hf
    cases hu.symm.trans hexec
    rcases hends with ⟨-, -, -, hanswer⟩ | ⟨-, hex, -⟩ | ⟨-, -, -, -, hanswer⟩
    · cases hanswer.symm.trans hrsp
    · exact hex
    · cases hanswer.symm.trans hrsp

/-! ### Several blocks (R44, R186) -/

theorem systemRun_cons {k : Nat} {ks : List Nat} {sys t : System} (h : systemRun (k :: ks) sys = .next t) :
    ∃ sys', systemStep k sys = .next sys' ∧ systemRun ks sys' = .next t := by
  rw [systemRun] at h
  rcases hstep : systemStep k sys with sys' | f | r
  · rw [hstep] at h
    exact ⟨sys', rfl, h⟩
  · rw [hstep] at h
    cases h
  · rw [hstep] at h
    cases h

/-- A block alone makes its own step first. -/
theorem systemRun_alone {s u : State} (n : Nat) (h : step s = .next u) :
    systemRun (List.replicate (n + 1) 0) [s] = systemRun (List.replicate n 0) [u] := by
  simp [List.replicate_succ, systemRun, systemStep, h]

/-- Settles O58: along the schedule, a step of another block leaves block `k`, and a step of block `k` is the first
it makes alone. -/
theorem interleavingIsInvisible : Obligations.InterleavingIsInvisible := by
  intro schedule
  induction schedule with
  | nil =>
    intro sys t k s hk hrun
    cases hrun
    exact ⟨s, hk, rfl⟩
  | cons j js ih =>
    intro sys t k s hk hrun
    obtain ⟨sys', hstep, hrest⟩ := systemRun_cons hrun
    by_cases hjk : j = k
    · subst hjk
      obtain ⟨u, hu, hj⟩ := (systemStep_get j hstep).2 s hk
      obtain ⟨v, hv, halone⟩ := ih sys' t j u hj hrest
      refine ⟨v, hv, ?_⟩
      rw [List.filter_cons_of_pos (by simp), List.length_cons, systemRun_alone _ hu, halone]
    · have hkept := (systemStep_get k hstep).1 (Ne.symm hjk)
      obtain ⟨v, hv, halone⟩ := ih sys' t k s (hkept.trans hk) hrest
      exact ⟨v, hv, by rw [List.filter_cons_of_neg (by simpa using hjk), halone]⟩

end Sys2Proof.Machine

/-! Proofs about the sequential view of `Decode()` (spec/42_run_state_machine.md R102, spec/40_varint.md R75): from
each state of the sequencer it comes to the end of the step of R91 that state stands for. -/

namespace Sys2Proof.Machine

section Dispatch
variable {s : State} (start : State)

/-- `S_RUNVAL` to the end: a run's decoder (R94). -/
theorem reaches_run (n : BitVec 31) (hw : s.bitWidth ≠ 0) :
    Reaches (seqDispatch (.run n) s) (seqEnd start ((runRecord n s).bind fun _ t => .ok true t)) := by
  by_cases hk : s.avail < runValueBytes s.bitWidth.val
  · rw [runRecord_cut hk, seqDispatch, if_pos hk]
    exact .refl _
  · rw [runRecord_eq hw (Nat.le_of_not_lt hk), seqDispatch, if_neg hk]
    exact (seq_runval n _ [] s.takeHeader (Nat.zero_add _) (Nat.le_of_not_lt hk)).trans (.one rfl)

/-- `S_PAYLOAD` to the end: a packed record's decoder (R95, R96). -/
theorem reaches_packed (g : BitVec 31) (hw : s.bitWidth ≠ 0) :
    Reaches (seqDispatch (.packed g) s) (seqEnd start ((packedRecord g s).bind fun _ t => .ok true t)) := by
  by_cases hg : s.params.bufCapGroups < g.toNat
  · rw [packedRecord_capacity hg, seqDispatch, if_pos hg]
    exact .refl _
  · rw [packedRecord_eq hw (Nat.le_of_not_lt hg), seqDispatch, if_neg hg, paddedPayload_eq rfl]
    exact (seq_payload g g.toNat { s.takeHeader with fill := [] } hw).trans (.one rfl)

/-- A header's state to the end: the header's record decoder (R93). -/
theorem reaches_dispatch (h : HeaderForm) (hw : s.bitWidth ≠ 0) :
    Reaches (seqDispatch h s) (seqEnd start ((headerRecord h s).bind fun _ t => .ok true t)) := by
  cases h with
  | run n => exact reaches_run start n hw
  | packed g => exact reaches_packed start g hw
  | brun n b => exact .one rfl

end Dispatch

section Check
variable {s : State}

theorem readVarint_bitWidth {h : Word} {t : State} (e : readVarint s = .ok h t) : t.bitWidth = s.bitWidth := by
  rcases readVarint_cases s with ⟨cs, b, rest, -, e'⟩ | e' <;> cases e'.symm.trans e
  rfl

/-- `S_CHECK` to the end: `Decode()` (R91). -/
theorem reaches_decode (hw : s.constOnly = false → s.bitWidth ≠ 0) :
    Reaches ⟨.check, s⟩ (seqEnd s (decodeRecord s)) := by
  by_cases hc : s.constOnly = true
  · rw [decodeRecord_const hc]
    exact .one (if_pos hc)
  have hstream := Bool.eq_false_iff.2 hc
  by_cases ha : s.avail = 0
  · rw [decodeRecord_end hstream ha]
    exact .one ((if_neg hc).trans (if_pos ha))
  refine .step ((if_neg hc).trans (if_neg ha)) ?_
  obtain ⟨hread, hcut⟩ := seq_header s.avail s.idleReader rfl
  rw [decodeRecord, if_neg hc, if_neg ha]
  rcases hv : readVarint s with ⟨h, t⟩ | ⟨f, t⟩ | r
  · have hwt : t.bitWidth ≠ 0 := by
      rw [readVarint_bitWidth hv]
      exact hw hstream
    exact (hread h t hv).trans (reaches_dispatch s _ hwt)
  · exact hcut f t hv
  · rcases readVarint_cases s with ⟨cs, b, rest, -, e⟩ | e <;> cases e.symm.trans hv

/-- However `Decode()` ends, the Varint Reader is idle (R75). -/
theorem seqEnd_decode_idle (hidle : s.UnitsIdle) :
    (seqEnd s (decodeRecord s)).state.acc = 0 ∧ (seqEnd s (decodeRecord s)).state.shift = 0 := by
  rcases hdec : decodeRecord s with ⟨more, t⟩ | ⟨f, t⟩ | r
  · obtain ⟨-, -, -, -, -, hkeeps⟩ := decodeRecord_ok hdec
    exact ⟨(hkeeps hidle).acc, (hkeeps hidle).shift⟩
  · rcases decodeRecord_raised_cases hdec with ⟨-, rfl⟩ | ⟨m, w, -, rfl⟩ <;> exact ⟨rfl, rfl⟩
  · exact ⟨hidle.acc, hidle.shift⟩

end Check

/-- Settles O57: from `S_CHECK` the sequencer comes to the end of `Decode()`, where the reader is idle. -/
theorem sequencerDoesWhatDecodeDoes : Obligations.SequencerDoesWhatDecodeDoes := by
  intro s hi
  obtain ⟨n, hn⟩ := reaches_decode hi.width
  refine ⟨n, hn, ?_⟩
  rw [hn]
  exact seqEnd_decode_idle hi.units

end Sys2Proof.Machine
